-- ==== Sys2Proof/Word.lean ====
section
/-! DEFINITION. The word types of the host port and the two-valued names the spec gives to line levels and pin
modes (spec/00_scope.md section 6). -/

namespace Sys2Proof

/-- A host register word, and a command word: 32 bits (00_scope.md R6 `REG_WIDTH`, 30_encoding.md R60). -/
abbrev Word := BitVec 32

/-- A byte on the line, and the width of `DATA` and of `ARG` (00_scope.md section 6.2). -/
abbrev Byte := BitVec 8

/-- The width of `RAW` and `SHR` (00_scope.md R6 `RAW_WIDTH`). -/
abbrev Half := BitVec 16

/-- A word index of the host register space, 0 to 7 (20_memory.md R40). -/
abbrev RegIndex := BitVec 3

/-- A level of the line or of a pin: `Low = 0`, `High = 1` (00_scope.md section 6.1). -/
inductive Level where
  | low
  | high
  deriving DecidableEq, Repr, Inhabited

/-- A pin mode, the value of the `OE` latch: `Input = 0`, `Output = 1` (00_scope.md section 6.1). -/
inductive PinMode where
  | input
  | output
  deriving DecidableEq, Repr

end Sys2Proof
end

