-- ==== Sys2Proof/Config.lean ====
section
/-! DEFINITION. What is fixed for this hardware (the timing record and the other parameters of spec/00_scope.md
R5 and R6), the parameters the spec leaves open, and the free inputs of the environment. -/

namespace Sys2Proof

/-- The timing parameters of 00_scope.md R5, in ticks of 1 microsecond, carried as one record as the spec asks. -/
structure Timing where
  /-- `T_RSTL`: reset low time. -/
  rstL : Nat
  /-- `T_RSTH`: drive-high time after the reset low. -/
  rstH : Nat
  /-- `T_PDL`: ceiling of the wait for the line to go low. -/
  pdL : Nat
  /-- `T_PDH`: ceiling of the wait for the line to return high. -/
  pdH : Nat
  /-- `T_W1L`: low time of a write-1 slot. -/
  w1L : Nat
  /-- `T_W1H`: high time of a write-1 slot. -/
  w1H : Nat
  /-- `T_W0L`: low time of a write-0 slot. -/
  w0L : Nat
  /-- `T_W0H`: recovery time of a write-0 slot. -/
  w0H : Nat
  /-- `T_RDL`: low time that starts a read slot. -/
  rdL : Nat
  /-- `T_RDS`: released time up to and including the sampling tick. -/
  rdS : Nat
  /-- `T_RDR`: released time after the sample. -/
  rdR : Nat
  deriving DecidableEq, Repr

namespace Config

/-- The values this hardware takes (00_scope.md R5). -/
def timing : Timing :=
  { rstL := 750, rstH := 15, pdL := 100, pdH := 240, w1L := 10, w1H := 58, w0L := 70, w0H := 2,
    rdL := 10, rdS := 5, rdR := 45 }

/-- `WB_SKIP_ROM` (00_scope.md R6, 30_encoding.md R73). -/
def wbSkipRom : Byte := 0xCC#8

/-- `WB_CONVERT_T` (00_scope.md R6, 30_encoding.md R73). -/
def wbConvertT : Byte := 0x44#8

/-- `WB_READ_SCRATCHPAD` (00_scope.md R6, 30_encoding.md R73). -/
def wbReadScratchpad : Byte := 0xBE#8

/-- `LSB_PER_DEGREE` (00_scope.md R6): raw counts per degree Celsius. -/
def lsbPerDegree : Nat := 16

/-- `T_CONV_MAX` in ticks: 750 ms of 1 microsecond ticks (00_scope.md R6). A duty of the host: no rule of the
block reads it (70_reset_and_hazards.md R181). -/
def tConvMax : Nat := 750000

/-- `CLK_PER_TICK`, an open parameter that no rule reads (93_implementation_defined.md U14, log entry 14). -/
opaque clkPerTick : Nat

/-- `REG_BASE`, an open parameter that no rule reads (93_implementation_defined.md U14, log entry 14). -/
opaque regBase : Nat

/-- FREE VALUE: `dq_in(t)`, the line level of tick `t` where no script gives it (00_scope.md R1 and R2,
20_memory.md R47, 93_implementation_defined.md U10, log entry 3). -/
opaque lineLevel : Nat → Level

/-- FREE VALUE: `gpio_clk_ok(t)`, the clock-ready level of tick `t` where no script gives it (00_scope.md R1
and R2, 93_implementation_defined.md U7, log entry 3). -/
opaque clockReady : Nat → Bool

end Config

/-- Ticks of a write-1 slot, `SLOT_W1` (00_scope.md section 5). -/
def Timing.slotW1 (T : Timing) : Nat := T.w1L + T.w1H

/-- Ticks of a write-0 slot, `SLOT_W0` (00_scope.md section 5). -/
def Timing.slotW0 (T : Timing) : Nat := T.w0L + T.w0H

/-- Ticks of a read slot, `SLOT_RD` (00_scope.md section 5). -/
def Timing.slotRd (T : Timing) : Nat := T.rdL + T.rdS + T.rdR

/-- Ticks of `RESET`, `T_RESET` (00_scope.md section 5). -/
def Timing.reset (T : Timing) : Nat := T.rstL + T.rstH

/-- Ticks of `READ_BYTE`, `T_RBYTE` (00_scope.md section 5). -/
def Timing.rByte (T : Timing) : Nat := 8 * T.slotRd

end Sys2Proof
end

