-- ==== Sys2Proof/Syntax.lean ====
section
/-! DEFINITION. The instructions: the ten host commands of spec/30_encoding.md R63, one constructor per row of
spec/opcode_table.json. -/

namespace Sys2Proof

/-- A host command. The operand of `WRITE_BYTE` is an 8-bit unsigned value (30_encoding.md R62), so its type
already says all that R62 asks of it; no other command has an operand (R61). -/
inductive Instr where
  /-- `CONFIGURE` (41_bus_primitives.md R100). -/
  | configure
  /-- `RESET` (41_bus_primitives.md R101). -/
  | reset
  /-- `CHECK_PRESENCE` (41_bus_primitives.md R102). -/
  | checkPresence
  /-- `WRITE_BYTE v` (41_bus_primitives.md R103). -/
  | writeByte (v : Byte)
  /-- `READ_BIT` (41_bus_primitives.md R104). -/
  | readBit
  /-- `READ_BYTE` (41_bus_primitives.md R105). -/
  | readByte
  /-- `SKIP_ROM` (42_sensor_sequences.md R120). -/
  | skipRom
  /-- `START_CONVERSION` (42_sensor_sequences.md R121). -/
  | startConversion
  /-- `READ_TEMPERATURE` (42_sensor_sequences.md R122). -/
  | readTemperature
  /-- `INIT` (42_sensor_sequences.md R123). -/
  | init
  deriving DecidableEq, Repr

end Sys2Proof
end

