-- ==== Sys2Proof/WellFormed.lean ====
section
/-! DEFINITION. The checks on terms: which command words are legal (spec/30_encoding.md R64) and which timing
records meet the constraints the source states (spec/00_scope.md R5). A term of `Instr` needs no check of its own:
its one operand is typed as the 8 bits R62 gives it. -/

namespace Sys2Proof

/-- The operation codes of format N, which takes no operand (30_encoding.md R61, R64). -/
def formatNCodes : List Byte := [0x01#8, 0x02#8, 0x03#8, 0x05#8, 0x06#8, 0x07#8, 0x08#8, 0x09#8, 0x0A#8]

/-- The operation code of format B, `WRITE_BYTE` alone (30_encoding.md R62). -/
def formatBCode : Byte := 0x04#8

/-- `Legal(w)` (30_encoding.md R64): `w[31:16] = 0`, and either the code is `WRITE_BYTE`'s or it is a format N
code and `w[15:8] = 0`. -/
def Legal (w : Word) : Bool :=
  w.extractLsb' 16 16 == 0#16 &&
    (w.extractLsb' 0 8 == formatBCode ||
      (formatNCodes.contains (w.extractLsb' 0 8) && w.extractLsb' 8 8 == 0#8))

/-- The constraints of 00_scope.md R5 and of 40_micro_ops.md R80 on a timing record: `T_RSTL >= 480`,
`T_W0H >= 1`, `T_RDS >= 1`, and every other duration a positive tick count. -/
def Timing.wf (T : Timing) : Bool :=
  decide (480 ≤ T.rstL) && decide (1 ≤ T.w0H) && decide (1 ≤ T.rdS) &&
    [T.rstH, T.pdL, T.pdH, T.w1L, T.w1H, T.w0L, T.rdL, T.rdR].all (fun n => decide (1 ≤ n))

end Sys2Proof
end

