-- ==== Sys2Proof/Decode.lean ====
section
/-! DEFINITION. The decoder of command words, total on every 32-bit word and rejecting by name, then the encoder
(spec/30_encoding.md R60 to R65). A command word is one 32-bit word: there are no bytes to order (20_memory.md R51)
and no second word (R60). -/

namespace Sys2Proof

/-- Why a word is no command (30_encoding.md R64). The spec reports all four alike, as `ERR = 4` (R65). -/
inductive DecodeError where
  /-- `RSV`, bits 31:16, is not zero. -/
  | reservedBits
  /-- `OPC` is `0x00` or lies in `0x0B` to `0xFF`. -/
  | unassignedCode
  /-- A format N word with a non-zero `ARG`. -/
  | operandNotZero
  deriving DecidableEq, Repr

/-- The field `OPC`, bits 7:0 (30_encoding.md R60). -/
def opcField (w : Word) : Byte := w.extractLsb' 0 8

/-- The field `ARG`, bits 15:8 (30_encoding.md R60). -/
def argField (w : Word) : Byte := w.extractLsb' 8 8

/-- The field `RSV`, bits 31:16 (30_encoding.md R60). -/
def rsvField (w : Word) : Half := w.extractLsb' 16 16

/-- A format N command: its `ARG` must be zero (30_encoding.md R61). -/
def decodeFormatN (w : Word) (i : Instr) : Except DecodeError Instr :=
  if argField w = 0#8 then .ok i else .error .operandNotZero

/-- The command a word stands for (30_encoding.md R60 to R64), or the reason it is none. -/
def decode (w : Word) : Except DecodeError Instr :=
  if rsvField w ≠ 0#16 then .error .reservedBits
  else match (opcField w).toNat with
    | 0x01 => decodeFormatN w .configure
    | 0x02 => decodeFormatN w .reset
    | 0x03 => decodeFormatN w .checkPresence
    | 0x04 => .ok (.writeByte (argField w))
    | 0x05 => decodeFormatN w .readBit
    | 0x06 => decodeFormatN w .readByte
    | 0x07 => decodeFormatN w .skipRom
    | 0x08 => decodeFormatN w .startConversion
    | 0x09 => decodeFormatN w .readTemperature
    | 0x0A => decodeFormatN w .init
    | _ => .error .unassignedCode

/-- A word from its fields (30_encoding.md R60): `RSV = 0`. -/
def packWord (arg opc : Byte) : Word := 0#16 ++ arg ++ opc

/-- The command word of a command (30_encoding.md R61 to R63). -/
def encode : Instr → Word
  | .configure => packWord 0#8 0x01#8
  | .reset => packWord 0#8 0x02#8
  | .checkPresence => packWord 0#8 0x03#8
  | .writeByte v => packWord v 0x04#8
  | .readBit => packWord 0#8 0x05#8
  | .readByte => packWord 0#8 0x06#8
  | .skipRom => packWord 0#8 0x07#8
  | .startConversion => packWord 0#8 0x08#8
  | .readTemperature => packWord 0#8 0x09#8
  | .init => packWord 0#8 0x0A#8

/-- The command the decoder reads from an instruction whose bits are `w`, of which the first `nbits` are given and
the rest are zero. A value that needs more than 32 bits is no command word (30_encoding.md R60). -/
def decodeTableWord (nbits w : Nat) : Option Instr :=
  let v := w % 2 ^ nbits
  if v < 2 ^ 32 then
    match decode (BitVec.ofNat 32 v) with
    | .ok i => some i
    | .error _ => none
  else none

end Sys2Proof
end

