-- ==== Sys2Proof/Machine/State.lean ====
section
/-! DEFINITION. The state of the machine as plain data (spec/10_state.md), the events the outside world can cause
(spec/00_scope.md R1), the reasons a step can stop, and the state after reset (spec/70_reset_and_hazards.md R175). -/

namespace Sys2Proof.Machine

/-- The result codes of `ERR` (60_exceptions.md R150). Codes 5, 6 and 7 are never produced, so the type has the
five that are (93_implementation_defined.md U9, log entry 9). -/
inductive ErrCode where
  /-- 0, `OK`. -/
  | ok
  /-- 1, `ConfigurationError`. -/
  | configurationError
  /-- 2, `NoDevicePresent`. -/
  | noDevicePresent
  /-- 3, `PresencePulseInvalid`. -/
  | presencePulseInvalid
  /-- 4, `IllegalCommand`. -/
  | illegalCommand
  deriving DecidableEq, Repr

/-- The elements of the block, each in its one home (10_state.md section 2). `STATUS`, `PHASE` and `TEMP` are views
of these and are not stored. -/
structure Block where
  /-- `CMD`, the last accepted command word (10_state.md R21). -/
  cmd : Word
  /-- `BUSY` (10_state.md R17). -/
  busy : Bool
  /-- `DONE` (10_state.md R18). -/
  done : Bool
  /-- `OVR`, sticky (10_state.md R20). -/
  ovr : Bool
  /-- `ERR` (10_state.md R19). -/
  err : ErrCode
  /-- `OE`, the pin mode (10_state.md R23). -/
  oe : PinMode
  /-- `OUT`, the level driven in output mode (10_state.md R23). -/
  out : Level
  /-- `PU`, the pull-up enable (10_state.md R24). -/
  pu : Bool
  /-- `CLKEN`, the GPIO clock request (10_state.md R25). -/
  clken : Bool
  /-- `DATA` (10_state.md R11). -/
  data : Byte
  /-- `RAW` (10_state.md R12). -/
  raw : Half
  /-- `SHR`, hidden (10_state.md R13). -/
  shr : Half
  /-- `UPC`, hidden: index of the micro-operation in progress (10_state.md R14, log entry 8). -/
  upc : Nat
  /-- `CNT`, hidden: ticks already spent in it (10_state.md R14, log entry 8). -/
  cnt : Nat
  deriving DecidableEq, Repr

/-- Every element at its reset value (70_reset_and_hazards.md R175, 10_state.md section 2). -/
def Block.reset : Block :=
  { cmd := 0#32, busy := false, done := false, ovr := false, err := .ok, oe := .input, out := .high,
    pu := false, clken := false, data := 0#8, raw := 0#16, shr := 0#16, upc := 0, cnt := 0 }

/-- An event of the outside world (00_scope.md R1, R4). Host accesses and changes of `rst_n` fall between ticks. -/
inductive Input where
  /-- One tick, with the levels the environment supplies for it: `dq_in(t)` and `gpio_clk_ok(t)`. -/
  | tick (dqIn : Level) (gpioClkOk : Bool)
  /-- `RegRead(a)` (20_memory.md R42). -/
  | regRead (a : RegIndex)
  /-- `RegWrite(a, v)` (20_memory.md R43). -/
  | regWrite (a : RegIndex) (v : Word)
  /-- The input `rst_n` takes this level (70_reset_and_hazards.md R175). -/
  | rstN (level : Level)
  deriving DecidableEq, Repr

/-- The state of the machine: the block, the two ports whose value outlasts an event, and the model's own record of
what the outside world does next. -/
structure State where
  /-- The block's elements. -/
  blk : Block
  /-- The level of the input port `rst_n` (60_exceptions.md R161, log entry 5). -/
  rstN : Level
  /-- The word the last host read returned on `reg_rdata`, none before any (60_exceptions.md R161, log entry 6). -/
  rdata : Option Word
  /-- MODEL'S OWN: the events to come, the next one first (00_scope.md R1, R2 and R4, log entry 2). -/
  inputs : List Input
  /-- MODEL'S OWN: the number `t` of the next tick, at which the free inputs are taken (00_scope.md R2, log
  entry 4). -/
  now : Nat
  deriving DecidableEq, Repr

/-- Why a step faults. The spec gives the block no stop (60_exceptions.md R151); both reasons below belong to states
that break 10_state.md R31 and that no run reaches (log entry 7). -/
inductive Fault where
  /-- Raised by `step` when `BUSY = 1` and `CMD` holds no legal command word, which R31 rules out. Safe: the model
  stops where the spec says nothing. -/
  | illegalCommandInProgress (e : DecodeError)
  /-- Raised by every command's meaning when `UPC` lies outside its micro-operation list, which R31 rules out. Safe:
  the model stops where the spec says nothing. -/
  | positionOutsideList
  deriving DecidableEq, Repr

/-- Why a step is refused. -/
inductive Refusal where
  /-- Raised by an arm of `exec` for a command that has no meaning yet; no arm raises it. Safe. -/
  | notModelled (mnemonic : String)
  deriving DecidableEq, Repr

/-- The machine right after hardware reset: every element at the value of 70_reset_and_hazards.md R175, `rst_n`
released, and nothing pending (log entries 2, 4, 5, 6). -/
def State.reset : State :=
  { blk := Block.reset, rstN := .high, rdata := none, inputs := [], now := 0 }

end Sys2Proof.Machine
end

