-- ==== Sys2Proof/Machine/Operands.lean ====
section
/-! DEFINITION. The operand forms: how bits, bytes and the raw sample are taken apart and put together
(spec/20_memory.md R49 and R50, spec/40_micro_ops.md R84 and R91). -/

namespace Sys2Proof

/-- The bit a level is read as: `High` gives 1, `Low` gives 0 (40_micro_ops.md R84). -/
def Level.bit : Level → Bool
  | .low => false
  | .high => true

/-- The level of a bit (00_scope.md section 6.1). -/
def Level.ofBit : Bool → Level
  | false => .low
  | true => .high

/-- The bit a pin mode is read as: `Input = 0`, `Output = 1` (00_scope.md section 6.1). -/
def PinMode.bit : PinMode → Bool
  | .input => false
  | .output => true

/-- The bits of a byte in the order the line carries them, bit 0 first (20_memory.md R49). -/
def byteBits (v : Byte) : List Bool :=
  [v.getLsbD 0, v.getLsbD 1, v.getLsbD 2, v.getLsbD 3, v.getLsbD 4, v.getLsbD 5, v.getLsbD 6, v.getLsbD 7]

/-- `ones(v)`, the number of 1 bits of a byte (30_encoding.md R72). -/
def ones (v : Byte) : Nat := (byteBits v).count true

/-- `SHR[i] <- b`: one bit is written and no other (40_micro_ops.md R84). -/
def setBit (v : Half) (i : Fin 16) (b : Bool) : Half :=
  (v &&& ~~~(1#16 <<< i.val)) ||| (if b then 1#16 <<< i.val else 0#16)

/-- `zext_8(SHR[0])`, the result of `READ_BIT` (40_micro_ops.md R91). -/
def bitOfShr (v : Half) : Byte := (v.extractLsb' 0 1).zeroExtend 8

/-- `SHR[7:0]`, the result of `READ_BYTE` (40_micro_ops.md R91). -/
def byteOfShr (v : Half) : Byte := v.extractLsb' 0 8

end Sys2Proof
end

