-- ==== Sys2Proof/Machine/Expand.lean ====
section
/-! DEFINITION. The micro-operations and the list of them that each command consists of (spec/40_micro_ops.md R80,
R81 and R92). -/

namespace Sys2Proof.Machine

/-- The six kinds of micro-operation (40_micro_ops.md R80). -/
inductive MicroOp where
  /-- `DRV(l, n)`: drive the level `l` for `n` ticks. -/
  | drv (l : Level) (n : Nat)
  /-- `RLS(n)`: input mode for `n` ticks. -/
  | rls (n : Nat)
  /-- `SMP(n, i)`: input mode for `n` ticks, the line read into `SHR[i]` on the last. -/
  | smp (n : Nat) (i : Fin 16)
  /-- `WAITL(max, code)`: input mode until the line is low, or abort after `max` ticks. -/
  | waitL (max : Nat) (code : ErrCode)
  /-- `WAITH(max, code)`: input mode until the line is high, or abort after `max` ticks. -/
  | waitH (max : Nat) (code : ErrCode)
  /-- `CFG`: request the GPIO clock and configure the pin, one tick. -/
  | cfg
  deriving DecidableEq, Repr

/-- The phases that `STATUS.PHASE` shows (10_state.md R16). Values 7 to 15 are never read, so the type has the seven
that are (93_implementation_defined.md U9, log entry 9). -/
inductive Phase where
  /-- 0, `BUSY = 0`. -/
  | idle
  /-- 1, the two `DRV` of a reset pulse. -/
  | reset
  /-- 2, `WAITL`. -/
  | presenceWindowLow
  /-- 3, `WAITH`. -/
  | presenceWindowHigh
  /-- 4, the `DRV` pairs of a written byte. -/
  | commandPhase
  /-- 5, the `DRV`, `SMP`, `RLS` of a read slot. -/
  | dataPhase
  /-- 6, `CFG`. -/
  | config
  deriving DecidableEq, Repr

/-- An entry of a list: a micro-operation with the phase tag it carries (40_micro_ops.md R92). -/
structure Entry where
  op : MicroOp
  phase : Phase
  deriving DecidableEq, Repr

/-- The number of ticks of a micro-operation, for the two waits its ceiling (40_micro_ops.md R80). -/
def MicroOp.ticks : MicroOp → Nat
  | .drv _ n => n
  | .rls n => n
  | .smp n _ => n
  | .waitL max _ => max
  | .waitH max _ => max
  | .cfg => 1

/-- Whether a tick of the micro-operation reads the line, given the ticks already spent in it (40_micro_ops.md R80,
20_memory.md R47). -/
def MicroOp.readsLine : MicroOp → Nat → Bool
  | .drv _ _, _ => false
  | .rls _, _ => false
  | .smp n _, cnt => cnt + 1 == n
  | .waitL _ _, _ => true
  | .waitH _ _, _ => true
  | .cfg, _ => false

/-- `Reset()` (40_micro_ops.md R81). -/
def resetPulse (T : Timing) : List Entry :=
  [⟨.drv .low T.rstL, .reset⟩, ⟨.drv .high T.rstH, .reset⟩]

/-- `Presence()` (40_micro_ops.md R81). -/
def presence (T : Timing) : List Entry :=
  [⟨.waitL T.pdL .noDevicePresent, .presenceWindowLow⟩, ⟨.waitH T.pdH .presencePulseInvalid, .presenceWindowHigh⟩]

/-- `WBit(b)` (40_micro_ops.md R81, 30_encoding.md R68 and R69). -/
def wBit (T : Timing) : Bool → List Entry
  | true => [⟨.drv .low T.w1L, .commandPhase⟩, ⟨.drv .high T.w1H, .commandPhase⟩]
  | false => [⟨.drv .low T.w0L, .commandPhase⟩, ⟨.drv .high T.w0H, .commandPhase⟩]

/-- `WByte(v)`: eight write slots, bit 0 first (40_micro_ops.md R81, 20_memory.md R49). -/
def wByte (T : Timing) (v : Byte) : List Entry := (byteBits v).flatMap (wBit T)

/-- `RBit(i)` (40_micro_ops.md R81, 30_encoding.md R70). -/
def rBit (T : Timing) (i : Fin 16) : List Entry :=
  [⟨.drv .low T.rdL, .dataPhase⟩, ⟨.smp T.rdS i, .dataPhase⟩, ⟨.rls T.rdR, .dataPhase⟩]

/-- `RByte(0)`: the eight read slots of bits 0 to 7 (40_micro_ops.md R81). -/
def rByteLow (T : Timing) : List Entry :=
  rBit T 0 ++ rBit T 1 ++ rBit T 2 ++ rBit T 3 ++ rBit T 4 ++ rBit T 5 ++ rBit T 6 ++ rBit T 7

/-- `RByte(8)`: the eight read slots of bits 8 to 15 (40_micro_ops.md R81). -/
def rByteHigh (T : Timing) : List Entry :=
  rBit T 8 ++ rBit T 9 ++ rBit T 10 ++ rBit T 11 ++ rBit T 12 ++ rBit T 13 ++ rBit T 14 ++ rBit T 15

/-- `SkipRom()` (40_micro_ops.md R81). -/
def skipRomSeq (T : Timing) : List Entry := resetPulse T ++ presence T ++ wByte T Config.wbSkipRom

/-- `[ CFG ]` with its tag (40_micro_ops.md R81 and R92). -/
def cfgSeq : List Entry := [⟨.cfg, .config⟩]

/-- `Expand(OPC, ARG)` over any timing record (40_micro_ops.md R81). -/
def expandWith (T : Timing) : Instr → List Entry
  | .configure => cfgSeq
  | .reset => resetPulse T
  | .checkPresence => presence T
  | .writeByte v => wByte T v
  | .readBit => rBit T 0
  | .readByte => rByteLow T
  | .skipRom => skipRomSeq T
  | .startConversion => skipRomSeq T ++ wByte T Config.wbConvertT
  | .readTemperature =>
    skipRomSeq T ++ wByte T Config.wbConvertT ++ skipRomSeq T ++ wByte T Config.wbReadScratchpad ++
      rByteLow T ++ rByteHigh T
  | .init => cfgSeq ++ resetPulse T ++ presence T

/-- `Expand(OPC, ARG)` of this hardware (40_micro_ops.md R81 with the values of 00_scope.md R5). -/
def expand (i : Instr) : List Entry := expandWith Config.timing i

end Sys2Proof.Machine
end

