-- ==== Sys2Proof/Machine/Flags.lean ====
section
/-! DEFINITION. The status codes and the word `STATUS` (spec/10_state.md R16 and R22, spec/60_exceptions.md R150). -/

namespace Sys2Proof.Machine

/-- The 3-bit number of a result code (60_exceptions.md R150). -/
def ErrCode.code : ErrCode → BitVec 3
  | .ok => 0#3
  | .configurationError => 1#3
  | .noDevicePresent => 2#3
  | .presencePulseInvalid => 3#3
  | .illegalCommand => 4#3

/-- The 4-bit number of a phase (10_state.md R16). -/
def Phase.code : Phase → BitVec 4
  | .idle => 0#4
  | .reset => 1#4
  | .presenceWindowLow => 2#4
  | .presenceWindowHigh => 3#4
  | .commandPhase => 4#4
  | .dataPhase => 5#4
  | .config => 6#4

/-- The entry of the list in progress at `UPC`, none while idle (40_micro_ops.md R88, 10_state.md R27: the list is a
function of `CMD`). -/
def Block.entry (b : Block) : Option Entry :=
  if b.busy then
    match decode b.cmd with
    | .ok i => (expand i)[b.upc]?
    | .error _ => none
  else none

/-- `PHASE`: 0 while idle, else the tag of the entry at `UPC` (10_state.md R16). -/
def Block.phase (b : Block) : Phase :=
  match b.entry with
  | some e => e.phase
  | none => .idle

/-- The word `STATUS`, from bit 31 down to bit 0 (10_state.md R22). -/
def Block.status (b : Block) : Word :=
  0#16 ++ BitVec.ofBool b.clken ++ BitVec.ofBool b.pu ++ BitVec.ofBool b.out.bit ++ BitVec.ofBool b.oe.bit ++
    b.phase.code ++ 0#1 ++ b.err.code ++ 0#1 ++ BitVec.ofBool b.ovr ++ BitVec.ofBool b.done ++
    BitVec.ofBool b.busy

end Sys2Proof.Machine
end

