-- ==== Sys2Proof/Machine/TempDecoder.lean ====
section
/-! DEFINITION. The combinational temperature decoder (spec/43_temperature_decoder.md R135 to R142) and the value of
a binary32 word (spec/30_encoding.md R75). -/

namespace Sys2Proof.Machine

/-- The magnitude `m = |sint(raw)|` as a mathematical integer, 0 to 32768 (43_temperature_decoder.md R137 and R140:
no wrap at `0x8000`). -/
def rawMagnitude (raw : Half) : Nat := raw.toInt.natAbs

/-- `Decode32(raw)` (43_temperature_decoder.md R137): the sign of `sint(raw)`, the exponent field `e - 4 + 127` for
`e` the position of the top set bit of the magnitude, and the fraction field below it. -/
def decode32 (raw : Half) : Word :=
  if raw.toInt = 0 then 0#32
  else
    let m := rawMagnitude raw
    let e := Nat.log2 m
    BitVec.ofBool (decide (raw.toInt < 0)) ++ BitVec.ofNat 8 (e + 127 - 4) ++
      BitVec.ofNat 23 ((m - 2 ^ e) <<< (23 - e))

/-- `T(raw)`, degrees Celsius (43_temperature_decoder.md R136). -/
def temperature (raw : Half) : ℚ := raw.toInt / Config.lsbPerDegree

/-- The exponent field of a binary32 word, bits 30:23 (30_encoding.md R75). -/
def floatExponent (w : Word) : Nat := (w.extractLsb' 23 8).toNat

/-- The fraction field of a binary32 word, bits 22:0 (30_encoding.md R75). -/
def floatFraction (w : Word) : Nat := (w.extractLsb' 0 23).toNat

/-- The value of a binary32 word whose exponent field is 1 to 254, and of the all-zero word (30_encoding.md R75, log
entry 12); R75 gives no value to any other word and none is produced (R139). -/
def floatValue (w : Word) : Option ℚ :=
  if w = 0#32 then some 0
  else if 1 ≤ floatExponent w ∧ floatExponent w ≤ 254 then
    some ((if w.msb then -1 else 1) * (2 : ℚ) ^ ((floatExponent w : Int) - 127) *
      (1 + floatFraction w / 2 ^ 23))
  else none

end Sys2Proof.Machine
end

