-- ==== Sys2Proof/Machine/Ops.lean ====
section
/-! DEFINITION. The shared operations: host accesses (spec/20_memory.md R41 to R46), the end of a command by
`complete` and by `abort` (spec/40_micro_ops.md R91, spec/60_exceptions.md R152), one tick of each micro-operation
(spec/40_micro_ops.md R82 to R90), and one tick of a list at the sequencer's position (R88). -/

namespace Sys2Proof.Machine

/-! ### Host accesses -/

/-- Accept of a legal command word while idle (20_memory.md R44, first branch). -/
def Block.accept (v : Word) (b : Block) : Block :=
  { b with cmd := v, shr := 0#16, upc := 0, cnt := 0, busy := true, done := false, err := .ok }

/-- Refusal of an illegal word written to `CMD` while idle (20_memory.md R44, second branch, 60_exceptions.md
R153). -/
def Block.refuseIllegal (b : Block) : Block := { b with done := true, err := .illegalCommand }

/-- A write to `CMD` or `RAW` while busy: dropped, `OVR <- 1` (20_memory.md R45 and R46, 60_exceptions.md R154). -/
def Block.dropWrite (b : Block) : Block := { b with ovr := true }

/-- `RegWrite(0, v)` (20_memory.md R44 and R45). The busy check comes first (60_exceptions.md R155). -/
def Block.writeCmd (v : Word) (b : Block) : Block :=
  if b.busy then b.dropWrite
  else match decode v with
    | .ok _ => b.accept v
    | .error _ => b.refuseIllegal

/-- `RegWrite(3, v)` (20_memory.md R46): bits 31:16 are ignored. -/
def Block.writeRaw (v : Word) (b : Block) : Block :=
  if b.busy then b.dropWrite else { b with raw := v.extractLsb' 0 16 }

/-- `RegWrite(a, v)` (20_memory.md R43): indexes 1, 2, 4, 5, 6, 7 ignore the write. -/
def Block.regWrite (a : RegIndex) (v : Word) (b : Block) : Block :=
  if a = 0#3 then b.writeCmd v
  else if a = 3#3 then b.writeRaw v
  else b

/-- `RegRead(a)` (20_memory.md R41 and R42): `DATA` and `RAW` are zero-extended, `TEMP` is the decoder's output, and
indexes 5, 6, 7 read as zero. -/
def Block.regRead (a : RegIndex) (b : Block) : Word :=
  match a.toNat with
  | 0 => b.cmd
  | 1 => b.status
  | 2 => b.data.zeroExtend 32
  | 3 => b.raw.zeroExtend 32
  | 4 => decode32 b.raw
  | _ => 0#32

/-! ### The end of a command -/

/-- What `complete` writes, by command (40_micro_ops.md R91). -/
inductive ResultKind where
  /-- Every command but the three below: nothing. -/
  | nothing
  /-- `READ_BIT`: `DATA <- zext_8(SHR[0])`. -/
  | dataBit
  /-- `READ_BYTE`: `DATA <- SHR[7:0]`. -/
  | dataByte
  /-- `READ_TEMPERATURE`: `RAW <- SHR[15:0]`. -/
  | rawSample
  deriving DecidableEq, Repr

/-- The result register write of `complete` (40_micro_ops.md R91, 10_state.md R11 and R12). -/
def Block.writeResult (r : ResultKind) (b : Block) : Block :=
  match r with
  | .nothing => b
  | .dataBit => { b with data := bitOfShr b.shr }
  | .dataByte => { b with data := byteOfShr b.shr }
  | .rawSample => { b with raw := b.shr }

/-- `complete` (40_micro_ops.md R91): the result is written and the block goes idle; `ERR` stays as accept left
it. -/
def Block.complete (r : ResultKind) (b : Block) : Block :=
  { b.writeResult r with busy := false, done := true, upc := 0, cnt := 0 }

/-- TAKING AN EXCEPTION: `abort(code)` (60_exceptions.md R152). No position is saved and there is no handler; nothing
returns from it (R157): the next accepted command clears `ERR` and `DONE` (`Block.accept`). -/
def Block.abort (code : ErrCode) (b : Block) : Block :=
  { b with err := code, busy := false, done := true, upc := 0, cnt := 0 }

/-- `advance` in a list of `len` entries (40_micro_ops.md R90). -/
def Block.advance (len : Nat) (r : ResultKind) (b : Block) : Block :=
  if b.upc + 1 = len then b.complete r else { b with upc := b.upc + 1, cnt := 0 }

/-- `CNT <- CNT + 1`, a tick that does not end the micro-operation (10_state.md R15). -/
def Block.stay (b : Block) : Block := { b with cnt := b.cnt + 1 }

/-- `if CNT + 1 = n then advance else CNT <- CNT + 1`, common to `DRV` and `RLS` (40_micro_ops.md R82 and R83). -/
def Block.countTo (n len : Nat) (r : ResultKind) (b : Block) : Block :=
  if b.cnt + 1 = n then b.advance len r else b.stay

/-! ### One tick of each micro-operation -/

/-- One tick of `DRV(l, n)` (40_micro_ops.md R82). -/
def Block.tickDrv (l : Level) (n len : Nat) (r : ResultKind) (b : Block) : Block :=
  ({ b with oe := .output, out := l } : Block).countTo n len r

/-- One tick of `RLS(n)` (40_micro_ops.md R83). -/
def Block.tickRls (n len : Nat) (r : ResultKind) (b : Block) : Block :=
  ({ b with oe := .input } : Block).countTo n len r

/-- One tick of `SMP(n, i)` (40_micro_ops.md R84): the line is read on the last tick only. -/
def Block.tickSmp (n : Nat) (i : Fin 16) (dq : Level) (len : Nat) (r : ResultKind) (b : Block) : Block :=
  if b.cnt + 1 = n then ({ b with oe := .input, shr := setBit b.shr i dq.bit } : Block).advance len r
  else ({ b with oe := .input } : Block).stay

/-- One tick of a wait for the level `want`: `WAITL` waits for `Low` (40_micro_ops.md R85), `WAITH` for `High`
(R86, "rule R85 with the levels exchanged"). -/
def Block.tickWait (want : Level) (max : Nat) (code : ErrCode) (dq : Level) (len : Nat) (r : ResultKind)
    (b : Block) : Block :=
  if dq = want then ({ b with oe := .input } : Block).advance len r
  else if b.cnt + 1 = max then ({ b with oe := .input } : Block).abort code
  else ({ b with oe := .input } : Block).stay

/-- The one tick of `CFG` (40_micro_ops.md R87). -/
def Block.tickCfg (ok : Bool) (len : Nat) (r : ResultKind) (b : Block) : Block :=
  if ok then ({ b with clken := true, pu := true, oe := .output, out := .high } : Block).advance len r
  else ({ b with clken := true } : Block).abort .configurationError

/-- One tick of a micro-operation of a list of `len` entries, with the inputs of the tick (40_micro_ops.md R88). -/
def MicroOp.tick (u : MicroOp) (len : Nat) (r : ResultKind) (dq : Level) (ok : Bool) (b : Block) : Block :=
  match u with
  | .drv l n => b.tickDrv l n len r
  | .rls n => b.tickRls n len r
  | .smp n i => b.tickSmp n i dq len r
  | .waitL max code => b.tickWait .low max code dq len r
  | .waitH max code => b.tickWait .high max code dq len r
  | .cfg => b.tickCfg ok len r

/-! ### The inputs of a tick, and the step of the sequencer -/

/-- `dq_in(t)` of the next tick: the scripted level if a tick stands next in `inputs`, else the free value
(00_scope.md R2, log entries 2 and 3). -/
def State.dqIn (s : State) : Level :=
  match s.inputs with
  | .tick dq _ :: _ => dq
  | _ => Config.lineLevel s.now

/-- `gpio_clk_ok(t)` of the next tick, likewise (00_scope.md R2, log entries 2 and 3). -/
def State.gpioClkOk (s : State) : Bool :=
  match s.inputs with
  | .tick _ ok :: _ => ok
  | _ => Config.clockReady s.now

/-- The events left once a tick has been taken: a scripted tick is used up, anything else still waits. -/
def State.inputsAfterTick (s : State) : List Input :=
  match s.inputs with
  | .tick _ _ :: rest => rest
  | l => l

/-- The state after a tick that left the block as `b`. -/
def State.endTick (s : State) (b : Block) : State :=
  { s with blk := b, inputs := s.inputsAfterTick, now := s.now + 1 }

/-- A tick that changes nothing in the block: an idle tick (40_micro_ops.md R89), and a tick while `rst_n` is low
(70_reset_and_hazards.md R175). -/
def State.idleTick (s : State) : State := s.endTick s.blk

/-- One tick of a command whose micro-operation list is `ops` and whose result is `r`, at the position
`(UPC, CNT)` (40_micro_ops.md R88). -/
def runTick (ops : List Entry) (r : ResultKind) (s : State) : Host.Outcome State Fault Refusal :=
  match ops[s.blk.upc]? with
  | some e => .next (s.endTick (e.op.tick ops.length r s.dqIn s.gpioClkOk s.blk))
  | none => .fault .positionOutsideList

/-- The command in progress: `CMD`, read as a command word (20_memory.md R56, 10_state.md R27). -/
def State.fetch (s : State) : Except DecodeError Instr := decode s.blk.cmd

/-- Whether a tick runs the sequencer: `BUSY = 1` and reset not asserted (40_micro_ops.md R88,
70_reset_and_hazards.md R175). -/
def State.running (s : State) : Bool := s.rstN == .high && s.blk.busy

/-! ### Host accesses and reset as events -/

/-- A host read: the word goes to `reg_rdata` and nothing else changes (20_memory.md R42). -/
def State.hostRead (a : RegIndex) (rest : List Input) (s : State) : State :=
  { s with rdata := some (s.blk.regRead a), inputs := rest }

/-- A host write; it has no effect while `rst_n` is low (20_memory.md R43, 70_reset_and_hazards.md R175). -/
def State.hostWrite (a : RegIndex) (v : Word) (rest : List Input) (s : State) : State :=
  if s.rstN = .low then { s with inputs := rest }
  else { s with blk := s.blk.regWrite a v, inputs := rest }

/-- The port `rst_n` takes a level: low puts every element at its reset value at once, whatever was running; high
starts the block from there (70_reset_and_hazards.md R175 and R177). -/
def State.setRstN (l : Level) (rest : List Input) (s : State) : State :=
  match l with
  | .low => { s with rstN := .low, blk := Block.reset, inputs := rest }
  | .high => { s with rstN := .high, inputs := rest }

end Sys2Proof.Machine
end

