-- ==== Sys2Proof/Machine/BusPrimitives.lean ====
section
/-! DEFINITION. The meanings of the six bus primitive commands (spec/41_bus_primitives.md). A meaning is one tick of
the command in progress: the micro-operation of its list at `UPC` (spec/40_micro_ops.md R88), and at the last tick of
the last one `complete` with the command's result (R91). -/

namespace Sys2Proof.Machine

/-- `CONFIGURE` (41_bus_primitives.md R100): `[ CFG ]`, no result register. -/
def execConfigure (s : State) : Host.Outcome State Fault Refusal :=
  runTick (expand .configure) .nothing s

/-- `RESET` (41_bus_primitives.md R101): `Reset()`, no result register. -/
def execReset (s : State) : Host.Outcome State Fault Refusal :=
  runTick (expand .reset) .nothing s

/-- `CHECK_PRESENCE` (41_bus_primitives.md R102): `Presence()`; the outcome is in `ERR`. -/
def execCheckPresence (s : State) : Host.Outcome State Fault Refusal :=
  runTick (expand .checkPresence) .nothing s

/-- `WRITE_BYTE v` (41_bus_primitives.md R103): `WByte(v)`, no result register. -/
def execWriteByte (v : Byte) (s : State) : Host.Outcome State Fault Refusal :=
  runTick (expand (.writeByte v)) .nothing s

/-- `READ_BIT` (41_bus_primitives.md R104): `RBit(0)`, then `DATA <- zext_8(SHR[0])`. -/
def execReadBit (s : State) : Host.Outcome State Fault Refusal :=
  runTick (expand .readBit) .dataBit s

/-- `READ_BYTE` (41_bus_primitives.md R105): `RByte(0)`, then `DATA <- SHR[7:0]`. -/
def execReadByte (s : State) : Host.Outcome State Fault Refusal :=
  runTick (expand .readByte) .dataByte s

end Sys2Proof.Machine
end

