-- ==== Sys2Proof/Machine/SensorSequences.lean ====
section
/-! DEFINITION. The meanings of the four composite commands (spec/42_sensor_sequences.md): one tick of the command in
progress, as in Machine/BusPrimitives.lean. -/

namespace Sys2Proof.Machine

/-- `SKIP_ROM` (42_sensor_sequences.md R120): `Reset() ++ Presence() ++ WByte(0xCC)`. -/
def execSkipRom (s : State) : Host.Outcome State Fault Refusal :=
  runTick (expand .skipRom) .nothing s

/-- `START_CONVERSION` (42_sensor_sequences.md R121): `SkipRom() ++ WByte(0x44)`. -/
def execStartConversion (s : State) : Host.Outcome State Fault Refusal :=
  runTick (expand .startConversion) .nothing s

/-- `READ_TEMPERATURE` (42_sensor_sequences.md R122): 120 micro-operations, then `RAW <- SHR[15:0]`. -/
def execReadTemperature (s : State) : Host.Outcome State Fault Refusal :=
  runTick (expand .readTemperature) .rawSample s

/-- `INIT` (42_sensor_sequences.md R123): `[ CFG ] ++ Reset() ++ Presence()`; the outcome is in `ERR`. -/
def execInit (s : State) : Host.Outcome State Fault Refusal :=
  runTick (expand .init) .nothing s

end Sys2Proof.Machine
end

