-- ==== Sys2Proof/Machine/Dispatch.lean ====
section
/-! DEFINITION. One tick of a command in progress: one arm per command (spec/40_micro_ops.md R88). -/

namespace Sys2Proof.Machine

def exec (i : Instr) (s : State) : Host.Outcome State Fault Refusal :=
  match i with
  | .configure => Sys2Proof.Machine.execConfigure s
  | .reset => Sys2Proof.Machine.execReset s
  | .checkPresence => Sys2Proof.Machine.execCheckPresence s
  | .writeByte v => Sys2Proof.Machine.execWriteByte v s
  | .readBit => Sys2Proof.Machine.execReadBit s
  | .readByte => Sys2Proof.Machine.execReadByte s
  | .skipRom => Sys2Proof.Machine.execSkipRom s
  | .startConversion => Sys2Proof.Machine.execStartConversion s
  | .readTemperature => Sys2Proof.Machine.execReadTemperature s
  | .init => Sys2Proof.Machine.execInit s

end Sys2Proof.Machine
end

