-- ==== Sys2Proof/Machine/Step.lean ====
section
/-! DEFINITION. One step of the machine: the next event of the outside world, a tick where none is pending
(spec/00_scope.md R1 to R4, spec/40_micro_ops.md R88 and R89), and the placing of a command to run next. -/

namespace Sys2Proof.Machine

/-- One tick (40_micro_ops.md R88 and R89): the command in progress runs for one tick, else nothing changes. -/
def stepTick (s : State) : Host.Outcome State Fault Refusal :=
  if s.running then
    match s.fetch with
    | .ok i => exec i s
    | .error e => .fault (.illegalCommandInProgress e)
  else .next s.idleTick

/-- One step: the event that stands next in `inputs`; with none pending, a tick (log entry 2). -/
def step (s : State) : Host.Outcome State Fault Refusal :=
  match s.inputs with
  | .regRead a :: rest => .next (s.hostRead a rest)
  | .regWrite a v :: rest => .next (s.hostWrite a v rest)
  | .rstN l :: rest => .next (s.setRstN l rest)
  | .tick _ _ :: _ => stepTick s
  | [] => stepTick s

/-- The state in which the command word `w` has just been written to `CMD` of an idle block that is out of reset
(20_memory.md R44) and the next event is a tick, with the line high and the GPIO clock ready, so that the next step
runs the first tick of the command (log entry 11). An illegal word is refused there as R153 says. -/
def State.withFetchWord (s : State) (nbits w : Nat) : State :=
  { s with
    rstN := .high
    blk := ({ s.blk with busy := false } : Block).writeCmd (BitVec.ofNat 32 (w % 2 ^ nbits))
    inputs := .tick .high true :: s.inputs }

end Sys2Proof.Machine
end

