-- ==== Sys2Proof/Machine/Observe.lean ====
section
/-! DEFINITION. What can be seen from outside: the output ports (spec/20_memory.md R48), the pin waveform
(spec/00_scope.md section 6.3), and the per-tick record of the pin and of the reads of the line
(spec/60_exceptions.md R163). -/

namespace Sys2Proof.Machine

/-- The four output ports (20_memory.md R48, 60_exceptions.md R161). -/
structure Ports where
  dqOe : Bool
  dqOut : Bool
  dqPu : Bool
  gpioClkEn : Bool
  deriving DecidableEq, Repr

/-- The ports are driven from the latches at all times (20_memory.md R48). -/
def Block.ports (b : Block) : Ports :=
  { dqOe := b.oe.bit, dqOut := b.out.bit, dqPu := b.pu, gpioClkEn := b.clken }

/-- What the pin does during a tick (00_scope.md section 6.3): `L` driven low, `H` driven high, `Z` released in input
mode. -/
inductive Drive where
  | low
  | high
  | released
  deriving DecidableEq, Repr

/-- The pin of a mode and a level: in input mode the level has no effect (10_state.md R23). -/
def pinDrive : PinMode → Level → Drive
  | .input, _ => .released
  | .output, .low => .low
  | .output, .high => .high

/-- The pin of a block. -/
def Block.drive (b : Block) : Drive := pinDrive b.oe b.out

/-- A waveform from its run-length notation (00_scope.md section 6.3): `L750 H15` is
`wave [(.low, 750), (.high, 15)]`. -/
def wave (runs : List (Drive × Nat)) : List Drive := runs.flatMap fun r => List.replicate r.2 r.1

/-- Whether the next step is a tick: a tick stands next, or no event is pending (log entry 2). -/
def State.nextIsTick (s : State) : Bool :=
  match s.inputs with
  | [] => true
  | .tick _ _ :: _ => true
  | .regRead _ :: _ => false
  | .regWrite _ _ :: _ => false
  | .rstN _ :: _ => false

/-- Whether the next step reads the line (20_memory.md R47). -/
def State.readsLine (s : State) : Bool :=
  s.nextIsTick && s.running &&
    match s.blk.entry with
    | some e => e.op.readsLine s.blk.cnt
    | none => false

/-- Whether the next step reads `gpio_clk_ok` (40_micro_ops.md R80 and R87). -/
def State.readsClock (s : State) : Bool :=
  s.nextIsTick && s.running &&
    match s.blk.entry with
    | some e => e.op == .cfg
    | none => false

/-- The record of one tick (60_exceptions.md R163): the latches that hold during it and whether it read the line. -/
structure TickRecord where
  oe : PinMode
  out : Level
  readLine : Bool
  deriving DecidableEq, Repr

/-- `n` steps, stopping at the first that gives no next state. -/
def stepMany : Nat → State → Host.Outcome State Fault Refusal
  | 0, s => .next s
  | n + 1, s =>
    match step s with
    | .next t => stepMany n t
    | .fault r => .fault r
    | .refused r => .refused r

/-- The record of the ticks among the next `n` steps (60_exceptions.md R163). The latches a tick sets hold during
that tick (00_scope.md R3). -/
def record : Nat → State → List TickRecord
  | 0, _ => []
  | n + 1, s =>
    match step s with
    | .next t =>
      (if s.nextIsTick then [⟨t.blk.oe, t.blk.out, s.readsLine⟩] else []) ++ record n t
    | .fault _ => []
    | .refused _ => []

/-- The pin waveform of the ticks among the next `n` steps (00_scope.md section 6.3). -/
def waveform (n : Nat) (s : State) : List Drive := (record n s).map fun r => pinDrive r.oe r.out

/-- A script of ticks as events: the levels `dq_in` and `gpio_clk_ok` of each (00_scope.md R2). -/
def tickInputs (env : List (Level × Bool)) : List Input := env.map fun e => .tick e.1 e.2

end Sys2Proof.Machine
end

