-- ==== Sys2Proof/Machine/Script.lean ====
section
/-! DEFINITION. The host-script statements of spec/30_encoding.md R76, run over the machine. The line levels of the
ticks a statement takes are the ticks that stand in `inputs`, or the free values where none stand there. What `TICK` and
`WAIT` do where another event stands there is log entry 21. -/

namespace Sys2Proof.Machine

/-- The registers that `RD` names (30_encoding.md R76). -/
inductive HostReg where
  | cmd
  | status
  | data
  | raw
  | temp
  deriving DecidableEq, Repr

/-- The word index of a register (20_memory.md R41). -/
def HostReg.index : HostReg → RegIndex
  | .cmd => 0#3
  | .status => 1#3
  | .data => 2#3
  | .raw => 3#3
  | .temp => 4#3

/-- A host-script statement (30_encoding.md R76). -/
inductive HostStmt where
  /-- `CMD <mnemonic>`, and `CMD WRITE_BYTE <v>`. -/
  | cmd (i : Instr)
  /-- `CMD.W <word>`. -/
  | cmdW (w : Word)
  /-- `WR RAW, <v>`. -/
  | wrRaw (v : Word)
  /-- `RD <reg>`. -/
  | rd (r : HostReg)
  /-- `TICK <n>` (log entry 21). -/
  | tick (n : Nat)
  /-- `WAIT` (log entries 20 and 21). -/
  | wait
  deriving DecidableEq, Repr

/-- An access made now, before the events that already stand in `inputs` (00_scope.md R4, log entry 21). -/
def access (e : Input) (s : State) : Host.Outcome State Fault Refusal := step { s with inputs := e :: s.inputs }

/-- Whether the word last read has bit 0 set: `BUSY` in a word read from `STATUS` (10_state.md R22). -/
def State.lastReadBusy (s : State) : Bool :=
  match s.rdata with
  | some w => w.getLsbD 0
  | none => false

/-- `WAIT`: repeat `TICK 1` then `RD STATUS` until the value read has `BUSY = 0`, at most `fuel` times. DESIGN CHOICE
(log entry 21): a turn's `TICK 1` is one step, so a reset or a host access that stands next in `inputs` is taken in place
of that turn's tick and uses up the turn. -/
def waitLoop : Nat → State → Host.Outcome State Fault Refusal
  | 0, s => .next s
  | fuel + 1, s =>
    match step s with
    | .next t =>
      match access (.regRead HostReg.status.index) t with
      | .next u => if u.lastReadBusy then waitLoop fuel u else .next u
      | .fault r => .fault r
      | .refused r => .refused r
    | .fault r => .fault r
    | .refused r => .refused r

/-- The bound of every command in ticks, which is enough for `WAIT` (70_reset_and_hazards.md R190, log entry 20). -/
def waitBound : Nat := 5410

/-- One statement (30_encoding.md R76). DESIGN CHOICE (log entry 21): `TICK n` is `n` steps, which are `n` ticks where
only ticks are pending; R76 says nothing of a reset or another host access that is pending, and here each one that comes
up is taken as one of the `n`. -/
def HostStmt.run : HostStmt → State → Host.Outcome State Fault Refusal
  | .cmd i, s => access (.regWrite HostReg.cmd.index (encode i)) s
  | .cmdW w, s => access (.regWrite HostReg.cmd.index w) s
  | .wrRaw v, s => access (.regWrite HostReg.raw.index v) s
  | .rd r, s => access (.regRead r.index) s
  | .tick n, s => stepMany n s
  | .wait, s => waitLoop waitBound s

/-- The statements of a script, one after the other. -/
def runScript : List HostStmt → State → Host.Outcome State Fault Refusal
  | [], s => .next s
  | st :: rest, s =>
    match st.run s with
    | .next t => runScript rest t
    | .fault r => .fault r
    | .refused r => .refused r

end Sys2Proof.Machine
end

