-- ==== Sys2Proof/Safety.lean ====
section
/-! DEFINITION. What claims about runs are stated in: the invariants of spec/10_state.md section 9, the host fault of
spec/93_implementation_defined.md U1, and the duties of the host the block can be seen to depend on
(spec/70_reset_and_hazards.md section 3). -/

namespace Sys2Proof.Machine

/-- The sequencer's position lies inside the list of the command in `CMD`, and `CNT` below the duration or ceiling of
its micro-operation (10_state.md R31). -/
def Block.positionOk (b : Block) : Bool :=
  match decode b.cmd with
  | .ok i =>
    match (expand i)[b.upc]? with
    | some e => decide (b.cnt < e.op.ticks)
    | none => false
  | .error _ => false

/-- The invariant of the machine (10_state.md R30, R31 and what follows from R15 to R25, R87, R152 and R175). -/
structure Inv (s : State) : Prop where
  /-- While `rst_n` is low every element has its reset value (70_reset_and_hazards.md R175). -/
  resetHeld : s.rstN = .low → s.blk = Block.reset
  /-- While idle the position is `(0, 0)` (10_state.md R30). -/
  idlePosition : s.blk.busy = false → s.blk.upc = 0 ∧ s.blk.cnt = 0
  /-- While busy `DONE = 0` and `ERR = 0` (10_state.md R31). -/
  busyFlags : s.blk.busy = true → s.blk.done = false ∧ s.blk.err = .ok
  /-- While busy `CMD` is legal and the position lies inside its list (10_state.md R31). -/
  busyPosition : s.blk.busy = true → s.blk.positionOk = true
  /-- `ERR` holds a result only while `DONE = 1` (10_state.md R18 and R19). -/
  errDone : s.blk.done = false → s.blk.err = .ok
  /-- `CMD` is the reset word or a legal word (10_state.md R21). -/
  cmdLegal : s.blk.cmd = 0#32 ∨ Legal s.blk.cmd = true
  /-- The pull-up is enabled only where the clock was requested (10_state.md R24 and R25, 40_micro_ops.md R87). -/
  pullUpClock : s.blk.pu = true → s.blk.clken = true
  /-- After `ConfigurationError` the clock has been requested (60_exceptions.md R150). -/
  configErrorClock : s.blk.err = .configurationError → s.blk.clken = true
  /-- After a presence failure the pin is in input mode (10_state.md R32, 60_exceptions.md R152). -/
  presenceErrorInput : s.blk.err = .noDevicePresent ∨ s.blk.err = .presencePulseInvalid → s.blk.oe = .input

/-- A state from which a run begins: the block just out of reset, whatever the outside world will do. -/
def Initial (s : State) : Prop := s.blk = Block.reset ∧ s.rstN = .high

/-- `t` is reached from `s` by steps. -/
inductive Reaches : State → State → Prop where
  | refl (s : State) : Reaches s s
  | tail {s t u : State} : Reaches s t → step t = .next u → Reaches s u

/-- The host fault of 93_implementation_defined.md U1: a write to `CMD` or `RAW` came while busy. Statements about the
result of a whole command carry its absence as a premise (log entry 13). -/
def HostFault (s : State) : Prop := s.blk.ovr = true

/-- The duty R179 at the next event: no write to `CMD` or `RAW` while busy (70_reset_and_hazards.md R179). -/
def State.obeysOneCommand (s : State) : Bool :=
  match s.inputs with
  | .regWrite a _ :: _ => !(s.blk.busy && (a == 0#3 || a == 3#3))
  | .regRead _ :: _ => true
  | .rstN _ :: _ => true
  | .tick _ _ :: _ => true
  | [] => true

/-- The state a host must see before it uses a result (70_reset_and_hazards.md R185, 10_state.md R18): idle, `DONE = 1`
and `ERR = 0`. -/
def State.resultUsable (s : State) : Bool := !s.blk.busy && s.blk.done && s.blk.err == .ok

/-- A command has just been accepted and its first tick has not run (20_memory.md R44): busy at position `(0, 0)`
with `SHR`, `DONE` and `ERR` cleared, out of reset. -/
def Accepted (i : Instr) (s : State) : Prop :=
  s.rstN = .high ∧ s.blk.busy = true ∧ decode s.blk.cmd = .ok i ∧ s.blk.upc = 0 ∧ s.blk.cnt = 0 ∧
    s.blk.shr = 0#16 ∧ s.blk.done = false ∧ s.blk.err = .ok

/-- What `complete` leaves, by command (40_micro_ops.md R91, transcribed with the table of commands instead of the
model's `ResultKind`): the result register, `BUSY = 0`, `DONE = 1`, position `(0, 0)`. -/
def finished (i : Instr) (b : Block) : Block :=
  match i with
  | .readBit =>
    { b with data := if b.shr.getLsbD 0 then 1#8 else 0#8, busy := false, done := true, upc := 0, cnt := 0 }
  | .readByte => { b with data := b.shr.setWidth 8, busy := false, done := true, upc := 0, cnt := 0 }
  | .readTemperature => { b with raw := b.shr, busy := false, done := true, upc := 0, cnt := 0 }
  | .configure | .reset | .checkPresence | .writeByte _ | .skipRom | .startConversion | .init =>
    { b with busy := false, done := true, upc := 0, cnt := 0 }

/-- What `advance` leaves, by command (40_micro_ops.md R90). -/
def advanced (i : Instr) (b : Block) : Block :=
  if b.upc + 1 = (expand i).length then finished i b else { b with upc := b.upc + 1, cnt := 0 }

/-- Whether a tick with the levels `dq` and `ok`, at `cnt` ticks already spent, ends the micro-operation by `advance`
(40_micro_ops.md R82 to R87): the last of its ticks, for the two waits the level waited for, for `CFG` the clock. -/
def MicroOp.endsOnTick (u : MicroOp) (cnt : Nat) (dq : Level) (ok : Bool) : Bool :=
  match u with
  | .drv _ _ => cnt + 1 == u.ticks
  | .rls _ => cnt + 1 == u.ticks
  | .smp _ _ => cnt + 1 == u.ticks
  | .waitL _ _ => dq == .low
  | .waitH _ _ => dq == .high
  | .cfg => ok

/-- Whether such a tick ends the command by `abort` (40_micro_ops.md R85 to R87): the last tick of a wait without the
level waited for, or `CFG` without the clock. -/
def MicroOp.failsOnTick (u : MicroOp) (cnt : Nat) (dq : Level) (ok : Bool) : Bool :=
  match u with
  | .drv _ _ => false
  | .rls _ => false
  | .smp _ _ => false
  | .waitL _ _ => dq == .high && cnt + 1 == u.ticks
  | .waitH _ _ => dq == .low && cnt + 1 == u.ticks
  | .cfg => !ok

/-- From `s`, `n` steps lead to `t`, which is idle, and every state before it is busy: the command in progress takes
exactly `n` more ticks (40_micro_ops.md R93, 70_reset_and_hazards.md R190), where the events are ticks. -/
def CommandTakes (n : Nat) (s t : State) : Prop :=
  stepMany n s = .next t ∧ t.blk.busy = false ∧
    ∀ k, k < n → ∃ u, stepMany k s = .next u ∧ u.blk.busy = true

/-- No host access and no reset stands among the pending events. -/
def onlyTicks (l : List Input) : Bool :=
  l.all fun e =>
    match e with
    | .tick _ _ => true
    | .regRead _ => false
    | .regWrite _ _ => false
    | .rstN _ => false

/-- The line of a presence check that succeeds (41_bus_primitives.md R102): `k` high ticks, the first low tick, `m`
further low ticks, and the high tick that ends it. -/
def pulseLine (k m : Nat) : List Level := List.replicate k .high ++ .low :: (List.replicate m .low ++ [.high])

/-- The line of a presence check that finds no device (41_bus_primitives.md R102): high on ticks 0 to 99. -/
def absentLine : List Level := List.replicate 100 .high

/-- The line of a presence check whose pulse is too long (41_bus_primitives.md R102): `k` high ticks, then low on
ticks `k` to `k + 240`. -/
def stuckLine (k : Nat) : List Level := List.replicate k .high ++ List.replicate 241 .low

/-- The write slot of one bit as a waveform (30_encoding.md R68 and R69). -/
def slotWave (b : Bool) : List Drive := if b then wave [(.low, 10), (.high, 58)] else wave [(.low, 70), (.high, 2)]

/-- A written byte as a waveform (30_encoding.md R72, 20_memory.md R49). -/
def byteWave (v : Byte) : List Drive := (byteBits v).flatMap slotWave

end Sys2Proof.Machine
end

