-- ==== Sys2Proof/Certificates/Slice0/Obligations.lean ====
section
/-! DEFINITION. The statements for the provers. Each docstring names the rule of spec/ it formalises. -/

open Sys2Proof Sys2Proof.Machine

/-! ### Encodings -/

/-- 30_encoding.md R63: the command words of the table, for `WRITE_BYTE v` the word `0x0000vv04` of every `v`. -/
def Obligations.CommandWordsDecodeAsTabled : Prop :=
  decode 0x00000001#32 = .ok .configure ∧ decode 0x00000002#32 = .ok .reset ∧
  decode 0x00000003#32 = .ok .checkPresence ∧ (∀ v : Byte, decode (0x0000#16 ++ v ++ 0x04#8) = .ok (.writeByte v)) ∧
  decode 0x00000005#32 = .ok .readBit ∧ decode 0x00000006#32 = .ok .readByte ∧
  decode 0x00000007#32 = .ok .skipRom ∧ decode 0x00000008#32 = .ok .startConversion ∧
  decode 0x00000009#32 = .ok .readTemperature ∧ decode 0x0000000A#32 = .ok .init

/-- Decode and encode agree in both directions, over every command with every operand and every word. -/
def Obligations.DecodeAndEncodeAgree : Prop :=
  (∀ i : Instr, decode (encode i) = .ok i) ∧ ∀ (w : Word) (i : Instr), decode w = .ok i → encode i = w

/-- 30_encoding.md R64: which words are legal, and that 265 of them are. A word the decoder refuses is illegal. -/
def Obligations.LegalWordsAreExactlyTheCommands : Prop :=
  (∀ w : Word, (∃ i, decode w = .ok i) ↔
    (w.extractLsb' 16 16 = 0#16 ∧
      (w.extractLsb' 0 8 = 0x04#8 ∨
        (w.extractLsb' 0 8 ∈ [0x01#8, 0x02#8, 0x03#8, 0x05#8, 0x06#8, 0x07#8, 0x08#8, 0x09#8, 0x0A#8] ∧
          w.extractLsb' 8 8 = 0#8)))) ∧
  ∃ l : List Word, l.Nodup ∧ l.length = 265 ∧ ∀ w, w ∈ l ↔ ∃ i, decode w = .ok i

/-! ### The step, and host accesses -/

/-- 40_micro_ops.md R88: a tick while `BUSY = 1` is one tick of the command that `CMD` holds. The step adds nothing
around `exec`. -/
def Obligations.StepRunsCommandInProgress : Prop :=
  ∀ (s : State) (i : Instr), s.nextIsTick = true → s.rstN = .high → s.blk.busy = true → decode s.blk.cmd = .ok i →
    step s = exec i s

/-- 20_memory.md R43 to R46 and 60_exceptions.md R153: the whole effect of `RegWrite(a, v)`, what follows an accept on
the first tick after it, and that `TEMP` follows a write of `RAW` at once. -/
def Obligations.HostWriteEffect : Prop :=
  (∀ (s : State) (a : RegIndex) (v : Word) (rest : List Input),
    s.inputs = .regWrite a v :: rest → s.rstN = .high →
    step s = .next { s with
      inputs := rest
      blk :=
        if a = 0#3 then
          if s.blk.busy then { s.blk with ovr := true }
          else if Legal v then
            { s.blk with cmd := v, shr := 0#16, upc := 0, cnt := 0, busy := true, done := false, err := .ok }
          else { s.blk with done := true, err := .illegalCommand }
        else if a = 3#3 then
          if s.blk.busy then { s.blk with ovr := true } else { s.blk with raw := v.extractLsb' 0 16 }
        else s.blk }) ∧
  (∀ (s t : State) (v : Word) (rest : List Input),
    s.inputs = .regWrite 0#3 v :: rest → s.rstN = .high → s.blk.busy = false → Legal v = true → step s = .next t →
    t.nextIsTick = true → ∃ i, decode v = .ok i ∧ step t = exec i t) ∧
  (∀ (b : Block) (v : Word), b.busy = false → (b.regWrite 3#3 v).regRead 4#3 = decode32 (v.extractLsb' 0 16))

/-- 20_memory.md R42 with the read column of R41: the word of every index, nothing else changed; and what a read while
busy sees of `DATA` and `RAW`: no step from busy to busy changes them. -/
def Obligations.HostReadEffect : Prop :=
  (∀ (s : State) (a : RegIndex) (rest : List Input), s.inputs = .regRead a :: rest →
    step s = .next { s with inputs := rest, rdata := some (s.blk.regRead a) }) ∧
  (∀ b : Block, b.regRead 0#3 = b.cmd ∧ b.regRead 1#3 = b.status ∧ b.regRead 2#3 = 0#24 ++ b.data ∧
    b.regRead 3#3 = 0#16 ++ b.raw ∧ b.regRead 4#3 = decode32 b.raw ∧ b.regRead 5#3 = 0#32 ∧
    b.regRead 6#3 = 0#32 ∧ b.regRead 7#3 = 0#32) ∧
  (∀ s t : State, s.blk.busy = true → step s = .next t → t.blk.busy = true →
    t.blk.data = s.blk.data ∧ t.blk.raw = s.blk.raw)

/-- 10_state.md R22: the fields of `STATUS`, its reserved bits, its reset value, and that a write is ignored. -/
def Obligations.StatusWordLayout : Prop :=
  (∀ b : Block,
    (b.regRead 1#3).extractLsb' 0 1 = BitVec.ofBool b.busy ∧
    (b.regRead 1#3).extractLsb' 1 1 = BitVec.ofBool b.done ∧
    (b.regRead 1#3).extractLsb' 2 1 = BitVec.ofBool b.ovr ∧
    (b.regRead 1#3).extractLsb' 3 1 = 0#1 ∧
    (b.regRead 1#3).extractLsb' 4 3 = b.err.code ∧
    (b.regRead 1#3).extractLsb' 7 1 = 0#1 ∧
    (b.regRead 1#3).extractLsb' 8 4 = b.phase.code ∧
    (b.regRead 1#3).extractLsb' 12 1 = BitVec.ofBool (b.oe == .output) ∧
    (b.regRead 1#3).extractLsb' 13 1 = BitVec.ofBool (b.out == .high) ∧
    (b.regRead 1#3).extractLsb' 14 1 = BitVec.ofBool b.pu ∧
    (b.regRead 1#3).extractLsb' 15 1 = BitVec.ofBool b.clken ∧
    (b.regRead 1#3).extractLsb' 16 16 = 0#16) ∧
  Block.reset.regRead 1#3 = 0x00002000#32 ∧
  (∀ (b : Block) (v : Word), b.regWrite 1#3 v = b) ∧
  (∀ (s : State) (rest : List Input), s.inputs = .regRead 1#3 :: rest →
    step s = .next { s with inputs := rest, rdata := some s.blk.status })

/-- 10_state.md R16 and 40_micro_ops.md R92: `PHASE` is 0 while idle, else the tag of the entry at `UPC`, and which
tag each kind of micro-operation carries, list by list. -/
def Obligations.PhaseShowsEntryInProgress : Prop :=
  (∀ b : Block, b.busy = false → b.phase.code = 0#4) ∧
  (∀ (b : Block) (i : Instr) (e : Entry), b.busy = true → decode b.cmd = .ok i → (expand i)[b.upc]? = some e →
    b.phase = e.phase ∧
    (∀ m c, e.op = .waitL m c → b.phase.code = 2#4) ∧ (∀ m c, e.op = .waitH m c → b.phase.code = 3#4) ∧
    (∀ n j, e.op = .smp n j → b.phase.code = 5#4) ∧ (∀ n, e.op = .rls n → b.phase.code = 5#4) ∧
    (e.op = .cfg → b.phase.code = 6#4) ∧
    (∀ l n, e.op = .drv l n → b.phase.code = 1#4 ∨ b.phase.code = 4#4 ∨ b.phase.code = 5#4)) ∧
  (∀ i : Instr, (expand i).map (fun e => e.phase.code) =
    match i with
    | .configure => [6#4]
    | .reset => [1#4, 1#4]
    | .checkPresence => [2#4, 3#4]
    | .writeByte _ => List.replicate 16 4#4
    | .readBit => List.replicate 3 5#4
    | .readByte => List.replicate 24 5#4
    | .skipRom => [1#4, 1#4, 2#4, 3#4] ++ List.replicate 16 4#4
    | .startConversion => [1#4, 1#4, 2#4, 3#4] ++ List.replicate 32 4#4
    | .readTemperature =>
      [1#4, 1#4, 2#4, 3#4] ++ List.replicate 32 4#4 ++ [1#4, 1#4, 2#4, 3#4] ++ List.replicate 32 4#4 ++
        List.replicate 48 5#4
    | .init => [6#4, 1#4, 1#4, 2#4, 3#4])

/-- 40_micro_ops.md R89: an idle tick changes nothing, whatever the two levels of the tick are. -/
def Obligations.IdleTickChangesNothing : Prop :=
  (∀ (s : State) (dq : Level) (ok : Bool) (rest : List Input), s.blk.busy = false → s.inputs = .tick dq ok :: rest →
    step s = .next { s with inputs := rest, now := s.now + 1 }) ∧
  (∀ s : State, s.blk.busy = false → s.inputs = [] → step s = .next { s with now := s.now + 1 })

/-! ### Micro-operations -/

/-- 40_micro_ops.md R82 with R90 and R91: one tick of `DRV(l, n)`, in every command that has one. -/
def Obligations.DriveTick : Prop :=
  ∀ (i : Instr) (s : State) (e : Entry) (l : Level) (n : Nat),
    (expand i)[s.blk.upc]? = some e → e.op = .drv l n →
    exec i s = .next { s with
      now := s.now + 1
      inputs := s.inputsAfterTick
      blk :=
        if s.blk.cnt + 1 = n then advanced i { s.blk with oe := .output, out := l }
        else { s.blk with oe := .output, out := l, cnt := s.blk.cnt + 1 } }

/-- 40_micro_ops.md R83 with R90 and R91: one tick of `RLS(n)`; the line is not read. -/
def Obligations.ReleaseTick : Prop :=
  ∀ (i : Instr) (s : State) (e : Entry) (n : Nat),
    (expand i)[s.blk.upc]? = some e → e.op = .rls n →
    exec i s = .next { s with
      now := s.now + 1
      inputs := s.inputsAfterTick
      blk :=
        if s.blk.cnt + 1 = n then advanced i { s.blk with oe := .input }
        else { s.blk with oe := .input, cnt := s.blk.cnt + 1 } }

/-- 40_micro_ops.md R84 with R90 and R91: one tick of `SMP(n, j)`: on the last tick the line goes to `SHR[j]` and no
other bit of `SHR` changes. -/
def Obligations.SampleTick : Prop :=
  ∀ (i : Instr) (s : State) (e : Entry) (n : Nat) (j : Fin 16),
    (expand i)[s.blk.upc]? = some e → e.op = .smp n j →
    ∃ v : Half, (∀ k : Nat, k < 16 → v.getLsbD k = if k = j.val then decide (s.dqIn = .high) else s.blk.shr.getLsbD k) ∧
      exec i s = .next { s with
        now := s.now + 1
        inputs := s.inputsAfterTick
        blk :=
          if s.blk.cnt + 1 = n then advanced i { s.blk with oe := .input, shr := v }
          else { s.blk with oe := .input, cnt := s.blk.cnt + 1 } }

/-- 40_micro_ops.md R85 and R86 with R90, R91 and 60_exceptions.md R152: one tick of `WAITL` and of `WAITH`. -/
def Obligations.WaitTick : Prop :=
  ∀ (i : Instr) (s : State) (e : Entry) (want : Level) (m : Nat) (c : ErrCode),
    (expand i)[s.blk.upc]? = some e →
    (want = .low ∧ e.op = .waitL m c ∨ want = .high ∧ e.op = .waitH m c) →
    exec i s = .next { s with
      now := s.now + 1
      inputs := s.inputsAfterTick
      blk :=
        if s.dqIn = want then advanced i { s.blk with oe := .input }
        else if s.blk.cnt + 1 = m then
          { s.blk with oe := .input, err := c, busy := false, done := true, upc := 0, cnt := 0 }
        else { s.blk with oe := .input, cnt := s.blk.cnt + 1 } }

/-- 40_micro_ops.md R87 with R90, R91 and 60_exceptions.md R152: the one tick of `CFG`. -/
def Obligations.ConfigureTick : Prop :=
  ∀ (i : Instr) (s : State) (e : Entry), (expand i)[s.blk.upc]? = some e → e.op = .cfg →
    exec i s = .next { s with
      now := s.now + 1
      inputs := s.inputsAfterTick
      blk :=
        if s.gpioClkOk then advanced i { s.blk with clken := true, pu := true, oe := .output, out := .high }
        else { s.blk with clken := true, err := .configurationError, busy := false, done := true, upc := 0, cnt := 0 } }

/-! ### Where each command completes -/

/-- 40_micro_ops.md R91 for the commands whose last micro-operation drives high: on its last tick `RESET`,
`WRITE_BYTE`, `SKIP_ROM` and `START_CONVERSION` complete, with no result register and the pin driving high. -/
def Obligations.DrivingCommandsComplete : Prop :=
  ∀ s : State,
    (s.blk.upc = 1 → s.blk.cnt = 14 → exec .reset s = .next (s.endTick
      { s.blk with oe := .output, out := .high, busy := false, done := true, upc := 0, cnt := 0 })) ∧
    (∀ v : Byte, s.blk.upc = 15 → (s.blk.cnt = if v.getLsbD 7 then 57 else 1) → exec (.writeByte v) s = .next (s.endTick
      { s.blk with oe := .output, out := .high, busy := false, done := true, upc := 0, cnt := 0 })) ∧
    (s.blk.upc = 19 → s.blk.cnt = 57 → exec .skipRom s = .next (s.endTick
      { s.blk with oe := .output, out := .high, busy := false, done := true, upc := 0, cnt := 0 })) ∧
    (s.blk.upc = 35 → s.blk.cnt = 1 → exec .startConversion s = .next (s.endTick
      { s.blk with oe := .output, out := .high, busy := false, done := true, upc := 0, cnt := 0 }))

/-- 40_micro_ops.md R91 for `CHECK_PRESENCE` and `INIT`, which complete on the first high tick of `WAITH`, and for
`CONFIGURE`, which completes on its one tick if the GPIO clock is ready. -/
def Obligations.ConfigAndPresenceCommandsComplete : Prop :=
  ∀ s : State,
    (s.blk.upc = 1 → s.dqIn = .high → exec .checkPresence s = .next (s.endTick
      { s.blk with oe := .input, busy := false, done := true, upc := 0, cnt := 0 })) ∧
    (s.blk.upc = 4 → s.dqIn = .high → exec .init s = .next (s.endTick
      { s.blk with oe := .input, busy := false, done := true, upc := 0, cnt := 0 })) ∧
    (s.blk.upc = 0 → s.gpioClkOk = true → exec .configure s = .next (s.endTick
      { s.blk with clken := true, pu := true, oe := .output, out := .high, busy := false, done := true, upc := 0
                   cnt := 0 }))

/-- 40_micro_ops.md R91 for the reading commands, which complete on the last of the 45 ticks of `RLS` of their last
slot and write their result register. -/
def Obligations.ReadingCommandsComplete : Prop :=
  ∀ s : State,
    (s.blk.upc = 2 → s.blk.cnt = 44 → exec .readBit s = .next (s.endTick
      { s.blk with oe := .input, data := (if s.blk.shr.getLsbD 0 then 0x01#8 else 0x00#8), busy := false, done := true
                   upc := 0, cnt := 0 })) ∧
    (s.blk.upc = 23 → s.blk.cnt = 44 → exec .readByte s = .next (s.endTick
      { s.blk with oe := .input, data := s.blk.shr.extractLsb' 0 8, busy := false, done := true, upc := 0, cnt := 0 })) ∧
    (s.blk.upc = 119 → s.blk.cnt = 44 → exec .readTemperature s = .next (s.endTick
      { s.blk with oe := .input, raw := s.blk.shr, busy := false, done := true, upc := 0, cnt := 0 }))

/-- 10_state.md R15: how the position `(UPC, CNT)` moves, over every step: an accept sets both to 0; a tick of the
command in progress that ends its micro-operation adds 1 to `UPC` and clears `CNT`, or after the last entry completes
and clears both; one that aborts clears both; any other adds 1 to `CNT`; `rst_n` low clears both
(70_reset_and_hazards.md R175); every other step leaves both. Which of these a tick does follows from the entry's
`ticks`, and for the waits and `CFG` from the input read (`endsOnTick`, `failsOnTick`). -/
def Obligations.SequencerPositionMoves : Prop :=
  (∀ (s t : State) (v : Word) (rest : List Input),
    s.inputs = .regWrite 0#3 v :: rest → s.rstN = .high → s.blk.busy = false → Legal v = true → step s = .next t →
    t.blk.busy = true ∧ t.blk.upc = 0 ∧ t.blk.cnt = 0) ∧
  (∀ (s t : State) (rest : List Input), s.inputs = .rstN .low :: rest → step s = .next t →
    t.blk.busy = false ∧ t.blk.upc = 0 ∧ t.blk.cnt = 0) ∧
  (∀ s t : State, s.nextIsTick = true → s.rstN = .high → s.blk.busy = true → step s = .next t →
    ∃ (i : Instr) (e : Entry), decode s.blk.cmd = .ok i ∧ (expand i)[s.blk.upc]? = some e ∧
      (if e.op.endsOnTick s.blk.cnt s.dqIn s.gpioClkOk then
        if s.blk.upc + 1 = (expand i).length then t.blk.busy = false ∧ t.blk.upc = 0 ∧ t.blk.cnt = 0
        else t.blk.busy = true ∧ t.blk.upc = s.blk.upc + 1 ∧ t.blk.cnt = 0
      else if e.op.failsOnTick s.blk.cnt s.dqIn s.gpioClkOk then
        t.blk.busy = false ∧ t.blk.upc = 0 ∧ t.blk.cnt = 0
      else t.blk.busy = true ∧ t.blk.upc = s.blk.upc ∧ t.blk.cnt = s.blk.cnt + 1)) ∧
  (∀ s t : State, step s = .next t →
    ¬(∃ v rest, s.inputs = .regWrite 0#3 v :: rest ∧ s.rstN = .high ∧ s.blk.busy = false ∧ Legal v = true) →
    ¬(∃ rest, s.inputs = .rstN .low :: rest) →
    ¬(s.nextIsTick = true ∧ s.rstN = .high ∧ s.blk.busy = true) →
    t.blk.upc = s.blk.upc ∧ t.blk.cnt = s.blk.cnt)

/-! ### Frames -/

/-- The frame of `RESET` and `WRITE_BYTE` (41_bus_primitives.md R101 and R103, "Writes" and "Errors"): one tick
changes only `OE`, `OUT`, the position, and at the end `BUSY` and `DONE`; every host register but `STATUS` reads as
before. -/
def Obligations.FrameOfDrivingCommands : Prop :=
  ∀ (i : Instr) (s t : State), (i = .reset ∨ ∃ v, i = .writeByte v) → exec i s = .next t →
    t = { s with
      now := s.now + 1
      inputs := s.inputsAfterTick
      blk := { s.blk with oe := t.blk.oe, out := t.blk.out, upc := t.blk.upc, cnt := t.blk.cnt, busy := t.blk.busy,
                          done := t.blk.done } } ∧
    (t.blk.busy = s.blk.busy ∧ t.blk.done = s.blk.done ∨ t.blk.busy = false ∧ t.blk.done = true) ∧
    ∀ a : RegIndex, a ≠ 1#3 → t.blk.regRead a = s.blk.regRead a

/-- The frame of `CHECK_PRESENCE`, `SKIP_ROM` and `START_CONVERSION` (41_bus_primitives.md R102,
42_sensor_sequences.md R120 and R121): as for `RESET`, and `ERR` at an abort. -/
def Obligations.FrameOfPresenceCommands : Prop :=
  ∀ (i : Instr) (s t : State), (i = .checkPresence ∨ i = .skipRom ∨ i = .startConversion) → exec i s = .next t →
    t = { s with
      now := s.now + 1
      inputs := s.inputsAfterTick
      blk := { s.blk with oe := t.blk.oe, out := t.blk.out, upc := t.blk.upc, cnt := t.blk.cnt, busy := t.blk.busy,
                          done := t.blk.done, err := t.blk.err } } ∧
    (t.blk.busy = s.blk.busy ∧ t.blk.done = s.blk.done ∧ t.blk.err = s.blk.err ∨
      t.blk.busy = false ∧ t.blk.done = true) ∧
    ∀ a : RegIndex, a ≠ 1#3 → t.blk.regRead a = s.blk.regRead a

/-- The frame of `CONFIGURE` and `INIT` (41_bus_primitives.md R100, 42_sensor_sequences.md R123): the pin latches, the
clock request, the position, the flags and `ERR`; every host register but `STATUS` reads as before. -/
def Obligations.FrameOfConfigCommands : Prop :=
  ∀ (i : Instr) (s t : State), (i = .configure ∨ i = .init) → exec i s = .next t →
    t = { s with
      now := s.now + 1
      inputs := s.inputsAfterTick
      blk := { s.blk with oe := t.blk.oe, out := t.blk.out, pu := t.blk.pu, clken := t.blk.clken, upc := t.blk.upc,
                          cnt := t.blk.cnt, busy := t.blk.busy, done := t.blk.done, err := t.blk.err } } ∧
    (t.blk.busy = s.blk.busy ∧ t.blk.done = s.blk.done ∧ t.blk.err = s.blk.err ∨
      t.blk.busy = false ∧ t.blk.done = true) ∧
    (∀ a : RegIndex, a ≠ 1#3 → t.blk.regRead a = s.blk.regRead a) ∧
    (s.blk.pu = true → t.blk.pu = true) ∧ (s.blk.clken = true → t.blk.clken = true)

/-- The frame of `READ_BIT`, `READ_BYTE` (41_bus_primitives.md R104 and R105) and `READ_TEMPERATURE`
(42_sensor_sequences.md R122): the pin, `SHR`, the position and the flags; the result register at completion only,
`DATA` for the first two and `RAW` (and so `TEMP`) for the third; `ERR` for the third only. -/
def Obligations.FrameOfReadingCommands : Prop :=
  (∀ (i : Instr) (s t : State), (i = .readBit ∨ i = .readByte) → exec i s = .next t →
    t = { s with
      now := s.now + 1
      inputs := s.inputsAfterTick
      blk := { s.blk with oe := t.blk.oe, out := t.blk.out, shr := t.blk.shr, data := t.blk.data, upc := t.blk.upc,
                          cnt := t.blk.cnt, busy := t.blk.busy, done := t.blk.done } } ∧
    (t.blk.busy = s.blk.busy ∧ t.blk.done = s.blk.done ∧ t.blk.data = s.blk.data ∨
      t.blk.busy = false ∧ t.blk.done = true) ∧
    (∀ a : RegIndex, a ≠ 1#3 → a ≠ 2#3 → t.blk.regRead a = s.blk.regRead a)) ∧
  (∀ s t : State, exec .readTemperature s = .next t →
    t = { s with
      now := s.now + 1
      inputs := s.inputsAfterTick
      blk := { s.blk with oe := t.blk.oe, out := t.blk.out, shr := t.blk.shr, raw := t.blk.raw, upc := t.blk.upc,
                          cnt := t.blk.cnt, busy := t.blk.busy, done := t.blk.done, err := t.blk.err } } ∧
    (t.blk.busy = s.blk.busy ∧ t.blk.done = s.blk.done ∧ t.blk.err = s.blk.err ∧ t.blk.raw = s.blk.raw ∨
      t.blk.busy = false ∧ t.blk.done = true) ∧
    (∀ a : RegIndex, a ≠ 1#3 → a ≠ 3#3 → a ≠ 4#3 → t.blk.regRead a = s.blk.regRead a))

/-! ### Errors -/

/-- 60_exceptions.md R152: a tick that sets `ERR` is an abort: the block goes idle with `DONE = 1` at position
`(0, 0)`; `DATA`, `RAW` (and so `TEMP`), `SHR`, `CMD`, `OVR` are unchanged; for a presence error the pin is in input
mode and `OUT`, `PU`, `CLKEN` are unchanged, for a configuration error `CLKEN = 1` and `OE`, `OUT`, `PU` are
unchanged. -/
def Obligations.AbortEndsCommandAndWritesNoResult : Prop :=
  ∀ (i : Instr) (s t : State), exec i s = .next t → t.blk.err ≠ s.blk.err →
    ∃ c : ErrCode, c = t.blk.err ∧
      ((c = .noDevicePresent ∨ c = .presencePulseInvalid) ∧
          t.blk = { s.blk with err := c, busy := false, done := true, upc := 0, cnt := 0, oe := .input } ∨
        c = .configurationError ∧
          t.blk = { s.blk with err := c, busy := false, done := true, upc := 0, cnt := 0, clken := true })

/-- 60_exceptions.md R150: which command can raise which code, which never fail, and the numbers of the codes. -/
def Obligations.ErrorCodesByCommand : Prop :=
  (∀ (i : Instr) (s t : State), exec i s = .next t → t.blk.err ≠ s.blk.err →
    (t.blk.err = .configurationError → (i = .configure ∨ i = .init) ∧ s.gpioClkOk = false ∧ t.blk.clken = true) ∧
    (t.blk.err = .noDevicePresent ∨ t.blk.err = .presencePulseInvalid →
      (i = .checkPresence ∨ i = .skipRom ∨ i = .startConversion ∨ i = .readTemperature ∨ i = .init) ∧
        t.blk.oe = .input) ∧
    (t.blk.err = .noDevicePresent → s.dqIn = .high ∧ s.blk.cnt = 99) ∧
    (t.blk.err = .presencePulseInvalid → s.dqIn = .low ∧ s.blk.cnt = 239) ∧
    t.blk.err ≠ .illegalCommand ∧ t.blk.err ≠ .ok ∧
    i ≠ .reset ∧ (∀ v, i ≠ .writeByte v) ∧ i ≠ .readBit ∧ i ≠ .readByte) ∧
  ErrCode.ok.code = 0#3 ∧ ErrCode.configurationError.code = 1#3 ∧ ErrCode.noDevicePresent.code = 2#3 ∧
  ErrCode.presencePulseInvalid.code = 3#3 ∧ ErrCode.illegalCommand.code = 4#3

/-! ### Invariants -/

/-- The invariant holds right after reset, and in every state from which a run begins, whatever the outside world will
do. -/
def Obligations.InvariantHoldsAtReset : Prop := Inv State.reset ∧ ∀ s : State, Initial s → Inv s

/-- 10_state.md R30 and R31 with the rest of `Inv`: every step keeps it, from every state that meets it. -/
def Obligations.EveryStepKeepsInvariant : Prop := ∀ s t : State, Inv s → step s = .next t → Inv t

/-- 60_exceptions.md R151: the block never halts. The model's two faults belong to states outside the invariant. -/
def Obligations.NoStepStopsUnderInvariant : Prop := ∀ s : State, Inv s → ∃ t, step s = .next t

/-- 10_state.md R14: `UPC` is at most 119 and `CNT` at most 749 in every state of a run, and the longest list has 120
entries. -/
def Obligations.PositionStaysInBounds : Prop :=
  (∀ s t : State, Initial s → Reaches s t → t.blk.upc ≤ 119 ∧ t.blk.cnt ≤ 749) ∧
  (∀ i : Instr, (expand i).length ≤ 120) ∧ (expand .readTemperature).length = 120

/-- 70_reset_and_hazards.md R190 and 60_exceptions.md R151: a command in progress ends within 5410 ticks, whatever the
line and the GPIO clock do. -/
def Obligations.CommandEndsWithinBound : Prop :=
  ∀ s : State, Inv s → s.rstN = .high → s.blk.busy = true → onlyTicks s.inputs = true →
    ∃ n t, n ≤ 5410 ∧ CommandTakes n s t ∧ t.blk.done = true

/-- 30_encoding.md R76: `WAIT` ends with the block idle and with a read of `STATUS` that shows `BUSY = 0`. That its loop
has at most 5410 turns is the model's choice, log entry 20, and what it does where a reset or a host access is pending
is log entry 21; the premise leaves ticks alone to come. -/
def Obligations.WaitStatementEnds : Prop :=
  ∀ s : State, Inv s → s.rstN = .high → onlyTicks s.inputs = true →
    ∃ t, HostStmt.wait.run s = .next t ∧ t.blk.busy = false ∧ t.rdata = some t.blk.status ∧
      t.blk.status.getLsbD 0 = false

/-! ### What changes each register, over every step -/

/-- 10_state.md R11: the completion of `READ_BIT` and `READ_BYTE` writes `DATA` with their result, in the step that
clears `BUSY`, and nothing else changes it but hardware reset, which clears it (70_reset_and_hazards.md R175). -/
def Obligations.DataWrittenOnlyByReadCompletion : Prop :=
  (∀ s t : State, step s = .next t → t.blk.data ≠ s.blk.data →
    (s.nextIsTick = true ∧ s.rstN = .high ∧ s.blk.busy = true ∧ t.blk.busy = false ∧
      (decode s.blk.cmd = .ok .readBit ∧ t.blk.data = (if s.blk.shr.getLsbD 0 then 0x01#8 else 0x00#8) ∨
        decode s.blk.cmd = .ok .readByte ∧ t.blk.data = s.blk.shr.extractLsb' 0 8)) ∨
    (t.rstN = .low ∧ t.blk.data = 0x00#8)) ∧
  (∀ s t : State, step s = .next t → s.nextIsTick = true → s.blk.busy = true → t.blk.busy = false →
    (decode s.blk.cmd = .ok .readBit → t.blk.data = if s.blk.shr.getLsbD 0 then 0x01#8 else 0x00#8) ∧
    (decode s.blk.cmd = .ok .readByte → t.blk.data = s.blk.shr.extractLsb' 0 8)) ∧
  (∀ b : Block, b.regRead 2#3 = 0#24 ++ b.data) ∧ Block.reset.data = 0x00#8

/-- 10_state.md R12: `RAW` is written only by the completion of `READ_TEMPERATURE` and by a host write to index 3
while idle; hardware reset clears it; it reads zero-extended. -/
def Obligations.RawWrittenOnlyByReadTemperatureOrHost : Prop :=
  (∀ s t : State, step s = .next t → t.blk.raw ≠ s.blk.raw →
    (s.nextIsTick = true ∧ s.rstN = .high ∧ s.blk.busy = true ∧ t.blk.busy = false ∧ t.blk.err = s.blk.err ∧
      decode s.blk.cmd = .ok .readTemperature ∧ t.blk.raw = s.blk.shr) ∨
    (s.blk.busy = false ∧ ∃ v rest, s.inputs = .regWrite 3#3 v :: rest ∧ t.blk.raw = v.extractLsb' 0 16) ∨
    (t.rstN = .low ∧ t.blk.raw = 0x0000#16)) ∧
  (∀ b : Block, b.regRead 3#3 = 0#16 ++ b.raw) ∧ Block.reset.raw = 0x0000#16

/-- 10_state.md R13 and 40_micro_ops.md R84: `SHR` is cleared at accept; the last tick of `SMP(n, j)`, the entry in
progress, writes the level of the line to bit `j` and to no other; nothing else but hardware reset changes it. -/
def Obligations.ShiftRegisterWrites : Prop :=
  (∀ s t : State, step s = .next t → t.blk.shr ≠ s.blk.shr →
    (s.nextIsTick = true ∧ s.rstN = .high ∧ s.blk.busy = true ∧ s.readsLine = true ∧
      ∃ (e : Entry) (n : Nat) (j : Fin 16), s.blk.entry = some e ∧ e.op = .smp n j ∧ s.blk.cnt + 1 = n ∧
        ∀ k : Nat, t.blk.shr.getLsbD k = if k = j.val then decide (s.dqIn = .high) else s.blk.shr.getLsbD k) ∨
    (s.blk.busy = false ∧ t.blk.busy = true ∧ t.blk.shr = 0x0000#16) ∨
    (t.rstN = .low ∧ t.blk.shr = 0x0000#16)) ∧
  (∀ (s t : State) (e : Entry) (n : Nat) (j : Fin 16), s.nextIsTick = true → s.rstN = .high → s.blk.entry = some e →
    e.op = .smp n j → s.blk.cnt + 1 = n → step s = .next t →
    ∀ k : Nat, t.blk.shr.getLsbD k = if k = j.val then decide (s.dqIn = .high) else s.blk.shr.getLsbD k) ∧
  (∀ s t : State, step s = .next t → s.blk.busy = false → t.blk.busy = true → t.blk.shr = 0x0000#16) ∧
  Block.reset.shr = 0x0000#16

/-- 10_state.md R20: `OVR` is set exactly when a host write to `CMD` or `RAW` arrives while busy, and nothing but
hardware reset clears it. -/
def Obligations.OverrunFlagIsSticky : Prop :=
  (∀ s t : State, Inv s → step s = .next t → s.blk.ovr = false →
    (t.blk.ovr = true ↔
      s.blk.busy = true ∧ ∃ a v rest, (a = 0#3 ∨ a = 3#3) ∧ s.inputs = .regWrite a v :: rest)) ∧
  (∀ s t : State, step s = .next t → s.blk.ovr = true → t.blk.ovr = false → t.rstN = .low) ∧
  (∀ s t : State, step s = .next t → t.rstN = .low → s.rstN = .high → t.blk.ovr = false) ∧
  Block.reset.ovr = false

/-- 10_state.md R21: `CMD` changes only by an accepted write, to the word written, and by hardware reset. -/
def Obligations.CmdHoldsLastAcceptedWord : Prop :=
  (∀ s t : State, step s = .next t → t.blk.cmd ≠ s.blk.cmd →
    (s.blk.busy = false ∧ ∃ v rest, s.inputs = .regWrite 0#3 v :: rest ∧ Legal v = true ∧ t.blk.cmd = v) ∨
    (t.rstN = .low ∧ t.blk.cmd = 0x00000000#32)) ∧
  (∀ s t : State, step s = .next t → s.blk.busy = false → t.blk.busy = true →
    ∃ v rest, s.inputs = .regWrite 0#3 v :: rest ∧ Legal v = true ∧ t.blk.cmd = v) ∧
  (∀ b : Block, b.regRead 0#3 = b.cmd) ∧ Block.reset.cmd = 0x00000000#32 ∧ Legal Block.reset.cmd = false

/-- 10_state.md R24 and R25: `PU` is set by a successful `CFG`, `CLKEN` by every `CFG`, and only hardware reset clears
either. -/
def Obligations.PullUpAndClockRequestAreSticky : Prop :=
  (∀ s t : State, step s = .next t → s.blk.pu = true → t.blk.pu = false → t.rstN = .low) ∧
  (∀ s t : State, step s = .next t → s.blk.clken = true → t.blk.clken = false → t.rstN = .low) ∧
  (∀ s t : State, step s = .next t → s.blk.clken = false → t.blk.clken = true → s.readsClock = true) ∧
  (∀ s t : State, step s = .next t → s.blk.pu = false → t.blk.pu = true →
    s.readsClock = true ∧ s.gpioClkOk = true) ∧
  (∀ s t : State, step s = .next t → s.readsClock = true →
    t.blk.clken = true ∧ (s.gpioClkOk = true → t.blk.pu = true)) ∧
  (∀ b : Block, b.ports.dqPu = b.pu ∧ b.ports.gpioClkEn = b.clken) ∧
  Block.reset.pu = false ∧ Block.reset.clken = false

/-- 10_state.md R23 and 20_memory.md R48: the pin latches are written only on a tick of a command in progress (or by
hardware reset), hold while idle, `OUT` keeps its value on every tick that leaves the pin in input mode, and the ports
show them. -/
def Obligations.PinLatchesWrittenOnlyBySequencer : Prop :=
  (∀ s t : State, step s = .next t → (t.blk.oe ≠ s.blk.oe ∨ t.blk.out ≠ s.blk.out) →
    (s.nextIsTick = true ∧ s.rstN = .high ∧ s.blk.busy = true) ∨
    (t.rstN = .low ∧ t.blk.oe = .input ∧ t.blk.out = .high)) ∧
  (∀ s t : State, step s = .next t → t.rstN = .high → t.blk.oe = .input → t.blk.out = s.blk.out) ∧
  (∀ b : Block, b.ports.dqOe = (b.oe == .output) ∧ b.ports.dqOut = (b.out == .high)) ∧
  Block.reset.oe = .input ∧ Block.reset.out = .high

/-- 10_state.md R17, R18 and R19: what sets and clears `BUSY`, `DONE` and `ERR`. -/
def Obligations.BusyDoneErrChange : Prop :=
  (∀ s t : State, step s = .next t → s.blk.busy = false → t.blk.busy = true →
    (∃ v rest, s.inputs = .regWrite 0#3 v :: rest ∧ Legal v = true) ∧ t.blk.done = false ∧ t.blk.err = .ok) ∧
  (∀ s t : State, step s = .next t → s.blk.busy = true → t.blk.busy = false →
    (s.nextIsTick = true ∧ t.blk.done = true) ∨ t.rstN = .low) ∧
  (∀ s t : State, step s = .next t → s.blk.done = false → t.blk.done = true →
    (s.blk.busy = true ∧ t.blk.busy = false ∧ s.nextIsTick = true) ∨
    (s.blk.busy = false ∧ t.blk.err = .illegalCommand ∧
      ∃ v rest, s.inputs = .regWrite 0#3 v :: rest ∧ Legal v = false)) ∧
  (∀ s t : State, step s = .next t → s.blk.done = true → t.blk.done = false →
    (s.blk.busy = false ∧ t.blk.busy = true) ∨ t.rstN = .low) ∧
  (∀ s t : State, step s = .next t → t.blk.err ≠ s.blk.err →
    (s.blk.busy = false ∧ t.blk.busy = true ∧ t.blk.err = .ok) ∨
    (s.blk.busy = true ∧ t.blk.busy = false ∧ t.blk.err ≠ .ok ∧ t.blk.err ≠ .illegalCommand) ∨
    (s.blk.busy = false ∧ t.blk.busy = false ∧ t.blk.done = true ∧ t.blk.err = .illegalCommand) ∨
    t.rstN = .low)

/-! ### The line -/

/-- 20_memory.md R47: a step that reads the line leaves the pin in input mode for that tick, and a step that does not
read it has the same outcome whatever the level is; likewise for the clock-ready input. -/
def Obligations.InputsReadOnlyOnNamedTicks : Prop :=
  (∀ s t : State, s.readsLine = true → step s = .next t → t.blk.oe = .input) ∧
  (∀ (s : State) (dq dq' : Level) (ok : Bool) (rest : List Input), s.inputs = .tick dq ok :: rest → s.readsLine = false →
    step s = step { s with inputs := .tick dq' ok :: rest }) ∧
  (∀ (s : State) (dq : Level) (ok ok' : Bool) (rest : List Input), s.inputs = .tick dq ok :: rest → s.readsClock = false →
    step s = step { s with inputs := .tick dq ok' :: rest })

/-- 40_micro_ops.md R95: but for `WAITL` and `WAITH`, the line never changes what the pin does, how the sequencer
moves, or whether the command ends: two ticks that differ in the level of the line alone leave blocks that differ in
`SHR`, and so in `DATA` and `RAW`, alone. -/
def Obligations.WaveformIndependentOfSamples : Prop :=
  ∀ (s t t' : State) (dq dq' : Level) (ok : Bool) (rest : List Input) (e : Entry),
    s.inputs = .tick dq ok :: rest → s.blk.entry = some e → (∀ m c, e.op ≠ .waitL m c) → (∀ m c, e.op ≠ .waitH m c) →
    step s = .next t → step { s with inputs := .tick dq' ok :: rest } = .next t' →
    t' = { t with blk := { t.blk with shr := t'.blk.shr, data := t'.blk.data, raw := t'.blk.raw } }

/-- 10_state.md R33: a command's waveform, its ticks, its `ERR` code and the value it writes depend on the command and
on the inputs during it alone. Two states in which the same command has just been accepted, whatever else they hold,
go through the same waveform and the same `BUSY`, `ERR` and position, and end with the same result; for `CONFIGURE`
and `INIT` where the clock is ready on the first tick, the exception R33 makes. -/
def Obligations.CommandsAreStateless : Prop :=
  ∀ (i : Instr) (s s' : State) (env : List (Level × Bool)) (rest rest' : List Input) (n : Nat),
    Accepted i s → Accepted i s' → s.inputs = tickInputs env ++ rest → s'.inputs = tickInputs env ++ rest' →
    n ≤ env.length → ((i = .configure ∨ i = .init) → ∃ dq, env.head? = some (dq, true)) →
    waveform n s = waveform n s' ∧
    ∃ t t', stepMany n s = .next t ∧ stepMany n s' = .next t' ∧ t.blk.busy = t'.blk.busy ∧ t.blk.err = t'.blk.err ∧
      t.blk.upc = t'.blk.upc ∧ t.blk.cnt = t'.blk.cnt ∧
      (t.blk.busy = false → (i = .readBit ∨ i = .readByte) → t.blk.data = t'.blk.data) ∧
      (t.blk.busy = false → i = .readTemperature → t.blk.err = .ok → t.blk.raw = t'.blk.raw)

/-! ### Whole commands

In each, the command has just been accepted, `OVR = 0` (93_implementation_defined.md U1 asks for that premise), and
the next events are the ticks `env`, whose levels are free but for what the statement says of them. -/

/-- 41_bus_primitives.md R101: `RESET` puts `L750 H15` on the pin, takes 765 ticks, and ends driving high with
`ERR = 0`, whatever the line does. -/
def Obligations.ResetCommandRun : Prop :=
  decode 0x00000002#32 = .ok .reset ∧ (expand .reset).map Entry.op = [.drv .low 750, .drv .high 15] ∧
  ∀ (s : State) (env : List (Level × Bool)) (rest : List Input),
    Accepted .reset s → s.blk.ovr = false → s.inputs = tickInputs env ++ rest → env.length = 765 →
    waveform 765 s = wave [(.low, 750), (.high, 15)] ∧
    CommandTakes 765 s { s with
      inputs := rest
      now := s.now + 765
      blk := { s.blk with oe := .output, out := .high, busy := false, done := true, upc := 0, cnt := 0 } }

/-- 41_bus_primitives.md R102: `CHECK_PRESENCE`. Success after `k + m + 2` ticks; `NoDevicePresent` after 100;
`PresencePulseInvalid` after `k + 241`. The pin is in input mode throughout and afterwards. -/
def Obligations.CheckPresenceCommandRun : Prop :=
  decode 0x00000003#32 = .ok .checkPresence ∧
  (expand .checkPresence).map Entry.op = [.waitL 100 .noDevicePresent, .waitH 240 .presencePulseInvalid] ∧
  ∀ (s : State) (env : List (Level × Bool)) (rest : List Input) (k m : Nat),
    Accepted .checkPresence s → s.blk.ovr = false → s.inputs = tickInputs env ++ rest → k ≤ 99 → m ≤ 239 →
    (env.map Prod.fst = pulseLine k m →
      waveform (k + m + 2) s = wave [(.released, k + m + 2)] ∧
      CommandTakes (k + m + 2) s { s with
        inputs := rest
        now := s.now + (k + m + 2)
        blk := { s.blk with oe := .input, busy := false, done := true, upc := 0, cnt := 0 } }) ∧
    (env.map Prod.fst = absentLine →
      waveform 100 s = wave [(.released, 100)] ∧
      CommandTakes 100 s { s with
        inputs := rest
        now := s.now + 100
        blk := { s.blk with oe := .input, err := .noDevicePresent, busy := false, done := true, upc := 0, cnt := 0 } }) ∧
    (env.map Prod.fst = stuckLine k →
      waveform (k + 241) s = wave [(.released, k + 241)] ∧
      CommandTakes (k + 241) s { s with
        inputs := rest
        now := s.now + (k + 241)
        blk := { s.blk with oe := .input, err := .presencePulseInvalid, busy := false, done := true, upc := 0,
                            cnt := 0 } })

/-- 41_bus_primitives.md R103 and 30_encoding.md R68, R69, R72: `WRITE_BYTE v` sends eight write slots, bit 0 first,
in `68 * ones(v) + 72 * (8 - ones(v))` ticks, whatever the line does, and ends driving high with no result. -/
def Obligations.WriteByteCommandRun : Prop :=
  ∀ (v : Byte) (s : State) (env : List (Level × Bool)) (rest : List Input) (n : Nat),
    decode (0x0000#16 ++ v ++ 0x04#8) = .ok (.writeByte v) ∧
    (expand (.writeByte v)).map Entry.op = (byteBits v).flatMap (fun bit =>
      if bit then [.drv .low 10, .drv .high 58] else [.drv .low 70, .drv .high 2]) ∧
    (Accepted (.writeByte v) s → s.blk.ovr = false → s.inputs = tickInputs env ++ rest →
    n = 68 * ones v + 72 * (8 - ones v) → env.length = n →
    waveform n s = byteWave v ∧ 544 ≤ n ∧ n ≤ 576 ∧
    CommandTakes n s { s with
      inputs := rest
      now := s.now + n
      blk := { s.blk with oe := .output, out := .high, busy := false, done := true, upc := 0, cnt := 0 } })

/-- 41_bus_primitives.md R104 and 30_encoding.md R70: `READ_BIT` puts `L10 Z50` on the pin in 60 ticks, and `DATA` is
the level of the line on tick 14, zero-extended. -/
def Obligations.ReadBitCommandRun : Prop :=
  decode 0x00000005#32 = .ok .readBit ∧ (expand .readBit).map Entry.op = [.drv .low 10, .smp 5 0, .rls 45] ∧
  ∀ (s : State) (env : List (Level × Bool)) (rest : List Input) (dq : Level) (ok : Bool),
    Accepted .readBit s → s.blk.ovr = false → s.inputs = tickInputs env ++ rest → env.length = 60 →
    env[14]? = some (dq, ok) →
    waveform 60 s = wave [(.low, 10), (.released, 50)] ∧
    CommandTakes 60 s { s with
      inputs := rest
      now := s.now + 60
      blk := { s.blk with oe := .input, out := .low, shr := (if dq = .high then 0x0001#16 else 0x0000#16),
                          data := (if dq = .high then 0x01#8 else 0x00#8), busy := false, done := true, upc := 0,
                          cnt := 0 } }

/-- 41_bus_primitives.md R105: `READ_BYTE` issues eight full read slots in 480 ticks, and bit `j` of `DATA` is the
level of the line on tick `60 * j + 14`. -/
def Obligations.ReadByteCommandRun : Prop :=
  decode 0x00000006#32 = .ok .readByte ∧
  (expand .readByte).map Entry.op = ([0, 1, 2, 3, 4, 5, 6, 7] : List (Fin 16)).flatMap (fun j =>
    [.drv .low 10, .smp 5 j, .rls 45]) ∧
  ∀ (s : State) (env : List (Level × Bool)) (rest : List Input),
    Accepted .readByte s → s.blk.ovr = false → s.inputs = tickInputs env ++ rest → env.length = 480 →
    waveform 480 s = (List.replicate 8 (wave [(.low, 10), (.released, 50)])).flatten ∧
    ∃ v : Byte, (∀ j, j < 8 → (env[60 * j + 14]?).map Prod.fst = some (if v.getLsbD j then Level.high else .low)) ∧
      CommandTakes 480 s { s with
        inputs := rest
        now := s.now + 480
        blk := { s.blk with oe := .input, out := .low, shr := 0#8 ++ v, data := v, busy := false, done := true,
                            upc := 0, cnt := 0 } }

/-- 42_sensor_sequences.md R123: `INIT`. With the clock ready on tick 0: `H1 L750 H15`, then the presence check, whose
outcome is in `ERR`; the pin ends in input mode with the pull-up enabled. With the clock not ready: it ends after one
tick, with the pin latches unchanged. -/
def Obligations.InitCommandRun : Prop :=
  decode 0x0000000A#32 = .ok .init ∧ expand .init = expand .configure ++ expand .reset ++ expand .checkPresence ∧
  (∀ (s : State) (env1 env2 : List (Level × Bool)) (rest : List Input) (dq : Level) (k m : Nat),
    Accepted .init s → s.blk.ovr = false → s.inputs = tickInputs (env1 ++ env2) ++ rest → env1.length = 766 →
    env1.head? = some (dq, true) → k ≤ 99 → m ≤ 239 →
    (env2.map Prod.fst = pulseLine k m →
      waveform (766 + (k + m + 2)) s = wave [(.high, 1), (.low, 750), (.high, 15), (.released, k + m + 2)] ∧
      CommandTakes (766 + (k + m + 2)) s { s with
        inputs := rest
        now := s.now + (766 + (k + m + 2))
        blk := { s.blk with clken := true, pu := true, oe := .input, out := .high, busy := false, done := true, upc := 0,
                            cnt := 0 } }) ∧
    (env2.map Prod.fst = absentLine →
      CommandTakes 866 s { s with
        inputs := rest
        now := s.now + 866
        blk := { s.blk with clken := true, pu := true, oe := .input, out := .high, err := .noDevicePresent, busy := false,
                            done := true, upc := 0, cnt := 0 } }) ∧
    (env2.map Prod.fst = stuckLine k →
      CommandTakes (766 + k + 241) s { s with
        inputs := rest
        now := s.now + (766 + k + 241)
        blk := { s.blk with clken := true, pu := true, oe := .input, out := .high, err := .presencePulseInvalid,
                            busy := false, done := true, upc := 0, cnt := 0 } })) ∧
  (∀ (s : State) (dq : Level) (rest : List Input),
    Accepted .init s → s.blk.ovr = false → s.inputs = .tick dq false :: rest →
    CommandTakes 1 s { s with
      inputs := rest
      now := s.now + 1
      blk := { s.blk with clken := true, err := .configurationError, busy := false, done := true, upc := 0, cnt := 0 } })

/-- 41_bus_primitives.md R100: `CONFIGURE` takes one tick: with the clock ready the pin is an output driving high with
the pull-up enabled; if it is not ready, `ConfigurationError`, with the pin latches unchanged. -/
def Obligations.ConfigureCommandRun : Prop :=
  decode 0x00000001#32 = .ok .configure ∧ (expand .configure).map Entry.op = [.cfg] ∧
  ∀ (s : State) (dq : Level) (ok : Bool) (rest : List Input),
    Accepted .configure s → s.blk.ovr = false → s.inputs = .tick dq ok :: rest →
    (ok = true → waveform 1 s = wave [(.high, 1)] ∧
      CommandTakes 1 s { s with
        inputs := rest
        now := s.now + 1
        blk := { s.blk with clken := true, pu := true, oe := .output, out := .high, busy := false, done := true, upc := 0,
                            cnt := 0 } }) ∧
    (ok = false →
      CommandTakes 1 s { s with
        inputs := rest
        now := s.now + 1
        blk := { s.blk with clken := true, err := .configurationError, busy := false, done := true, upc := 0,
                            cnt := 0 } })

/-- 42_sensor_sequences.md R120: `SKIP_ROM`: a reset pulse, a presence check and the byte `0xCC`, in
`1325 + k + m + 2` ticks; a presence failure ends it at once in input mode with the byte not sent. -/
def Obligations.SkipRomCommandRun : Prop :=
  decode 0x00000007#32 = .ok .skipRom ∧
  expand .skipRom = expand .reset ++ expand .checkPresence ++ expand (.writeByte 0xCC#8) ∧
  ∀ (s : State) (env1 env2 env3 : List (Level × Bool)) (rest : List Input) (k m : Nat),
    Accepted .skipRom s → s.blk.ovr = false → env1.length = 765 → k ≤ 99 → m ≤ 239 →
    (s.inputs = tickInputs (env1 ++ env2 ++ env3) ++ rest → env2.map Prod.fst = pulseLine k m → env3.length = 560 →
      waveform (1325 + (k + m + 2)) s =
        wave [(.low, 750), (.high, 15), (.released, k + m + 2), (.low, 70), (.high, 2), (.low, 70), (.high, 2), (.low, 10),
          (.high, 58), (.low, 10), (.high, 58), (.low, 70), (.high, 2), (.low, 70), (.high, 2), (.low, 10), (.high, 58),
          (.low, 10), (.high, 58)] ∧
      CommandTakes (1325 + (k + m + 2)) s { s with
        inputs := rest
        now := s.now + (1325 + (k + m + 2))
        blk := { s.blk with oe := .output, out := .high, busy := false, done := true, upc := 0, cnt := 0 } }) ∧
    (s.inputs = tickInputs (env1 ++ env2) ++ rest → env2.map Prod.fst = absentLine →
      waveform 865 s = wave [(.low, 750), (.high, 15), (.released, 100)] ∧
      CommandTakes 865 s { s with
        inputs := rest
        now := s.now + 865
        blk := { s.blk with oe := .input, out := .high, err := .noDevicePresent, busy := false, done := true, upc := 0,
                            cnt := 0 } }) ∧
    (s.inputs = tickInputs (env1 ++ env2) ++ rest → env2.map Prod.fst = stuckLine k →
      waveform (765 + k + 241) s = wave [(.low, 750), (.high, 15), (.released, k + 241)] ∧
      CommandTakes (765 + k + 241) s { s with
        inputs := rest
        now := s.now + (765 + k + 241)
        blk := { s.blk with oe := .input, out := .high, err := .presencePulseInvalid, busy := false, done := true,
                            upc := 0, cnt := 0 } })

/-- 42_sensor_sequences.md R121: `START_CONVERSION`: as `SKIP_ROM`, then the byte `0x44`, in `1893 + k + m + 2` ticks;
a presence failure ends it at once with neither byte sent. -/
def Obligations.StartConversionCommandRun : Prop :=
  decode 0x00000008#32 = .ok .startConversion ∧
  expand .startConversion =
    expand .reset ++ expand .checkPresence ++ expand (.writeByte 0xCC#8) ++ expand (.writeByte 0x44#8) ∧
  ∀ (s : State) (env1 env2 env3 : List (Level × Bool)) (rest : List Input) (k m : Nat),
    Accepted .startConversion s → s.blk.ovr = false → env1.length = 765 → k ≤ 99 → m ≤ 239 →
    (s.inputs = tickInputs (env1 ++ env2 ++ env3) ++ rest → env2.map Prod.fst = pulseLine k m → env3.length = 1128 →
      waveform (1893 + (k + m + 2)) s =
        wave [(.low, 750), (.high, 15), (.released, k + m + 2)] ++ byteWave 0xCC#8 ++ byteWave 0x44#8 ∧
      CommandTakes (1893 + (k + m + 2)) s { s with
        inputs := rest
        now := s.now + (1893 + (k + m + 2))
        blk := { s.blk with oe := .output, out := .high, busy := false, done := true, upc := 0, cnt := 0 } }) ∧
    (s.inputs = tickInputs (env1 ++ env2) ++ rest → env2.map Prod.fst = absentLine →
      waveform 865 s = wave [(.low, 750), (.high, 15), (.released, 100)] ∧
      CommandTakes 865 s { s with
        inputs := rest
        now := s.now + 865
        blk := { s.blk with oe := .input, out := .high, err := .noDevicePresent, busy := false, done := true, upc := 0,
                            cnt := 0 } }) ∧
    (s.inputs = tickInputs (env1 ++ env2) ++ rest → env2.map Prod.fst = stuckLine k →
      waveform (765 + k + 241) s = wave [(.low, 750), (.high, 15), (.released, k + 241)] ∧
      CommandTakes (765 + k + 241) s { s with
        inputs := rest
        now := s.now + (765 + k + 241)
        blk := { s.blk with oe := .input, out := .high, err := .presencePulseInvalid, busy := false, done := true,
                            upc := 0, cnt := 0 } })

/-- 42_sensor_sequences.md R122 on success: `READ_TEMPERATURE` takes `4730 + P1 + P2` ticks, and bit `j` of `RAW` is
the level of the line on the sample tick of read slot `j`, the ticks of `env5` being those of the 16 read slots. `TEMP`
reads the decoded sample, `DATA` is not written, and the pin ends in input mode. -/
def Obligations.ReadTemperatureCommandRun : Prop :=
  decode 0x00000009#32 = .ok .readTemperature ∧
  expand .readTemperature =
    expand .skipRom ++ expand (.writeByte 0x44#8) ++ expand .skipRom ++ expand (.writeByte 0xBE#8) ++
      ([0, 1, 2, 3, 4, 5, 6, 7, 8, 9, 10, 11, 12, 13, 14, 15] : List (Fin 16)).flatMap (rBit Config.timing) ∧
  ∀ (s : State) (env1 env2 env3 env4 env5 env6 : List (Level × Bool)) (rest : List Input) (k m k' m' : Nat),
    Accepted .readTemperature s → s.blk.ovr = false →
    s.inputs = tickInputs (env1 ++ env2 ++ env3 ++ env4 ++ env5 ++ env6) ++ rest →
    env1.length = 765 → env2.map Prod.fst = pulseLine k m → env3.length = 1893 →
    env4.map Prod.fst = pulseLine k' m' → env5.length = 1112 → env6.length = 960 →
    k ≤ 99 → m ≤ 239 → k' ≤ 99 → m' ≤ 239 →
    waveform (4730 + (k + m + 2) + (k' + m' + 2)) s =
      wave [(.low, 750), (.high, 15), (.released, k + m + 2)] ++ byteWave 0xCC#8 ++ byteWave 0x44#8 ++
      wave [(.low, 750), (.high, 15), (.released, k' + m' + 2)] ++ byteWave 0xCC#8 ++ byteWave 0xBE#8 ++
      (List.replicate 16 (wave [(.low, 10), (.released, 50)])).flatten ∧
    ∃ v : Half, (∀ j, j < 16 → (env6[60 * j + 14]?).map Prod.fst = some (if v.getLsbD j then Level.high else .low)) ∧
      CommandTakes (4730 + (k + m + 2) + (k' + m' + 2)) s { s with
        inputs := rest
        now := s.now + (4730 + (k + m + 2) + (k' + m' + 2))
        blk := { s.blk with oe := .input, out := .low, shr := v, raw := v, busy := false, done := true, upc := 0,
                            cnt := 0 } }

/-- 42_sensor_sequences.md R122 and R124 on failure, 70_reset_and_hazards.md R190: a failure of either presence part
ends `READ_TEMPERATURE` at once with `RAW` and `TEMP` as they were and the pin in input mode. -/
def Obligations.ReadTemperatureFails : Prop :=
  ∀ (s : State) (env1 env2 env3 env4 : List (Level × Bool)) (rest : List Input) (k m k' : Nat),
    Accepted .readTemperature s → s.blk.ovr = false → env1.length = 765 → k ≤ 99 → m ≤ 239 → k' ≤ 99 →
    (s.inputs = tickInputs (env1 ++ env2) ++ rest → env2.map Prod.fst = absentLine →
      CommandTakes 865 s { s with
        inputs := rest
        now := s.now + 865
        blk := { s.blk with oe := .input, out := .high, err := .noDevicePresent, busy := false, done := true, upc := 0,
                            cnt := 0 } }) ∧
    (s.inputs = tickInputs (env1 ++ env2) ++ rest → env2.map Prod.fst = stuckLine k →
      CommandTakes (1006 + k) s { s with
        inputs := rest
        now := s.now + (1006 + k)
        blk := { s.blk with oe := .input, out := .high, err := .presencePulseInvalid, busy := false, done := true,
                            upc := 0, cnt := 0 } }) ∧
    (s.inputs = tickInputs (env1 ++ env2 ++ env3 ++ env4) ++ rest → env2.map Prod.fst = pulseLine k m →
      env3.length = 1893 → env4.map Prod.fst = absentLine →
      CommandTakes (2758 + (k + m + 2)) s { s with
        inputs := rest
        now := s.now + (2758 + (k + m + 2))
        blk := { s.blk with oe := .input, out := .high, err := .noDevicePresent, busy := false, done := true, upc := 0,
                            cnt := 0 } }) ∧
    (s.inputs = tickInputs (env1 ++ env2 ++ env3 ++ env4) ++ rest → env2.map Prod.fst = pulseLine k m →
      env3.length = 1893 → env4.map Prod.fst = stuckLine k' →
      CommandTakes (2899 + (k + m + 2) + k') s { s with
        inputs := rest
        now := s.now + (2899 + (k + m + 2) + k')
        blk := { s.blk with oe := .input, out := .high, err := .presencePulseInvalid, busy := false, done := true,
                            upc := 0, cnt := 0 } })

/-- 41_bus_primitives.md R106: the round trip. A listener that takes the pin on any tick from 10 to 59 of each write
slot of `WRITE_BYTE v` recovers the bits of `v` in order, and a `READ_BYTE` whose eight samples are those bits yields
`DATA = v`. -/
def Obligations.ByteRoundTrip : Prop :=
  (∀ v : Byte, (((byteBits v).zipIdx).map fun p => p.1.toNat <<< p.2).sum = v.toNat) ∧
  ∀ (v : Byte) (s s' : State) (env env' : List (Level × Bool)) (rest rest' : List Input),
    Accepted (.writeByte v) s → s.blk.ovr = false → s.inputs = tickInputs env ++ rest →
    env.length = 68 * ones v + 72 * (8 - ones v) →
    Accepted .readByte s' → s'.blk.ovr = false → s'.inputs = tickInputs env' ++ rest' → env'.length = 480 →
    (∀ j, j < 8 → (env'[60 * j + 14]?).map Prod.fst = some (if v.getLsbD j then Level.high else .low)) →
    (∃ slots : List (List Drive), slots.length = 8 ∧ waveform env.length s = slots.flatten ∧
      (∀ j, j < 8 → (slots[j]?).map List.length = some (if v.getLsbD j then 68 else 72)) ∧
      ∀ j x, j < 8 → 10 ≤ x → x ≤ 59 →
        ((slots[j]?).bind fun w => w[x]?) = some (if v.getLsbD j then Drive.high else .low)) ∧
    ∃ t, stepMany 480 s' = .next t ∧ t.blk.busy = false ∧ t.blk.data = v

/-- 42_sensor_sequences.md R125 for `SKIP_ROM`, as in program P4 of 95_test_vectors.md: the composite and its three
primitives written back to back give the same waveform and end in the same block but for `CMD`. -/
def Obligations.SkipRomEqualsItsPrimitives : Prop :=
  ∀ (s : State) (env1 env2 env3 : List (Level × Bool)) (rest : List Input) (k m n : Nat),
    s.rstN = .high → s.blk.busy = false → s.blk.ovr = false → env1.length = 765 → env2.map Prod.fst = pulseLine k m →
    env3.length = 560 → k ≤ 99 → m ≤ 239 → n = 1325 + (k + m + 2) →
    let sA := { s with inputs := .regWrite 0#3 0x00000007#32 :: tickInputs (env1 ++ env2 ++ env3) ++ rest }
    let sB := { s with
      inputs := .regWrite 0#3 0x00000002#32 :: tickInputs env1 ++ .regWrite 0#3 0x00000003#32 :: tickInputs env2 ++
        .regWrite 0#3 0x0000CC04#32 :: tickInputs env3 ++ rest }
    waveform (n + 1) sA = waveform (n + 3) sB ∧
    ∃ tA tB, stepMany (n + 1) sA = .next tA ∧ stepMany (n + 3) sB = .next tB ∧ tA.blk.busy = false ∧
      tA.blk.err = .ok ∧ tA.inputs = rest ∧ tB = { tA with blk := { tA.blk with cmd := 0x0000CC04#32 } }

/-- 10_state.md R32: the pin mode after a command. A completed command leaves input mode if it is `INIT`,
`CHECK_PRESENCE` or a reading command, and output mode driving high if it is one of the other five; a presence abort
leaves input mode; a configuration abort leaves `OE`, `OUT`, `PU` as they were. The premise `BUSY = 1`, `ERR = 0` is
R31's. -/
def Obligations.PinModeAfterCommand : Prop :=
  ∀ (i : Instr) (s t : State), s.blk.busy = true → s.blk.err = .ok → exec i s = .next t → t.blk.busy = false →
    (t.blk.err = .ok → (i = .init ∨ i = .checkPresence ∨ i = .readBit ∨ i = .readByte ∨ i = .readTemperature) →
      t.blk.oe = .input) ∧
    (t.blk.err = .ok → (i = .configure ∨ i = .reset ∨ (∃ v, i = .writeByte v) ∨ i = .skipRom ∨ i = .startConversion) →
      t.blk.oe = .output ∧ t.blk.out = .high) ∧
    (t.blk.err = .noDevicePresent ∨ t.blk.err = .presencePulseInvalid → t.blk.oe = .input) ∧
    (t.blk.err = .configurationError →
      t.blk.oe = s.blk.oe ∧ t.blk.out = s.blk.out ∧ t.blk.pu = s.blk.pu)

/-! ### The decoder -/

/-- 43_temperature_decoder.md R136, R137, R139 and R140: the fields of the word `TEMP`; for every raw sample it has
exactly the value `sint(raw) / 16`, which for a negative sample is minus the magnitude `65536 - uint(raw)` over 16; its
exponent field lies in 123 to 138 but for the word +0.0 (R139), and -0.0 is never produced (R140). The value of a word,
`floatValue`, is the model's own reading of binary32: log entry 12, PRESUMED. -/
def Obligations.DecodedWordAndValueAreExact : Prop :=
  decode32 0#16 = 0x00000000#32 ∧
  (∀ (raw : Half) (e : Nat), raw ≠ 0#16 → 2 ^ e ≤ raw.toInt.natAbs → raw.toInt.natAbs < 2 ^ (e + 1) →
    decode32 raw = BitVec.ofBool (decide (raw.toInt < 0)) ++ BitVec.ofNat 8 (e + 123) ++
      BitVec.ofNat 23 ((raw.toInt.natAbs - 2 ^ e) * 2 ^ (23 - e))) ∧
  ∀ raw : Half,
    floatValue (decode32 raw) = some ((raw.toInt : ℚ) / 16) ∧
    (raw.getLsbD 15 = false → (raw.toInt : ℚ) = raw.toNat) ∧
    (raw.getLsbD 15 = true → (raw.toInt : ℚ) = -(65536 - raw.toNat)) ∧
    (raw ≠ 0#16 → 123 ≤ floatExponent (decode32 raw) ∧ floatExponent (decode32 raw) ≤ 138) ∧
    decode32 raw ≠ 0x80000000#32

/-- 43_temperature_decoder.md R140: the corner cases of the table. The two clauses on the value of a word rest on
`floatValue`, the model's own reading of binary32: log entry 12, PRESUMED. -/
def Obligations.DecoderCornerCases : Prop :=
  (0x0000#16 : Half).toInt = 0 ∧ decode32 0x0000#16 = 0x00000000#32 ∧
  (0x0001#16 : Half).toInt = 1 ∧ decode32 0x0001#16 = 0x3D800000#32 ∧
  (0xFFFF#16 : Half).toInt = -1 ∧ decode32 0xFFFF#16 = 0xBD800000#32 ∧
  (0x7FFF#16 : Half).toInt = 32767 ∧ decode32 0x7FFF#16 = 0x44FFFE00#32 ∧
  (0x8000#16 : Half).toInt = -32768 ∧ decode32 0x8000#16 = 0xC5000000#32 ∧
  (0x8001#16 : Half).toInt = -32767 ∧ decode32 0x8001#16 = 0xC4FFFE00#32 ∧
  floatValue (decode32 0x7FFF#16) = some (20479375 / 10000) ∧ floatValue (decode32 0x8000#16) = some (-2048)

/-- 95_test_vectors.md section 2.5, laws 2 and 4, from 43_temperature_decoder.md R136 and R142: negating the sample
flips the sign bit, distinct samples decode to distinct words, and the decoded values keep the order. The order clause
rests on `floatValue`, the model's own reading of binary32: log entry 12, PRESUMED. -/
def Obligations.DecoderNegationAndOrder : Prop :=
  (∀ raw : Half, raw ≠ 0x0000#16 → raw ≠ 0x8000#16 → decode32 (-raw) = decode32 raw ^^^ 0x80000000#32) ∧
  (∀ a b : Half, decode32 a = decode32 b → a = b) ∧
  (∀ a b : Half, a.toInt < b.toInt → ∃ x y : ℚ, floatValue (decode32 a) = some x ∧ floatValue (decode32 b) = some y ∧ x < y)

/-! ### Reset -/

/-- 70_reset_and_hazards.md R175 and R177: `rst_n` low puts every element at the value of the table at once, whatever
was running; while it is low ticks change nothing, host writes have no effect and reads return the reset values; when
it goes high the block is idle in that state. -/
def Obligations.HardwareReset : Prop :=
  Block.reset = { cmd := 0x00000000#32, busy := false, done := false, ovr := false, err := .ok, oe := .input,
                  out := .high, pu := false, clken := false, data := 0x00#8, raw := 0x0000#16, shr := 0x0000#16,
                  upc := 0, cnt := 0 } ∧
  Block.reset.regRead 1#3 = 0x00002000#32 ∧ Block.reset.phase.code = 0#4 ∧ Block.reset.regRead 4#3 = 0x00000000#32 ∧
  (∀ (s : State) (rest : List Input), s.inputs = .rstN .low :: rest →
    step s = .next { s with inputs := rest, rstN := .low, blk := Block.reset }) ∧
  (∀ s t : State, Inv s → s.rstN = .low → step s = .next t →
    t.blk = Block.reset ∧ (t.rstN = .low ∨ ∃ rest, s.inputs = .rstN .high :: rest) ∧
      (∀ a rest, s.inputs = .regRead a :: rest → t.rdata = some (Block.reset.regRead a))) ∧
  (∀ (s : State) (rest : List Input), Inv s → s.rstN = .low → s.inputs = .rstN .high :: rest →
    step s = .next { s with inputs := rest, rstN := .high, blk := Block.reset }) ∧
  (∀ (s : State) (a : RegIndex) (v : Word) (rest : List Input), s.blk = Block.reset → s.rstN = .high →
    s.inputs = .regWrite a v :: rest → step s = .next { s with inputs := rest, blk := Block.reset.regWrite a v })
end

