-- ==== Sys2Proof/Laws/State.lean ====
section
/-! SUPPORT. One lemma per field and per update of the block and of the state, so that no later proof unfolds a record
update. -/

namespace Sys2Proof.Machine

@[simp] theorem Block.accept_cmd (v : Word) (b : Block) : (b.accept v).cmd = v := rfl
@[simp] theorem Block.accept_busy (v : Word) (b : Block) : (b.accept v).busy = true := rfl
@[simp] theorem Block.accept_done (v : Word) (b : Block) : (b.accept v).done = false := rfl
@[simp] theorem Block.accept_ovr (v : Word) (b : Block) : (b.accept v).ovr = b.ovr := rfl
@[simp] theorem Block.accept_err (v : Word) (b : Block) : (b.accept v).err = .ok := rfl
@[simp] theorem Block.accept_oe (v : Word) (b : Block) : (b.accept v).oe = b.oe := rfl
@[simp] theorem Block.accept_out (v : Word) (b : Block) : (b.accept v).out = b.out := rfl
@[simp] theorem Block.accept_pu (v : Word) (b : Block) : (b.accept v).pu = b.pu := rfl
@[simp] theorem Block.accept_clken (v : Word) (b : Block) : (b.accept v).clken = b.clken := rfl
@[simp] theorem Block.accept_data (v : Word) (b : Block) : (b.accept v).data = b.data := rfl
@[simp] theorem Block.accept_raw (v : Word) (b : Block) : (b.accept v).raw = b.raw := rfl
@[simp] theorem Block.accept_shr (v : Word) (b : Block) : (b.accept v).shr = 0#16 := rfl
@[simp] theorem Block.accept_upc (v : Word) (b : Block) : (b.accept v).upc = 0 := rfl
@[simp] theorem Block.accept_cnt (v : Word) (b : Block) : (b.accept v).cnt = 0 := rfl

@[simp] theorem Block.refuseIllegal_cmd (b : Block) : (b.refuseIllegal).cmd = b.cmd := rfl
@[simp] theorem Block.refuseIllegal_busy (b : Block) : (b.refuseIllegal).busy = b.busy := rfl
@[simp] theorem Block.refuseIllegal_done (b : Block) : (b.refuseIllegal).done = true := rfl
@[simp] theorem Block.refuseIllegal_ovr (b : Block) : (b.refuseIllegal).ovr = b.ovr := rfl
@[simp] theorem Block.refuseIllegal_err (b : Block) : (b.refuseIllegal).err = .illegalCommand := rfl
@[simp] theorem Block.refuseIllegal_oe (b : Block) : (b.refuseIllegal).oe = b.oe := rfl
@[simp] theorem Block.refuseIllegal_out (b : Block) : (b.refuseIllegal).out = b.out := rfl
@[simp] theorem Block.refuseIllegal_pu (b : Block) : (b.refuseIllegal).pu = b.pu := rfl
@[simp] theorem Block.refuseIllegal_clken (b : Block) : (b.refuseIllegal).clken = b.clken := rfl
@[simp] theorem Block.refuseIllegal_data (b : Block) : (b.refuseIllegal).data = b.data := rfl
@[simp] theorem Block.refuseIllegal_raw (b : Block) : (b.refuseIllegal).raw = b.raw := rfl
@[simp] theorem Block.refuseIllegal_shr (b : Block) : (b.refuseIllegal).shr = b.shr := rfl
@[simp] theorem Block.refuseIllegal_upc (b : Block) : (b.refuseIllegal).upc = b.upc := rfl
@[simp] theorem Block.refuseIllegal_cnt (b : Block) : (b.refuseIllegal).cnt = b.cnt := rfl

@[simp] theorem Block.dropWrite_cmd (b : Block) : (b.dropWrite).cmd = b.cmd := rfl
@[simp] theorem Block.dropWrite_busy (b : Block) : (b.dropWrite).busy = b.busy := rfl
@[simp] theorem Block.dropWrite_done (b : Block) : (b.dropWrite).done = b.done := rfl
@[simp] theorem Block.dropWrite_ovr (b : Block) : (b.dropWrite).ovr = true := rfl
@[simp] theorem Block.dropWrite_err (b : Block) : (b.dropWrite).err = b.err := rfl
@[simp] theorem Block.dropWrite_oe (b : Block) : (b.dropWrite).oe = b.oe := rfl
@[simp] theorem Block.dropWrite_out (b : Block) : (b.dropWrite).out = b.out := rfl
@[simp] theorem Block.dropWrite_pu (b : Block) : (b.dropWrite).pu = b.pu := rfl
@[simp] theorem Block.dropWrite_clken (b : Block) : (b.dropWrite).clken = b.clken := rfl
@[simp] theorem Block.dropWrite_data (b : Block) : (b.dropWrite).data = b.data := rfl
@[simp] theorem Block.dropWrite_raw (b : Block) : (b.dropWrite).raw = b.raw := rfl
@[simp] theorem Block.dropWrite_shr (b : Block) : (b.dropWrite).shr = b.shr := rfl
@[simp] theorem Block.dropWrite_upc (b : Block) : (b.dropWrite).upc = b.upc := rfl
@[simp] theorem Block.dropWrite_cnt (b : Block) : (b.dropWrite).cnt = b.cnt := rfl

@[simp] theorem Block.abort_cmd (c : ErrCode) (b : Block) : (b.abort c).cmd = b.cmd := rfl
@[simp] theorem Block.abort_busy (c : ErrCode) (b : Block) : (b.abort c).busy = false := rfl
@[simp] theorem Block.abort_done (c : ErrCode) (b : Block) : (b.abort c).done = true := rfl
@[simp] theorem Block.abort_ovr (c : ErrCode) (b : Block) : (b.abort c).ovr = b.ovr := rfl
@[simp] theorem Block.abort_err (c : ErrCode) (b : Block) : (b.abort c).err = c := rfl
@[simp] theorem Block.abort_oe (c : ErrCode) (b : Block) : (b.abort c).oe = b.oe := rfl
@[simp] theorem Block.abort_out (c : ErrCode) (b : Block) : (b.abort c).out = b.out := rfl
@[simp] theorem Block.abort_pu (c : ErrCode) (b : Block) : (b.abort c).pu = b.pu := rfl
@[simp] theorem Block.abort_clken (c : ErrCode) (b : Block) : (b.abort c).clken = b.clken := rfl
@[simp] theorem Block.abort_data (c : ErrCode) (b : Block) : (b.abort c).data = b.data := rfl
@[simp] theorem Block.abort_raw (c : ErrCode) (b : Block) : (b.abort c).raw = b.raw := rfl
@[simp] theorem Block.abort_shr (c : ErrCode) (b : Block) : (b.abort c).shr = b.shr := rfl
@[simp] theorem Block.abort_upc (c : ErrCode) (b : Block) : (b.abort c).upc = 0 := rfl
@[simp] theorem Block.abort_cnt (c : ErrCode) (b : Block) : (b.abort c).cnt = 0 := rfl

@[simp] theorem Block.stay_cmd (b : Block) : (b.stay).cmd = b.cmd := rfl
@[simp] theorem Block.stay_busy (b : Block) : (b.stay).busy = b.busy := rfl
@[simp] theorem Block.stay_done (b : Block) : (b.stay).done = b.done := rfl
@[simp] theorem Block.stay_ovr (b : Block) : (b.stay).ovr = b.ovr := rfl
@[simp] theorem Block.stay_err (b : Block) : (b.stay).err = b.err := rfl
@[simp] theorem Block.stay_oe (b : Block) : (b.stay).oe = b.oe := rfl
@[simp] theorem Block.stay_out (b : Block) : (b.stay).out = b.out := rfl
@[simp] theorem Block.stay_pu (b : Block) : (b.stay).pu = b.pu := rfl
@[simp] theorem Block.stay_clken (b : Block) : (b.stay).clken = b.clken := rfl
@[simp] theorem Block.stay_data (b : Block) : (b.stay).data = b.data := rfl
@[simp] theorem Block.stay_raw (b : Block) : (b.stay).raw = b.raw := rfl
@[simp] theorem Block.stay_shr (b : Block) : (b.stay).shr = b.shr := rfl
@[simp] theorem Block.stay_upc (b : Block) : (b.stay).upc = b.upc := rfl
@[simp] theorem Block.stay_cnt (b : Block) : (b.stay).cnt = b.cnt + 1 := rfl

@[simp] theorem Block.complete_cmd (r : ResultKind) (b : Block) : (b.complete r).cmd = b.cmd := by cases r <;> rfl
@[simp] theorem Block.complete_busy (r : ResultKind) (b : Block) : (b.complete r).busy = false := rfl
@[simp] theorem Block.complete_done (r : ResultKind) (b : Block) : (b.complete r).done = true := rfl
@[simp] theorem Block.complete_ovr (r : ResultKind) (b : Block) : (b.complete r).ovr = b.ovr := by cases r <;> rfl
@[simp] theorem Block.complete_err (r : ResultKind) (b : Block) : (b.complete r).err = b.err := by cases r <;> rfl
@[simp] theorem Block.complete_oe (r : ResultKind) (b : Block) : (b.complete r).oe = b.oe := by cases r <;> rfl
@[simp] theorem Block.complete_out (r : ResultKind) (b : Block) : (b.complete r).out = b.out := by cases r <;> rfl
@[simp] theorem Block.complete_pu (r : ResultKind) (b : Block) : (b.complete r).pu = b.pu := by cases r <;> rfl
@[simp] theorem Block.complete_clken (r : ResultKind) (b : Block) : (b.complete r).clken = b.clken := by cases r <;> rfl
@[simp] theorem Block.complete_shr (r : ResultKind) (b : Block) : (b.complete r).shr = b.shr := by cases r <;> rfl
@[simp] theorem Block.complete_upc (r : ResultKind) (b : Block) : (b.complete r).upc = 0 := rfl
@[simp] theorem Block.complete_cnt (r : ResultKind) (b : Block) : (b.complete r).cnt = 0 := rfl
@[simp] theorem Block.complete_data (r : ResultKind) (b : Block) :
    (b.complete r).data =
      match r with | .dataBit => bitOfShr b.shr | .dataByte => byteOfShr b.shr | .nothing | .rawSample => b.data := by
  cases r <;> rfl
@[simp] theorem Block.complete_raw (r : ResultKind) (b : Block) :
    (b.complete r).raw = match r with | .rawSample => b.shr | .nothing | .dataBit | .dataByte => b.raw := by
  cases r <;> rfl

@[simp] theorem State.endTick_blk (s : State) (b : Block) : (s.endTick b).blk = b := rfl
@[simp] theorem State.endTick_rstN (s : State) (b : Block) : (s.endTick b).rstN = s.rstN := rfl
@[simp] theorem State.endTick_rdata (s : State) (b : Block) : (s.endTick b).rdata = s.rdata := rfl
@[simp] theorem State.endTick_inputs (s : State) (b : Block) : (s.endTick b).inputs = s.inputsAfterTick := rfl
@[simp] theorem State.endTick_now (s : State) (b : Block) : (s.endTick b).now = s.now + 1 := rfl

@[simp] theorem State.idleTick_blk (s : State) : (s.idleTick).blk = s.blk := rfl
@[simp] theorem State.idleTick_rstN (s : State) : (s.idleTick).rstN = s.rstN := rfl
@[simp] theorem State.idleTick_rdata (s : State) : (s.idleTick).rdata = s.rdata := rfl
@[simp] theorem State.idleTick_inputs (s : State) : (s.idleTick).inputs = s.inputsAfterTick := rfl
@[simp] theorem State.idleTick_now (s : State) : (s.idleTick).now = s.now + 1 := rfl

@[simp] theorem State.hostRead_blk (a : RegIndex) (l : List Input) (s : State) : (s.hostRead a l).blk = s.blk := rfl
@[simp] theorem State.hostRead_rstN (a : RegIndex) (l : List Input) (s : State) : (s.hostRead a l).rstN = s.rstN := rfl
@[simp] theorem State.hostRead_rdata (a : RegIndex) (l : List Input) (s : State) : (s.hostRead a l).rdata = some (s.blk.regRead a) := rfl
@[simp] theorem State.hostRead_inputs (a : RegIndex) (l : List Input) (s : State) : (s.hostRead a l).inputs = l := rfl
@[simp] theorem State.hostRead_now (a : RegIndex) (l : List Input) (s : State) : (s.hostRead a l).now = s.now := rfl

@[simp] theorem State.hostWrite_rstN (a : RegIndex) (v : Word) (l : List Input) (s : State) :
    (s.hostWrite a v l).rstN = s.rstN := by unfold State.hostWrite; split <;> rfl
@[simp] theorem State.hostWrite_rdata (a : RegIndex) (v : Word) (l : List Input) (s : State) :
    (s.hostWrite a v l).rdata = s.rdata := by unfold State.hostWrite; split <;> rfl
@[simp] theorem State.hostWrite_inputs (a : RegIndex) (v : Word) (l : List Input) (s : State) :
    (s.hostWrite a v l).inputs = l := by unfold State.hostWrite; split <;> rfl
@[simp] theorem State.hostWrite_now (a : RegIndex) (v : Word) (l : List Input) (s : State) :
    (s.hostWrite a v l).now = s.now := by unfold State.hostWrite; split <;> rfl
@[simp] theorem State.hostWrite_blk (a : RegIndex) (v : Word) (l : List Input) (s : State) :
    (s.hostWrite a v l).blk = if s.rstN = .low then s.blk else s.blk.regWrite a v := by
  unfold State.hostWrite; split <;> rfl

@[simp] theorem State.setRstN_rstN (x : Level) (l : List Input) (s : State) : (s.setRstN x l).rstN = x := by
  cases x <;> rfl
@[simp] theorem State.setRstN_rdata (x : Level) (l : List Input) (s : State) : (s.setRstN x l).rdata = s.rdata := by
  cases x <;> rfl
@[simp] theorem State.setRstN_inputs (x : Level) (l : List Input) (s : State) : (s.setRstN x l).inputs = l := by
  cases x <;> rfl
@[simp] theorem State.setRstN_now (x : Level) (l : List Input) (s : State) : (s.setRstN x l).now = s.now := by
  cases x <;> rfl
@[simp] theorem State.setRstN_low_blk (l : List Input) (s : State) : (s.setRstN .low l).blk = Block.reset := rfl
@[simp] theorem State.setRstN_high_blk (l : List Input) (s : State) : (s.setRstN .high l).blk = s.blk := rfl

end Sys2Proof.Machine
end

