-- ==== Sys2Proof/Laws/Ops.lean ====
section
/-! SUPPORT. One lemma per shared operation that says everything the operation can do, and the inversion of a step. -/

namespace Sys2Proof.Machine

/-- The result a command's meaning passes to `runTick` (40_micro_ops.md R91). -/
def resultOf : Instr → ResultKind
  | .readBit => .dataBit
  | .readByte => .dataByte
  | .readTemperature => .rawSample
  | .configure | .reset | .checkPresence | .writeByte _ | .skipRom | .startConversion | .init => .nothing

theorem exec_eq_runTick (i : Instr) (s : State) : exec i s = runTick (expand i) (resultOf i) s := by
  cases i <;> rfl

/-- Every meaning runs the entry at `UPC` for one tick. -/
theorem exec_entry {i : Instr} {s : State} {e : Entry} (h : (expand i)[s.blk.upc]? = some e) :
    exec i s =
      .next (s.endTick (e.op.tick (expand i).length (resultOf i) s.dqIn s.gpioClkOk s.blk)) := by
  rw [exec_eq_runTick, runTick, h]

theorem exec_next {i : Instr} {s t : State} (h : exec i s = .next t) :
    ∃ e, (expand i)[s.blk.upc]? = some e ∧
      t = s.endTick (e.op.tick (expand i).length (resultOf i) s.dqIn s.gpioClkOk s.blk) := by
  rw [exec_eq_runTick, runTick] at h
  split at h
  · rename_i e he
    cases h
    exact ⟨e, he, rfl⟩
  · cases h

theorem complete_eq_finished (i : Instr) (b : Block) : b.complete (resultOf i) = finished i b := by
  cases i <;> try rfl
  simp only [resultOf, finished, Block.complete, Block.writeResult]
  congr 1
  generalize b.shr = v
  revert v
  intro v
  simp only [bitOfShr]
  apply BitVec.eq_of_getLsbD_eq
  intro j hj
  cases h : v.getLsbD 0 <;> simp <;> grind

theorem advance_eq_advanced (i : Instr) (b : Block) :
    b.advance (expand i).length (resultOf i) = advanced i b := by
  unfold Block.advance advanced
  rw [complete_eq_finished]

/-- Everything a step can do: a host read, a host write, a change of `rst_n`, a tick that runs no command, or a tick of
the command in progress. -/
theorem step_cases {s t : State} (h : step s = .next t) :
    (∃ a rest, s.inputs = .regRead a :: rest ∧ t = s.hostRead a rest) ∨
    (∃ a v rest, s.inputs = .regWrite a v :: rest ∧ t = s.hostWrite a v rest) ∨
    (∃ l rest, s.inputs = .rstN l :: rest ∧ t = s.setRstN l rest) ∨
    (s.nextIsTick = true ∧ s.running = false ∧ t = s.idleTick) ∨
    (s.nextIsTick = true ∧ s.running = true ∧ ∃ i e, s.fetch = .ok i ∧ (expand i)[s.blk.upc]? = some e ∧
      t = s.endTick (e.op.tick (expand i).length (resultOf i) s.dqIn s.gpioClkOk s.blk)) := by
  have tick : s.nextIsTick = true → stepTick s = .next t →
      (s.nextIsTick = true ∧ s.running = false ∧ t = s.idleTick) ∨
      (s.nextIsTick = true ∧ s.running = true ∧ ∃ i e, s.fetch = .ok i ∧ (expand i)[s.blk.upc]? = some e ∧
        t = s.endTick (e.op.tick (expand i).length (resultOf i) s.dqIn s.gpioClkOk s.blk)) := by
    intro hn hs
    unfold stepTick at hs
    split at hs
    · rename_i hr
      split at hs
      · rename_i i hi
        obtain ⟨e, he, rfl⟩ := exec_next hs
        exact .inr ⟨hn, hr, i, e, hi, he, rfl⟩
      · cases hs
    · rename_i hr
      cases hs
      exact .inl ⟨hn, by simpa using hr, rfl⟩
  unfold step at h
  split at h
  · rename_i a rest hin; cases h; exact .inl ⟨a, rest, hin, rfl⟩
  · rename_i a v rest hin; cases h; exact .inr (.inl ⟨a, v, rest, hin, rfl⟩)
  · rename_i l rest hin; cases h; exact .inr (.inr (.inl ⟨l, rest, hin, rfl⟩))
  · rename_i hin; exact .inr (.inr (.inr (tick (by simp [State.nextIsTick, hin]) h)))
  · rename_i hin; exact .inr (.inr (.inr (tick (by simp [State.nextIsTick, hin]) h)))

theorem step_tick {s : State} (h : s.nextIsTick = true) : step s = stepTick s := by
  unfold step
  unfold State.nextIsTick at h
  split <;> simp_all

theorem step_running {s : State} {i : Instr} (h : s.nextIsTick = true) (hr : s.running = true)
    (hf : s.fetch = .ok i) : step s = exec i s := by
  rw [step_tick h, stepTick, if_pos hr, hf]

theorem step_idle {s : State} (h : s.nextIsTick = true) (hr : s.running = false) : step s = .next s.idleTick := by
  rw [step_tick h, stepTick, if_neg (by simp [hr])]

/-- `p` is `b` but for the pin latches and the shift register: all that a micro-operation touches beside the position
and the flags (40_micro_ops.md R82 to R87). -/
def SamePins (b p : Block) : Prop :=
  p = { b with oe := p.oe, out := p.out, pu := p.pu, clken := p.clken, shr := p.shr }

/-- Everything a tick of a micro-operation can do: it sets the pins and `SHR`, and then stays, advances or aborts. -/
theorem tick_cases (u : MicroOp) (len : Nat) (r : ResultKind) (dq : Level) (ok : Bool) (b : Block) :
    ∃ p, SamePins b p ∧
      (u.tick len r dq ok b = p.stay ∧ b.cnt + 1 ≠ u.ticks ∧ u ≠ .cfg ∨
        u.tick len r dq ok b = p.advance len r ∨
        ∃ c, u.tick len r dq ok b = p.abort c ∧
          (u = .cfg ∧ c = .configurationError ∧ p.clken = true ∨
            p.oe = .input ∧ b.cnt + 1 = u.ticks ∧
              ((∃ m, u = .waitL m c) ∨ ∃ m, u = .waitH m c))) := by
  cases u with
  | drv l n =>
    refine ⟨{ b with oe := .output, out := l }, rfl, ?_⟩
    by_cases h : b.cnt + 1 = n
    · exact .inr (.inl (by simp [MicroOp.tick, Block.tickDrv, Block.countTo, h]))
    · exact .inl ⟨by simp [MicroOp.tick, Block.tickDrv, Block.countTo, h], h, by simp⟩
  | rls n =>
    refine ⟨{ b with oe := .input }, rfl, ?_⟩
    by_cases h : b.cnt + 1 = n
    · exact .inr (.inl (by simp [MicroOp.tick, Block.tickRls, Block.countTo, h]))
    · exact .inl ⟨by simp [MicroOp.tick, Block.tickRls, Block.countTo, h], h, by simp⟩
  | smp n i =>
    by_cases h : b.cnt + 1 = n
    · exact ⟨{ b with oe := .input, shr := setBit b.shr i dq.bit }, rfl,
        .inr (.inl (by simp [MicroOp.tick, Block.tickSmp, h]))⟩
    · exact ⟨{ b with oe := .input }, rfl, .inl ⟨by simp [MicroOp.tick, Block.tickSmp, h], h, by simp⟩⟩
  | waitL m c =>
    refine ⟨{ b with oe := .input }, rfl, ?_⟩
    by_cases hd : dq = .low
    · exact .inr (.inl (by simp [MicroOp.tick, Block.tickWait, hd]))
    · by_cases h : b.cnt + 1 = m
      · exact .inr (.inr ⟨c, by simp [MicroOp.tick, Block.tickWait, hd, h], .inr ⟨rfl, h, .inl ⟨m, rfl⟩⟩⟩)
      · exact .inl ⟨by simp [MicroOp.tick, Block.tickWait, hd, h], h, by simp⟩
  | waitH m c =>
    refine ⟨{ b with oe := .input }, rfl, ?_⟩
    by_cases hd : dq = .high
    · exact .inr (.inl (by simp [MicroOp.tick, Block.tickWait, hd]))
    · by_cases h : b.cnt + 1 = m
      · exact .inr (.inr ⟨c, by simp [MicroOp.tick, Block.tickWait, hd, h], .inr ⟨rfl, h, .inr ⟨m, rfl⟩⟩⟩)
      · exact .inl ⟨by simp [MicroOp.tick, Block.tickWait, hd, h], h, by simp⟩
  | cfg =>
    cases ok
    · exact ⟨{ b with clken := true }, rfl, .inr (.inr ⟨_, rfl, .inl ⟨rfl, rfl, rfl⟩⟩)⟩
    · exact ⟨{ b with clken := true, pu := true, oe := .output, out := .high }, rfl, .inr (.inl rfl)⟩

/-- Everything a host write can do to the block while `rst_n` is high. -/
theorem regWrite_cases (a : RegIndex) (v : Word) (b : Block) :
    (a = 0#3 ∧ b.busy = false ∧ (∃ i, decode v = .ok i) ∧ b.regWrite a v = b.accept v) ∨
    (a = 0#3 ∧ b.busy = false ∧ (∃ e, decode v = .error e) ∧ b.regWrite a v = b.refuseIllegal) ∨
    (a = 3#3 ∧ b.busy = false ∧ b.regWrite a v = { b with raw := v.extractLsb' 0 16 }) ∨
    ((a = 0#3 ∨ a = 3#3) ∧ b.busy = true ∧ b.regWrite a v = b.dropWrite) ∨
    (a ≠ 0#3 ∧ a ≠ 3#3 ∧ b.regWrite a v = b) := by
  unfold Block.regWrite Block.writeCmd Block.writeRaw
  by_cases h0 : a = 0#3
  · cases hb : b.busy
    · cases hd : decode v <;> simp [h0]
    · simp [h0]
  · by_cases h3 : a = 3#3
    · cases hb : b.busy <;> simp [h3]
    · simp [h0, h3]

@[simp] theorem getLsbD_setBit (v : Half) (i : Fin 16) (b : Bool) (j : Nat) :
    (setBit v i b).getLsbD j = if j = i.val then b else v.getLsbD j := by
  have hi := i.isLt
  unfold setBit
  cases b <;> simp [BitVec.getLsbD_shiftLeft, BitVec.getLsbD_one] <;> grind

end Sys2Proof.Machine
end

