-- ==== Sys2Proof/Laws/PerInstr.lean ====
section
/-! SUPPORT. What is said of every command as syntax, one lemma per command: `Encoding`, that its word meets the row
of spec/opcode_table.json, and `Microprogram`, that its micro-operation list meets spec/40_micro_ops.md R80 and R92. -/

namespace Sys2Proof.Laws

open Sys2Proof.Machine

/-- The `mask` and the `match` of a command's row in spec/opcode_table.json. -/
def Encoding.row : Instr → Word × Word
  | .configure => (0xFFFFFFFF#32, 0x00000001#32)
  | .reset => (0xFFFFFFFF#32, 0x00000002#32)
  | .checkPresence => (0xFFFFFFFF#32, 0x00000003#32)
  | .writeByte _ => (0xFFFF00FF#32, 0x00000004#32)
  | .readBit => (0xFFFFFFFF#32, 0x00000005#32)
  | .readByte => (0xFFFFFFFF#32, 0x00000006#32)
  | .skipRom => (0xFFFFFFFF#32, 0x00000007#32)
  | .startConversion => (0xFFFFFFFF#32, 0x00000008#32)
  | .readTemperature => (0xFFFFFFFF#32, 0x00000009#32)
  | .init => (0xFFFFFFFF#32, 0x0000000A#32)

/-- The word of a command is legal and meets its row of the opcode table. -/
def Encoding.Statement (i : Instr) : Prop :=
  Legal (encode i) = true ∧ encode i &&& (Encoding.row i).1 = (Encoding.row i).2

theorem Encoding.configure : Encoding.Statement .configure := by constructor <;> decide
theorem Encoding.reset : Encoding.Statement .reset := by constructor <;> decide
theorem Encoding.checkPresence : Encoding.Statement .checkPresence := by constructor <;> decide
theorem Encoding.writeByte (v : Byte) : Encoding.Statement (.writeByte v) := by
  constructor <;> (revert v; decide +revert)
theorem Encoding.readBit : Encoding.Statement .readBit := by constructor <;> decide
theorem Encoding.readByte : Encoding.Statement .readByte := by constructor <;> decide
theorem Encoding.skipRom : Encoding.Statement .skipRom := by constructor <;> decide
theorem Encoding.startConversion : Encoding.Statement .startConversion := by constructor <;> decide
theorem Encoding.readTemperature : Encoding.Statement .readTemperature := by constructor <;> decide
theorem Encoding.init : Encoding.Statement .init := by constructor <;> decide

/-- An entry of a list takes at least one tick (40_micro_ops.md R80) and no more than the longest duration, `T_RSTL`,
and carries a tag other than 0 (R92). -/
def Microprogram.entryOk (e : Entry) : Bool :=
  decide (1 ≤ e.op.ticks) && decide (e.op.ticks ≤ 750) && e.phase != .idle

/-- The list of a command is not empty and all its entries are as R80 and R92 ask. -/
def Microprogram.Statement (i : Instr) : Prop :=
  expand i ≠ [] ∧ (expand i).all Microprogram.entryOk = true

theorem Microprogram.configure : Microprogram.Statement .configure := by constructor <;> decide
theorem Microprogram.reset : Microprogram.Statement .reset := by constructor <;> decide
theorem Microprogram.checkPresence : Microprogram.Statement .checkPresence := by constructor <;> decide

theorem Microprogram.wBit (bit : Bool) : (wBit Config.timing bit).all Microprogram.entryOk = true := by
  cases bit <;> decide

theorem Microprogram.writeByte (v : Byte) : Microprogram.Statement (.writeByte v) := by
  constructor
  · intro h
    have h0 := List.flatMap_eq_nil_iff.mp h (v.getLsbD 0) (by simp [byteBits])
    cases hb : v.getLsbD 0 <;> rw [hb] at h0 <;> cases h0
  · rw [List.all_eq_true]
    intro e he
    obtain ⟨bit, -, hb⟩ := List.mem_flatMap.mp he
    exact List.all_eq_true.mp (Microprogram.wBit bit) e hb

theorem Microprogram.readBit : Microprogram.Statement .readBit := by constructor <;> decide
theorem Microprogram.readByte : Microprogram.Statement .readByte := by constructor <;> decide
theorem Microprogram.skipRom : Microprogram.Statement .skipRom := by constructor <;> decide
theorem Microprogram.startConversion : Microprogram.Statement .startConversion := by constructor <;> decide
theorem Microprogram.readTemperature : Microprogram.Statement .readTemperature := by constructor <;> decide
theorem Microprogram.init : Microprogram.Statement .init := by constructor <;> decide

end Sys2Proof.Laws
end

