-- ==== Sys2Proof/Laws/Run.lean ====
section
/-! SUPPORT. Runs of ticks: a run of the machine over scripted ticks is a fold over the block, and one lemma per
micro-operation says what its ticks do to the block and to the waveform. -/

namespace Sys2Proof.Machine

/-- One tick of the command `i` on the block, with the two levels of the tick. -/
def blkTick (i : Instr) (e : Level × Bool) (b : Block) : Block :=
  if b.busy then
    match (expand i)[b.upc]? with
    | some en => en.op.tick (expand i).length (resultOf i) e.1 e.2 b
    | none => b
  else b

/-- The ticks of a script, one after the other. -/
def blkRun (i : Instr) : List (Level × Bool) → Block → Block
  | [], b => b
  | e :: es, b => blkRun i es (blkTick i e b)

/-- The pin during each tick of a script. -/
def blkWave (i : Instr) : List (Level × Bool) → Block → List Drive
  | [], _ => []
  | e :: es, b => (blkTick i e b).drive :: blkWave i es (blkTick i e b)

theorem blkRun_append (i : Instr) (xs ys : List (Level × Bool)) (b : Block) :
    blkRun i (xs ++ ys) b = blkRun i ys (blkRun i xs b) := by
  induction xs generalizing b with
  | nil => rfl
  | cons x xs ih => exact ih _

theorem blkWave_append (i : Instr) (xs ys : List (Level × Bool)) (b : Block) :
    blkWave i (xs ++ ys) b = blkWave i xs b ++ blkWave i ys (blkRun i xs b) := by
  induction xs generalizing b with
  | nil => rfl
  | cons x xs ih => simp [blkWave, blkRun, ih]

/-! ### What a tick keeps -/

theorem tick_upc_lt {u : MicroOp} {len : Nat} {r : ResultKind} {dq : Level} {ok : Bool} {b : Block}
    (hu : b.upc < len) (h : (u.tick len r dq ok b).busy = true) :
    (u.tick len r dq ok b).upc < len := by
  obtain ⟨p, hp, ⟨h1, -⟩ | h1 | ⟨c, h1, -⟩⟩ := tick_cases u len r dq ok b
  · rw [h1, hp]; exact hu
  · rw [h1] at h ⊢
    unfold Block.advance at h ⊢
    split at h
    · simp at h
    · rename_i hn
      rw [if_neg hn]
      rw [hp] at hn ⊢
      simp at hn ⊢
      omega
  · rw [h1] at h; simp at h

theorem tick_cmd (u : MicroOp) (len : Nat) (r : ResultKind) (dq : Level) (ok : Bool) (b : Block) :
    (u.tick len r dq ok b).cmd = b.cmd ∧ (u.tick len r dq ok b).ovr = b.ovr := by
  obtain ⟨p, hp, ⟨h1, -⟩ | h1 | ⟨c, h1, -⟩⟩ := tick_cases u len r dq ok b <;> rw [h1] <;> rw [hp]
  · simp
  · unfold Block.advance; split <;> simp
  · simp

/-! ### From the machine to the block -/

/-- The step of a scripted tick, in terms of the block. -/
theorem step_scripted {i : Instr} {s : State} {e : Level × Bool} {rest : List Input} (hr : s.rstN = .high)
    (hd : decode s.blk.cmd = .ok i) (hp : s.blk.busy = true → s.blk.upc < (expand i).length)
    (hin : s.inputs = .tick e.1 e.2 :: rest) :
    step s = .next { s with blk := blkTick i e s.blk, inputs := rest, now := s.now + 1 } := by
  have hn : s.nextIsTick = true := by simp [State.nextIsTick, hin]
  have hi : s.inputsAfterTick = rest := by simp [State.inputsAfterTick, hin]
  cases hb : s.blk.busy
  · rw [step_idle hn (by simp [State.running, hb])]
    simp [State.idleTick, State.endTick, hi, blkTick, hb]
  · have hlt := hp hb
    rw [step_running hn (by simp [State.running, hb, hr]) hd,
      exec_entry (List.getElem?_eq_getElem hlt)]
    simp [State.endTick, hi, blkTick, hb, hlt, State.dqIn, State.gpioClkOk, hin]

theorem blkTick_upc {i : Instr} {e : Level × Bool} {b : Block} (hp : b.busy = true → b.upc < (expand i).length)
    (h : (blkTick i e b).busy = true) : (blkTick i e b).upc < (expand i).length := by
  unfold blkTick at h ⊢
  split at h
  · rename_i hb
    rw [if_pos hb]
    have hlt := hp hb
    rw [List.getElem?_eq_getElem hlt] at h ⊢
    exact tick_upc_lt hlt h
  · rename_i hb; exact absurd h hb

theorem blkTick_cmd (i : Instr) (e : Level × Bool) (b : Block) :
    (blkTick i e b).cmd = b.cmd ∧ (blkTick i e b).ovr = b.ovr := by
  unfold blkTick
  split
  · split
    · exact tick_cmd ..
    · exact ⟨rfl, rfl⟩
  · exact ⟨rfl, rfl⟩

/-- A run over scripted ticks is the run of the block. -/
theorem stepMany_scripted {i : Instr} {env : List (Level × Bool)} {s : State} {rest : List Input}
    (hr : s.rstN = .high) (hd : decode s.blk.cmd = .ok i) (hp : s.blk.busy = true → s.blk.upc < (expand i).length)
    (hin : s.inputs = tickInputs env ++ rest) :
    stepMany env.length s =
      .next { s with blk := blkRun i env s.blk, inputs := rest, now := s.now + env.length } := by
  induction env generalizing s with
  | nil =>
    cases s
    simp only [tickInputs, List.map_nil, List.nil_append] at hin
    simp [stepMany, blkRun, hin]
  | cons e es ih =>
    have h1 := step_scripted (rest := tickInputs es ++ rest) hr hd hp (e := e) (by simpa [tickInputs] using hin)
    simp only [List.length_cons, stepMany, h1]
    rw [ih (by simpa using hr) (by simpa [(blkTick_cmd i e s.blk).1] using hd) (fun h => blkTick_upc hp h) rfl]
    simp [blkRun, Nat.add_assoc, Nat.add_comm 1]

/-- A prefix of a run over scripted ticks. -/
theorem stepMany_scripted_prefix {i : Instr} {env : List (Level × Bool)} {s : State} {rest : List Input} {k : Nat}
    (hr : s.rstN = .high) (hd : decode s.blk.cmd = .ok i) (hp : s.blk.busy = true → s.blk.upc < (expand i).length)
    (hin : s.inputs = tickInputs env ++ rest) (hk : k ≤ env.length) :
    stepMany k s =
      .next { s with blk := blkRun i (env.take k) s.blk, inputs := tickInputs (env.drop k) ++ rest, now := s.now + k } := by
  have h := stepMany_scripted (i := i) (env := env.take k) (s := s) (rest := tickInputs (env.drop k) ++ rest) hr hd hp
    (by rw [hin, ← List.append_assoc, tickInputs, tickInputs, tickInputs, ← List.map_append, List.take_append_drop])
  simpa [List.length_take, Nat.min_eq_left hk] using h

/-- The waveform of a run over scripted ticks is that of the block. -/
theorem waveform_scripted {i : Instr} {env : List (Level × Bool)} {s : State} {rest : List Input}
    (hr : s.rstN = .high) (hd : decode s.blk.cmd = .ok i) (hp : s.blk.busy = true → s.blk.upc < (expand i).length)
    (hin : s.inputs = tickInputs env ++ rest) :
    waveform env.length s = blkWave i env s.blk := by
  induction env generalizing s with
  | nil => rfl
  | cons e es ih =>
    have h1 := step_scripted (rest := tickInputs es ++ rest) hr hd hp (e := e) (by simpa [tickInputs] using hin)
    have hn : s.nextIsTick = true := by simp [State.nextIsTick, hin, tickInputs]
    have h2 := ih (s := { s with blk := blkTick i e s.blk, inputs := tickInputs es ++ rest, now := s.now + 1 })
      (by simpa using hr) (by simpa [(blkTick_cmd i e s.blk).1] using hd) (fun h => blkTick_upc hp h) rfl
    unfold waveform at h2 ⊢
    simp [record, h1, hn, h2, blkWave, Block.drive]

/-! ### Stretches of a command -/

/-- Over the ticks `env` the block goes from `b` to `b'`, busy before every tick, with the pin as `w`. -/
structure Stretch (i : Instr) (env : List (Level × Bool)) (b b' : Block) (w : List Drive) : Prop where
  run : blkRun i env b = b'
  wave : blkWave i env b = w
  busy : ∀ k, k < env.length → (blkRun i (env.take k) b).busy = true

theorem Stretch.append {i : Instr} {xs ys : List (Level × Bool)} {b b' b'' : Block} {w w' : List Drive}
    (h : Stretch i xs b b' w) (h' : Stretch i ys b' b'' w') : Stretch i (xs ++ ys) b b'' (w ++ w') := by
  refine ⟨by rw [blkRun_append, h.run, h'.run], by rw [blkWave_append, h.run, h.wave, h'.wave], ?_⟩
  intro k hk
  by_cases hx : k < xs.length
  · rw [List.take_append_of_le_length (Nat.le_of_lt hx)]
    exact h.busy k hx
  · rw [List.take_append, List.take_of_length_le (by omega), blkRun_append, h.run]
    exact h'.busy _ (by simp at hk; omega)

/-- A stretch from an accepted command to its end is what the command takes. -/
theorem Stretch.commandTakes {i : Instr} {env : List (Level × Bool)} {s : State} {rest : List Input} {b' : Block}
    {w : List Drive} (h : Stretch i env s.blk b' w) (hr : s.rstN = .high) (hd : decode s.blk.cmd = .ok i)
    (hp : s.blk.upc < (expand i).length) (hin : s.inputs = tickInputs env ++ rest) (hb : b'.busy = false) :
    waveform env.length s = w ∧
      CommandTakes env.length s { s with blk := b', inputs := rest, now := s.now + env.length } := by
  refine ⟨by rw [waveform_scripted hr hd (fun _ => hp) hin, h.wave], ?_, hb, ?_⟩
  · rw [stepMany_scripted hr hd (fun _ => hp) hin, h.run]
  · intro k hk
    exact ⟨_, stepMany_scripted_prefix hr hd (fun _ => hp) hin (Nat.le_of_lt hk), h.busy k hk⟩

theorem blkTick_entry {i : Instr} {e : Level × Bool} {b : Block} {en : Entry} (hb : b.busy = true)
    (he : (expand i)[b.upc]? = some en) :
    blkTick i e b = en.op.tick (expand i).length (resultOf i) e.1 e.2 b := by
  simp [blkTick, hb, he]

/-- One tick as a stretch. -/
theorem stretch_one {i : Instr} {e : Level × Bool} {b b' : Block} (hb : b.busy = true) (h : blkTick i e b = b') :
    Stretch i [e] b b' [b'.drive] :=
  ⟨h, by rw [blkWave, h]; rfl, fun k hk => by
    have : k = 0 := by simpa using hk
    subst this
    exact hb⟩

theorem Stretch.congr {i : Instr} {env : List (Level × Bool)} {b b' b'' : Block} {w w' : List Drive}
    (h : Stretch i env b b' w) (hb : b' = b'') (hw : w = w') : Stretch i env b b'' w' := hb ▸ hw ▸ h

/-- `n` ticks that all set the same pin: the first from `b`, the next ones along `B`, the last to `fin`. -/
theorem stretch_ticks {i : Instr} {env : List (Level × Bool)} {b : Block} {B : Nat → Block} {fin : Level × Bool → Block}
    {d : Drive} {n : Nat} (hn : 2 ≤ n) (hlen : env.length = n) (hb : b.busy = true)
    (first : ∀ x, blkTick i x b = B 1) (next : ∀ c x, c + 1 < n → blkTick i x (B c) = B (c + 1))
    (last : ∀ x, blkTick i x (B (n - 1)) = fin x)
    (hB : ∀ c, (B c).busy = true) (hd : ∀ c, (B c).drive = d) (hfd : ∀ x, (fin x).drive = d) :
    ∃ x, env[n - 1]? = some x ∧ Stretch i env b (fin x) (List.replicate n d) := by
  have key : ∀ (xs : List (Level × Bool)) (c : Nat), 1 ≤ c → c + (xs.length + 1) = n → ∀ x,
      Stretch i (xs ++ [x]) (B c) (fin x) (List.replicate (xs.length + 1) d) := by
    intro xs
    induction xs with
    | nil =>
      intro c _ hc x
      have hc' : c = n - 1 := by simp at hc; omega
      subst hc'
      simpa [hfd] using stretch_one (hB _) (last x)
    | cons y ys ih =>
      intro c h1 hc x
      simp only [List.length_cons] at hc
      have h := (stretch_one (hB c) (next c y (by omega))).append (ih (c + 1) (by omega) (by omega) x)
      simpa [hd, List.replicate_succ] using h
  obtain ⟨y, ys, rfl⟩ : ∃ y ys, env = y :: ys := List.exists_cons_of_length_pos (by omega)
  obtain ⟨zs, x, rfl⟩ : ∃ zs x, ys = zs ++ [x] := by
    have hne : ys ≠ [] := by rintro rfl; simp at hlen; omega
    exact ⟨ys.dropLast, ys.getLast hne, (List.dropLast_append_getLast hne).symm⟩
  simp only [List.length_cons, List.length_append, List.length_nil] at hlen
  refine ⟨x, ?_, ?_⟩
  · have : n - 1 = (y :: zs).length := by simp; omega
    rw [this, ← List.cons_append, List.getElem?_concat_length]
  · have h := (stretch_one hb (first y)).append (key zs 1 (Nat.le_refl 1) (by omega) x)
    have hn' : n = zs.length + 1 + 1 := by omega
    rw [hn']
    simpa [hd, List.replicate_succ] using h

/-! ### One stretch per micro-operation -/

theorem finished_cnt (i : Instr) (b : Block) (c : Nat) : finished i { b with cnt := c } = finished i b := by
  cases i <;> rfl

theorem advanced_cnt (i : Instr) (b : Block) (c : Nat) : advanced i { b with cnt := c } = advanced i b := by
  unfold advanced
  rw [finished_cnt]

@[simp] theorem finished_busy (i : Instr) (b : Block) : (finished i b).busy = false := by cases i <;> rfl

@[simp] theorem finished_drive (i : Instr) (b : Block) : (finished i b).drive = b.drive := by cases i <;> rfl

@[simp] theorem advanced_drive (i : Instr) (b : Block) : (advanced i b).drive = b.drive := by
  unfold advanced
  split
  · simp
  · rfl

theorem stretch_drv {i : Instr} {env : List (Level × Bool)} {b : Block} {l : Level} {n : Nat} {ph : Phase}
    (he : (expand i)[b.upc]? = some ⟨.drv l n, ph⟩) (hb : b.busy = true) (hc : b.cnt = 0) (hn : 2 ≤ n)
    (hlen : env.length = n) :
    Stretch i env b (advanced i { b with oe := .output, out := l }) (List.replicate n (pinDrive .output l)) := by
  have h := stretch_ticks (i := i) (env := env) (b := b) (B := fun c => { b with oe := .output, out := l, cnt := c })
    (fin := fun _ => advanced i { b with oe := .output, out := l }) (d := pinDrive .output l) hn hlen hb
    (fun x => by
      rw [blkTick_entry hb he]
      simp only [MicroOp.tick, Block.tickDrv, Block.countTo]
      rw [if_neg (by simp only [hc]; omega)]
      simp [Block.stay, hc])
    (fun c x h => by
      rw [blkTick_entry (en := ⟨.drv l n, ph⟩) (by simpa using hb) (by simpa using he)]
      simp only [MicroOp.tick, Block.tickDrv, Block.countTo]
      rw [if_neg (by omega)]
      simp [Block.stay])
    (fun x => by
      rw [blkTick_entry (en := ⟨.drv l n, ph⟩) (by simpa using hb) (by simpa using he)]
      simp only [MicroOp.tick, Block.tickDrv, Block.countTo]
      rw [if_pos (by omega), advance_eq_advanced]
      exact advanced_cnt i { b with oe := .output, out := l } (n - 1))
    (fun c => hb) (fun c => rfl) (fun x => advanced_drive ..)
  obtain ⟨x, -, h⟩ := h
  exact h

theorem stretch_rls {i : Instr} {env : List (Level × Bool)} {b : Block} {n : Nat} {ph : Phase}
    (he : (expand i)[b.upc]? = some ⟨.rls n, ph⟩) (hb : b.busy = true) (hc : b.cnt = 0) (hn : 2 ≤ n)
    (hlen : env.length = n) :
    Stretch i env b (advanced i { b with oe := .input }) (List.replicate n .released) := by
  have h := stretch_ticks (i := i) (env := env) (b := b) (B := fun c => { b with oe := .input, cnt := c })
    (fin := fun _ => advanced i { b with oe := .input }) (d := .released) hn hlen hb
    (fun x => by
      rw [blkTick_entry hb he]
      simp only [MicroOp.tick, Block.tickRls, Block.countTo]
      rw [if_neg (by simp only [hc]; omega)]
      simp [Block.stay, hc])
    (fun c x h => by
      rw [blkTick_entry (en := ⟨.rls n, ph⟩) (by simpa using hb) (by simpa using he)]
      simp only [MicroOp.tick, Block.tickRls, Block.countTo]
      rw [if_neg (by omega)]
      simp [Block.stay])
    (fun x => by
      rw [blkTick_entry (en := ⟨.rls n, ph⟩) (by simpa using hb) (by simpa using he)]
      simp only [MicroOp.tick, Block.tickRls, Block.countTo]
      rw [if_pos (by omega), advance_eq_advanced]
      exact advanced_cnt i { b with oe := .input } (n - 1))
    (fun c => hb) (fun c => rfl) (fun x => advanced_drive ..)
  obtain ⟨x, -, h⟩ := h
  exact h

theorem stretch_smp {i : Instr} {env : List (Level × Bool)} {b : Block} {n : Nat} {j : Fin 16} {ph : Phase}
    (he : (expand i)[b.upc]? = some ⟨.smp n j, ph⟩) (hb : b.busy = true) (hc : b.cnt = 0) (hn : 2 ≤ n)
    (hlen : env.length = n) :
    ∃ x, env[n - 1]? = some x ∧
      Stretch i env b (advanced i { b with oe := .input, shr := setBit b.shr j x.1.bit }) (List.replicate n .released) :=
  stretch_ticks (i := i) (env := env) (b := b) (B := fun c => { b with oe := .input, cnt := c })
    (fin := fun x => advanced i { b with oe := .input, shr := setBit b.shr j x.1.bit }) (d := .released) hn hlen hb
    (fun x => by
      rw [blkTick_entry hb he]
      simp only [MicroOp.tick, Block.tickSmp]
      rw [if_neg (by simp only [hc]; omega)]
      simp [Block.stay, hc])
    (fun c x h => by
      rw [blkTick_entry (en := ⟨.smp n j, ph⟩) (by simpa using hb) (by simpa using he)]
      simp only [MicroOp.tick, Block.tickSmp]
      rw [if_neg (by omega)]
      simp [Block.stay])
    (fun x => by
      rw [blkTick_entry (en := ⟨.smp n j, ph⟩) (by simpa using hb) (by simpa using he)]
      simp only [MicroOp.tick, Block.tickSmp]
      rw [if_pos (by omega), advance_eq_advanced]
      exact advanced_cnt i { b with oe := .input, shr := setBit b.shr j x.1.bit } (n - 1))
    (fun c => hb) (fun c => rfl) (fun x => advanced_drive ..)

/-- The micro-operation that waits for a level (40_micro_ops.md R85 and R86). -/
def waitOp (want : Level) (max : Nat) (code : ErrCode) : MicroOp :=
  match want with
  | .low => .waitL max code
  | .high => .waitH max code

theorem waitOp_tick (want : Level) (max : Nat) (code : ErrCode) (len : Nat) (r : ResultKind) (dq : Level) (ok : Bool)
    (b : Block) : (waitOp want max code).tick len r dq ok b = b.tickWait want max code dq len r := by
  cases want <;> rfl

theorem stretch_wait_met {i : Instr} {k : Nat} {env : List (Level × Bool)} {b : Block} {want other : Level} {max : Nat}
    {code : ErrCode} {ph : Phase} (ho : other ≠ want)
    (he : (expand i)[b.upc]? = some ⟨waitOp want max code, ph⟩) (hb : b.busy = true) (hk : b.cnt + k + 1 ≤ max)
    (henv : env.map Prod.fst = List.replicate k other ++ [want]) :
    Stretch i env b (advanced i { b with oe := .input }) (List.replicate (k + 1) .released) := by
  induction k generalizing env b with
  | zero =>
    obtain ⟨x, rfl, hx⟩ : ∃ x, env = [x] ∧ x.1 = want := by
      rw [List.replicate_zero, List.nil_append, List.map_eq_singleton_iff] at henv
      exact henv
    refine (stretch_one hb ?_).congr rfl (congrArg (fun d => [d]) (advanced_drive ..))
    rw [blkTick_entry hb he, waitOp_tick, Block.tickWait, if_pos hx, advance_eq_advanced]
  | succ k ih =>
    obtain ⟨x, xs, rfl, hx, hxs⟩ : ∃ x xs, env = x :: xs ∧ x.1 = other ∧
        xs.map Prod.fst = List.replicate k other ++ [want] := by
      rw [List.replicate_succ, List.cons_append, List.map_eq_cons_iff] at henv
      exact henv
    have h1 : blkTick i x b = { b with oe := .input, cnt := b.cnt + 1 } := by
      rw [blkTick_entry hb he, waitOp_tick, Block.tickWait, if_neg (by rw [hx]; exact ho), if_neg (by omega)]
      rfl
    refine ((stretch_one hb h1).append (ih (b := { b with oe := .input, cnt := b.cnt + 1 }) (by simpa using he)
      (by simpa using hb) (by simp only; omega) hxs)).congr (advanced_cnt i { b with oe := .input } (b.cnt + 1)) ?_
    rw [List.replicate_succ (n := k + 1)]
    rfl

theorem stretch_wait_failed {i : Instr} {k : Nat} {env : List (Level × Bool)} {b : Block} {want other : Level}
    {max : Nat} {code : ErrCode} {ph : Phase} (ho : other ≠ want)
    (he : (expand i)[b.upc]? = some ⟨waitOp want max code, ph⟩) (hb : b.busy = true) (hk : b.cnt + (k + 1) = max)
    (henv : env.map Prod.fst = List.replicate (k + 1) other) :
    Stretch i env b (({ b with oe := .input } : Block).abort code) (List.replicate (k + 1) .released) := by
  induction k generalizing env b with
  | zero =>
    obtain ⟨x, rfl, hx⟩ : ∃ x, env = [x] ∧ x.1 = other := by
      rw [List.replicate_succ, List.replicate_zero, List.map_eq_singleton_iff] at henv
      exact henv
    refine (stretch_one hb ?_).congr rfl rfl
    rw [blkTick_entry hb he, waitOp_tick, Block.tickWait, if_neg (by rw [hx]; exact ho), if_pos (by omega)]
  | succ k ih =>
    obtain ⟨x, xs, rfl, hx, hxs⟩ : ∃ x xs, env = x :: xs ∧ x.1 = other ∧
        xs.map Prod.fst = List.replicate (k + 1) other := by
      rw [List.replicate_succ, List.map_eq_cons_iff] at henv
      exact henv
    have h1 : blkTick i x b = { b with oe := .input, cnt := b.cnt + 1 } := by
      rw [blkTick_entry hb he, waitOp_tick, Block.tickWait, if_neg (by rw [hx]; exact ho), if_neg (by omega)]
      rfl
    refine ((stretch_one hb h1).append (ih (b := { b with oe := .input, cnt := b.cnt + 1 }) (by simpa using he)
      (by simpa using hb) (by simp only; omega) hxs)).congr rfl ?_
    rw [List.replicate_succ (n := k + 1)]
    rfl

theorem stretch_cfg {i : Instr} {x : Level × Bool} {b : Block} {ph : Phase} (he : (expand i)[b.upc]? = some ⟨.cfg, ph⟩)
    (hb : b.busy = true) (hx : x.2 = true) :
    Stretch i [x] b (advanced i { b with clken := true, pu := true, oe := .output, out := .high }) [.high] := by
  refine (stretch_one hb ?_).congr rfl (congrArg (fun d => [d]) (advanced_drive ..))
  rw [blkTick_entry hb he]
  simp only [MicroOp.tick, Block.tickCfg, hx, if_pos, advance_eq_advanced]

/-! ### Stretches of whole sub-lists -/

/-- The block at the start of entry `k`, or at the end of the command if the list has no entry `k`. -/
def atEntry (i : Instr) (k : Nat) (b : Block) : Block :=
  if k = (expand i).length then finished i b else { b with upc := k, cnt := 0 }

theorem advanced_eq_atEntry (i : Instr) (b : Block) : advanced i b = atEntry i (b.upc + 1) b := rfl

theorem atEntry_lt {i : Instr} {k : Nat} (b : Block) (h : k < (expand i).length) :
    atEntry i k b = { b with upc := k, cnt := 0 } := by
  rw [atEntry, if_neg (by omega)]

theorem atEntry_end {i : Instr} {k : Nat} (b : Block) (h : k = (expand i).length) : atEntry i k b = finished i b := by
  rw [atEntry, if_pos h]

theorem atEntry_upc (i : Instr) (k : Nat) (b : Block) (u c : Nat) :
    atEntry i k { b with upc := u, cnt := c } = atEntry i k b := by
  unfold atEntry
  cases i <;> rfl

@[simp] theorem atEntry_drive (i : Instr) (k : Nat) (b : Block) : (atEntry i k b).drive = b.drive := by
  unfold atEntry
  split
  · simp
  · rfl

/-- The list of a command holds `seg` from entry `k` on. -/
def HasAt (i : Instr) (k : Nat) (seg : List Entry) : Prop :=
  ∀ j, j < seg.length → (expand i)[k + j]? = seg[j]?

theorem HasAt.left {i : Instr} {k : Nat} {xs ys : List Entry} (h : HasAt i k (xs ++ ys)) : HasAt i k xs := by
  intro j hj
  rw [h j (by simp; omega), List.getElem?_append_left hj]

theorem HasAt.right {i : Instr} {k : Nat} {xs ys : List Entry} (h : HasAt i k (xs ++ ys)) :
    HasAt i (k + xs.length) ys := by
  intro j hj
  have := h (xs.length + j) (by simp; omega)
  rw [Nat.add_assoc, this, List.getElem?_append_right (by omega)]
  congr 1
  omega

theorem HasAt.lt {i : Instr} {k : Nat} {e : Entry} {seg : List Entry} (h : HasAt i k (e :: seg)) :
    k < (expand i).length := by
  have h0 := h 0 (by simp)
  rw [Nat.add_zero, List.getElem?_cons_zero] at h0
  exact (List.getElem?_eq_some_iff.mp h0).1

theorem HasAt.head {i : Instr} {k : Nat} {e : Entry} {seg : List Entry} (h : HasAt i k (e :: seg)) :
    (expand i)[k]? = some e := by
  simpa using h 0 (by simp)

theorem HasAt.tail {i : Instr} {k : Nat} {e : Entry} {seg : List Entry} (h : HasAt i k (e :: seg)) :
    HasAt i (k + 1) seg := HasAt.right (xs := [e]) h

theorem hasAt_self (i : Instr) : HasAt i 0 (expand i) := by
  intro j _
  rw [Nat.zero_add]

/-- Two `DRV` in a row, as in a reset pulse and in a write slot. -/
theorem stretch_drv_pair {i : Instr} {env : List (Level × Bool)} {b : Block} {k n m : Nat} {ph ph' : Phase} {l l' : Level}
    (h : HasAt i k [⟨.drv l n, ph⟩, ⟨.drv l' m, ph'⟩]) (hk : b.upc = k) (hb : b.busy = true) (hc : b.cnt = 0)
    (hn : 2 ≤ n) (hm : 2 ≤ m) (hlen : env.length = n + m) :
    Stretch i env b (atEntry i (k + 2) { b with oe := .output, out := l' })
      (List.replicate n (pinDrive .output l) ++ List.replicate m (pinDrive .output l')) := by
  subst hk
  have h1 := stretch_drv (env := env.take n) (h.head) hb hc hn (by simp; omega)
  rw [advanced_eq_atEntry, atEntry_lt _ h.tail.lt] at h1
  have h2 := stretch_drv (env := env.drop n) (b := { b with oe := .output, out := l, upc := b.upc + 1, cnt := 0 })
    h.tail.head (by simpa using hb) rfl hm (by simp; omega)
  have h3 := h1.append h2
  rw [List.take_append_drop, advanced_eq_atEntry] at h3
  rw [← atEntry_upc i (b.upc + 2) { b with oe := .output, out := l' } (b.upc + 1) 0]
  exact h3

/-- `Reset()` (40_micro_ops.md R81, 30_encoding.md R71). -/
theorem stretch_resetPulse {i : Instr} {env : List (Level × Bool)} {b : Block} {k : Nat}
    (h : HasAt i k (resetPulse Config.timing)) (hk : b.upc = k) (hb : b.busy = true) (hc : b.cnt = 0)
    (hlen : env.length = 765) :
    Stretch i env b (atEntry i (k + 2) { b with oe := .output, out := .high }) (wave [(.low, 750), (.high, 15)]) :=
  (stretch_drv_pair h hk hb hc (by decide) (by decide) hlen).congr rfl (by rfl)

/-- The ticks of a write slot (30_encoding.md R68 and R69). -/
def slotTicks (b : Bool) : Nat := if b then 68 else 72

theorem stretch_wBit {i : Instr} {bit : Bool} {env : List (Level × Bool)} {b : Block} {k : Nat}
    (h : HasAt i k (wBit Config.timing bit)) (hk : b.upc = k) (hb : b.busy = true) (hc : b.cnt = 0)
    (hlen : env.length = slotTicks bit) :
    Stretch i env b (atEntry i (k + 2) { b with oe := .output, out := .high }) (slotWave bit) := by
  cases bit
  · exact (stretch_drv_pair h hk hb hc (by decide) (by decide) hlen).congr rfl (by rfl)
  · exact (stretch_drv_pair h hk hb hc (by decide) (by decide) hlen).congr rfl (by rfl)

theorem wBit_ne_nil (bit : Bool) : ∃ e es, wBit Config.timing bit = e :: es := by cases bit <;> exact ⟨_, _, rfl⟩

theorem wBit_length (bit : Bool) : (wBit Config.timing bit).length = 2 := by cases bit <;> rfl

theorem stretch_wBits {i : Instr} {bits : List Bool} {env : List (Level × Bool)} {b : Block} {k : Nat} (hne : bits ≠ [])
    (h : HasAt i k (bits.flatMap (wBit Config.timing))) (hk : b.upc = k) (hb : b.busy = true) (hc : b.cnt = 0)
    (hlen : env.length = (bits.map slotTicks).sum) :
    Stretch i env b (atEntry i (k + 2 * bits.length) { b with oe := .output, out := .high })
      (bits.flatMap slotWave) := by
  induction bits generalizing env b k with
  | nil => exact absurd rfl hne
  | cons bit bits ih =>
    rw [List.flatMap_cons] at h
    by_cases hbits : bits = []
    · subst hbits
      simpa using stretch_wBit h.left hk hb hc (by simpa using hlen)
    · simp only [List.map_cons, List.sum_cons] at hlen
      have h1 := stretch_wBit (env := env.take (slotTicks bit)) h.left hk hb hc (by simp; omega)
      have hr := h.right
      rw [wBit_length] at hr
      have hlt : k + 2 < (expand i).length := by
        obtain ⟨bit', bits', rfl⟩ := List.exists_cons_of_ne_nil hbits
        obtain ⟨e, es, hw⟩ := wBit_ne_nil bit'
        rw [List.flatMap_cons, hw, List.cons_append] at hr
        exact hr.lt
      rw [atEntry_lt _ hlt] at h1
      have h2 := ih (env := env.drop (slotTicks bit))
        (b := { b with oe := .output, out := .high, upc := k + 2, cnt := 0 }) hbits hr rfl (by simpa using hb) rfl
        (by simp; omega)
      have h3 := h1.append h2
      rw [List.take_append_drop] at h3
      refine h3.congr ?_ (by rw [List.flatMap_cons])
      rw [show k + 2 + 2 * bits.length = k + 2 * (bit :: bits).length by simp; omega]
      exact atEntry_upc i _ { b with oe := .output, out := .high } (k + 2) 0

theorem slotTicks_sum (bits : List Bool) :
    (bits.map slotTicks).sum = 68 * bits.count true + 72 * (bits.length - bits.count true) := by
  induction bits with
  | nil => rfl
  | cons bit bits ih =>
    have := List.count_le_length (a := true) (l := bits)
    cases bit <;> simp [ih, slotTicks] <;> omega

theorem ones_le (v : Byte) : ones v ≤ 8 := List.count_le_length (l := byteBits v)

/-- `WByte(v)` (40_micro_ops.md R81, 30_encoding.md R72). -/
theorem stretch_wByte {i : Instr} {v : Byte} {env : List (Level × Bool)} {b : Block} {k : Nat}
    (h : HasAt i k (wByte Config.timing v)) (hk : b.upc = k) (hb : b.busy = true) (hc : b.cnt = 0)
    (hlen : env.length = 68 * ones v + 72 * (8 - ones v)) :
    Stretch i env b (atEntry i (k + 16) { b with oe := .output, out := .high }) (byteWave v) :=
  stretch_wBits (bits := byteBits v) (by simp [byteBits]) h hk hb hc (by rw [hlen, slotTicks_sum]; rfl)

/-- `RBit(j)` (40_micro_ops.md R81, 30_encoding.md R70): the sample is on tick 14. -/
theorem stretch_rBit {i : Instr} {j : Fin 16} {env : List (Level × Bool)} {b : Block} {k : Nat}
    (h : HasAt i k (rBit Config.timing j)) (hk : b.upc = k) (hb : b.busy = true) (hc : b.cnt = 0)
    (hlen : env.length = 60) :
    ∃ x, env[14]? = some x ∧
      Stretch i env b (atEntry i (k + 3) { b with oe := .input, out := .low, shr := setBit b.shr j x.1.bit })
        (wave [(.low, 10), (.released, 50)]) := by
  subst hk
  have h1 := stretch_drv (env := env.take 10) h.head hb hc (by decide) (by simp [Config.timing]; omega)
  rw [advanced_eq_atEntry, atEntry_lt _ h.tail.lt] at h1
  obtain ⟨x, hx, h2⟩ := stretch_smp (env := (env.drop 10).take 5)
    (b := { b with oe := .output, out := .low, upc := b.upc + 1, cnt := 0 }) h.tail.head (by simpa using hb) rfl
    (by decide) (by simp [Config.timing]; omega)
  rw [advanced_eq_atEntry, atEntry_lt _ h.tail.tail.lt] at h2
  have h3 := stretch_rls (env := (env.drop 10).drop 5)
    (b := { b with oe := .input, out := .low, shr := setBit b.shr j x.1.bit, upc := b.upc + 2, cnt := 0 })
    h.tail.tail.head (by simpa using hb) rfl (by decide) (by simp [Config.timing]; omega)
  refine ⟨x, ?_, ?_⟩
  · simpa [Config.timing, List.getElem?_take, List.getElem?_drop] using hx
  · have h4 := h1.append (h2.append h3)
    rw [List.take_append_drop, List.take_append_drop, advanced_eq_atEntry] at h4
    refine h4.congr ?_ (by rfl)
    exact atEntry_upc i (b.upc + 3) { b with oe := .input, out := .low, shr := setBit b.shr j x.1.bit } (b.upc + 2) 0

/-- The bits that read slots of 60 ticks put into the shift register. -/
def sampleAll : List (Fin 16) → List (Level × Bool) → Half → Half
  | [], _, v => v
  | j :: js, env, v => sampleAll js (env.drop 60) (setBit v j (((env[14]?).map fun e => e.1.bit).getD false))

theorem stretch_rBits {i : Instr} {js : List (Fin 16)} {env : List (Level × Bool)} {b : Block} {k : Nat} (hne : js ≠ [])
    (h : HasAt i k (js.flatMap (rBit Config.timing))) (hk : b.upc = k) (hb : b.busy = true) (hc : b.cnt = 0)
    (hlen : env.length = 60 * js.length) :
    Stretch i env b
      (atEntry i (k + 3 * js.length) { b with oe := .input, out := .low, shr := sampleAll js env b.shr })
      (List.replicate js.length (wave [(.low, 10), (.released, 50)])).flatten := by
  induction js generalizing env b k with
  | nil => exact absurd rfl hne
  | cons j js ih =>
    rw [List.flatMap_cons] at h
    simp only [List.length_cons] at hlen
    obtain ⟨x, hx, h1⟩ := stretch_rBit (env := env.take 60) h.left hk hb hc (by simp; omega)
    have hx' : env[14]? = some x := by simpa [List.getElem?_take] using hx
    by_cases hjs : js = []
    · subst hjs
      rw [List.take_of_length_le (by simp at hlen; omega)] at h1
      simpa [sampleAll, hx'] using h1
    · have hr : HasAt i (k + 3) (js.flatMap (rBit Config.timing)) := h.right
      have hlt : k + 3 < (expand i).length := by
        obtain ⟨j', js', rfl⟩ := List.exists_cons_of_ne_nil hjs
        rw [List.flatMap_cons] at hr
        exact HasAt.lt (e := ⟨.drv .low Config.timing.rdL, .dataPhase⟩) hr
      rw [atEntry_lt _ hlt] at h1
      have h2 := ih (env := env.drop 60)
        (b := { b with oe := .input, out := .low, shr := setBit b.shr j x.1.bit, upc := k + 3, cnt := 0 }) hjs hr rfl
        (by simpa using hb) rfl (by simp; omega)
      have h3 := h1.append h2
      rw [List.take_append_drop] at h3
      refine h3.congr ?_ (by rw [List.length_cons, List.replicate_succ, List.flatten_cons])
      rw [show k + 3 + 3 * js.length = k + 3 * (j :: js).length by simp; omega]
      simp only [sampleAll, hx', Option.map_some, Option.getD_some]
      exact atEntry_upc i _ { b with oe := .input, out := .low, shr := sampleAll js (env.drop 60) (setBit b.shr j x.1.bit) }
        (k + 3) 0

@[simp] theorem pulseLine_length (k m : Nat) : (pulseLine k m).length = k + m + 2 := by
  simp [pulseLine]
  omega

@[simp] theorem absentLine_length : absentLine.length = 100 := List.length_replicate

@[simp] theorem stuckLine_length (k : Nat) : (stuckLine k).length = k + 241 := by
  rw [stuckLine, List.length_append, List.length_replicate, List.length_replicate]

theorem length_of_line {env : List (Level × Bool)} {l : List Level} (h : env.map Prod.fst = l) :
    env.length = l.length := by rw [← h, List.length_map]

theorem wave_one (d : Drive) (n : Nat) : wave [(d, n)] = List.replicate n d := by simp [wave]

theorem split_line {env : List (Level × Bool)} {k : Nat} {l : Level} {rest : List Level}
    (h : env.map Prod.fst = List.replicate k .high ++ l :: rest) :
    (env.take (k + 1)).map Prod.fst = List.replicate k .high ++ [l] ∧ (env.drop (k + 1)).map Prod.fst = rest := by
  rw [List.map_take, List.map_drop, h]
  constructor
  · simp [List.take_append]
  · simp [List.drop_append]

/-- `Presence()` on a pulse in time (41_bus_primitives.md R102). -/
theorem stretch_presence_met {i : Instr} {env : List (Level × Bool)} {b : Block} {k p m : Nat}
    (h : HasAt i p (presence Config.timing)) (hp : b.upc = p) (hb : b.busy = true) (hc : b.cnt = 0) (hk : k ≤ 99)
    (hm : m ≤ 239) (henv : env.map Prod.fst = pulseLine k m) :
    Stretch i env b (atEntry i (p + 2) { b with oe := .input }) (List.replicate (k + m + 2) .released) := by
  subst hp
  have hsplit := split_line (rest := List.replicate m .low ++ [.high]) henv
  have h1 := stretch_wait_met (k := k) (env := env.take (k + 1)) (want := .low) (other := .high) (by decide) h.head hb
    (by simp [Config.timing, hc]; omega) hsplit.1
  rw [advanced_eq_atEntry, atEntry_lt _ h.tail.lt] at h1
  have h2 := stretch_wait_met (k := m) (env := env.drop (k + 1)) (want := .high) (other := .low)
    (b := { b with oe := .input, upc := b.upc + 1, cnt := 0 }) (by decide) h.tail.head (by simpa using hb)
    (by simp [Config.timing]; omega) hsplit.2
  have h3 := h1.append h2
  rw [List.take_append_drop, advanced_eq_atEntry] at h3
  refine h3.congr (atEntry_upc i (b.upc + 2) { b with oe := .input } (b.upc + 1) 0) ?_
  rw [← List.replicate_add]
  congr 1
  omega

/-- `Presence()` with no pulse (41_bus_primitives.md R102). -/
theorem stretch_presence_absent {i : Instr} {env : List (Level × Bool)} {b : Block} {p : Nat}
    (h : HasAt i p (presence Config.timing)) (hp : b.upc = p) (hb : b.busy = true) (hc : b.cnt = 0)
    (henv : env.map Prod.fst = absentLine) :
    Stretch i env b (({ b with oe := .input } : Block).abort .noDevicePresent) (List.replicate 100 .released) := by
  subst hp
  exact stretch_wait_failed (k := 99) (want := .low) (other := .high) (by decide) h.head hb
    (by simp [Config.timing, hc]) henv

/-- `Presence()` with a pulse that is too long (41_bus_primitives.md R102). -/
theorem stretch_presence_stuck {i : Instr} {env : List (Level × Bool)} {b : Block} {k p : Nat}
    (h : HasAt i p (presence Config.timing)) (hp : b.upc = p) (hb : b.busy = true) (hc : b.cnt = 0) (hk : k ≤ 99)
    (henv : env.map Prod.fst = stuckLine k) :
    Stretch i env b (({ b with oe := .input } : Block).abort .presencePulseInvalid)
      (List.replicate (k + 241) .released) := by
  subst hp
  have hsplit := split_line (rest := List.replicate 240 .low) henv
  have h1 := stretch_wait_met (k := k) (env := env.take (k + 1)) (want := .low) (other := .high) (by decide) h.head hb
    (by simp [Config.timing, hc]; omega) hsplit.1
  rw [advanced_eq_atEntry, atEntry_lt _ h.tail.lt] at h1
  have h2 := stretch_wait_failed (k := 239) (env := env.drop (k + 1)) (want := .high) (other := .low)
    (b := { b with oe := .input, upc := b.upc + 1, cnt := 0 }) (by decide) h.tail.head (by simpa using hb)
    (by simp [Config.timing]) hsplit.2
  have h3 := h1.append h2
  rw [List.take_append_drop] at h3
  refine h3.congr rfl ?_
  rw [← List.replicate_add]

/-- A bit that no slot samples stays as it was (40_micro_ops.md R84). -/
theorem sampleAll_other {js : List (Fin 16)} {j : Nat} (h : ∀ x ∈ js, x.val ≠ j) (env : List (Level × Bool)) (v : Half) :
    (sampleAll js env v).getLsbD j = v.getLsbD j := by
  induction js generalizing env v with
  | nil => rfl
  | cons x xs ih =>
    rw [sampleAll, ih (fun y hy => h y (List.mem_cons_of_mem _ hy)), getLsbD_setBit,
      if_neg (fun e => h x List.mem_cons_self e.symm)]

/-- The bit that slot `k` samples is the level of the line on tick 14 of that slot (30_encoding.md R70). -/
theorem sampleAll_at {js : List (Fin 16)} {k : Nat} {j : Fin 16} (hn : js.Nodup) (hk : js[k]? = some j)
    (env : List (Level × Bool)) (v : Half) :
    (sampleAll js env v).getLsbD j.val = ((env[60 * k + 14]?).map fun e => e.1.bit).getD false := by
  induction js generalizing env v k with
  | nil => cases hk
  | cons x xs ih =>
    obtain ⟨hx, hxs⟩ := List.nodup_cons.mp hn
    cases k with
    | zero =>
      cases hk
      rw [sampleAll, sampleAll_other (fun y hy e => hx (by rwa [← (Fin.ext e : y = _)])), getLsbD_setBit, if_pos rfl]
    | succ k =>
      rw [sampleAll, ih hxs (by simpa using hk), List.getElem?_drop]
      congr 3
      omega

/-- From a bit that was sampled back to the level it was sampled from. -/
theorem level_of_sampledBit {env : List (Level × Bool)} {n : Nat} {b : Bool} (hn : n < env.length)
    (h : b = ((env[n]?).map fun e => e.1.bit).getD false) :
    (env[n]?).map Prod.fst = some (if b then Level.high else .low) := by
  rw [List.getElem?_eq_getElem hn] at *
  rw [h]
  cases h : env[n].1 <;> simp [h, Level.bit]

theorem wave_append (a b : List (Drive × Nat)) : wave a ++ wave b = wave (a ++ b) := List.flatMap_append.symm

/-- A reset pulse and a presence check that succeeds. -/
theorem stretch_resetPresence_met {i : Instr} {env1 env2 : List (Level × Bool)} {b : Block} {p k m : Nat}
    (h : HasAt i p (resetPulse Config.timing ++ presence Config.timing)) (hp : b.upc = p) (hb : b.busy = true)
    (hc : b.cnt = 0) (hl : env1.length = 765) (hk : k ≤ 99) (hm : m ≤ 239) (he : env2.map Prod.fst = pulseLine k m) :
    Stretch i (env1 ++ env2) b (atEntry i (p + 4) { b with oe := .input, out := .high })
      (wave [(.low, 750), (.high, 15), (.released, k + m + 2)]) := by
  have h1 := stretch_resetPulse h.left hp hb hc hl
  have hr : HasAt i (p + 2) (presence Config.timing) := h.right
  rw [atEntry_lt _ (HasAt.lt hr)] at h1
  have h2 := stretch_presence_met (b := { b with oe := .output, out := .high, upc := p + 2, cnt := 0 }) hr rfl hb rfl hk hm he
  refine (h1.append h2).congr ?_ ?_
  · exact atEntry_upc i (p + 4) { b with oe := .input, out := .high } (p + 2) 0
  · rw [← wave_one, wave_append]; rfl

/-- A reset pulse and a presence check that finds no device. -/
theorem stretch_resetPresence_absent {i : Instr} {env1 env2 : List (Level × Bool)} {b : Block} {p : Nat}
    (h : HasAt i p (resetPulse Config.timing ++ presence Config.timing)) (hp : b.upc = p) (hb : b.busy = true)
    (hc : b.cnt = 0) (hl : env1.length = 765) (he : env2.map Prod.fst = absentLine) :
    Stretch i (env1 ++ env2) b (({ b with oe := .input, out := .high } : Block).abort .noDevicePresent)
      (wave [(.low, 750), (.high, 15), (.released, 100)]) := by
  have h1 := stretch_resetPulse h.left hp hb hc hl
  have hr : HasAt i (p + 2) (presence Config.timing) := h.right
  rw [atEntry_lt _ (HasAt.lt hr)] at h1
  have h2 := stretch_presence_absent (b := { b with oe := .output, out := .high, upc := p + 2, cnt := 0 }) hr rfl hb rfl he
  refine (h1.append h2).congr rfl ?_
  rw [← wave_one, wave_append]; rfl

/-- A reset pulse and a presence check whose pulse is too long. -/
theorem stretch_resetPresence_stuck {i : Instr} {env1 env2 : List (Level × Bool)} {b : Block} {p k : Nat}
    (h : HasAt i p (resetPulse Config.timing ++ presence Config.timing)) (hp : b.upc = p) (hb : b.busy = true)
    (hc : b.cnt = 0) (hl : env1.length = 765) (hk : k ≤ 99) (he : env2.map Prod.fst = stuckLine k) :
    Stretch i (env1 ++ env2) b (({ b with oe := .input, out := .high } : Block).abort .presencePulseInvalid)
      (wave [(.low, 750), (.high, 15), (.released, k + 241)]) := by
  have h1 := stretch_resetPulse h.left hp hb hc hl
  have hr : HasAt i (p + 2) (presence Config.timing) := h.right
  rw [atEntry_lt _ (HasAt.lt hr)] at h1
  have h2 :=
    stretch_presence_stuck (b := { b with oe := .output, out := .high, upc := p + 2, cnt := 0 }) hr rfl hb rfl hk he
  refine (h1.append h2).congr rfl ?_
  rw [← wave_one, wave_append]; rfl

/-- A reset pulse, a presence check that succeeds and one written byte. -/
theorem stretch_skipRom {i : Instr} {env1 env2 env3 : List (Level × Bool)} {b : Block} {p k m : Nat} {v : Byte}
    (h : HasAt i p (resetPulse Config.timing ++ presence Config.timing ++ wByte Config.timing v)) (hp : b.upc = p)
    (hb : b.busy = true) (hc : b.cnt = 0) (hl : env1.length = 765) (hk : k ≤ 99) (hm : m ≤ 239) (he : env2.map Prod.fst = pulseLine k m)
    (hl3 : env3.length = 68 * ones v + 72 * (8 - ones v)) (hlt : p + 4 < (expand i).length) :
    Stretch i (env1 ++ env2 ++ env3) b (atEntry i (p + 20) { b with oe := .output, out := .high })
      (wave [(.low, 750), (.high, 15), (.released, k + m + 2)] ++ byteWave v) := by
  have h1 := stretch_resetPresence_met h.left hp hb hc hl hk hm he
  rw [atEntry_lt _ hlt] at h1
  have h2 := stretch_wByte (b := { b with oe := .input, out := .high, upc := p + 4, cnt := 0 }) h.right (by rfl) hb rfl hl3
  refine (h1.append h2).congr ?_ rfl
  exact atEntry_upc i (p + 20) { b with oe := .output, out := .high } (p + 4) 0

theorem skipRomSeq_eq :
    skipRomSeq Config.timing = resetPulse Config.timing ++ presence Config.timing ++ wByte Config.timing 0xCC#8 := rfl

/-- `SkipRom() ++ WByte(v)` where the presence check succeeds (40_micro_ops.md R81). -/
theorem stretch_skipByte {i : Instr} {env1 env2 env3 : List (Level × Bool)} {b : Block} {p k m : Nat} {v : Byte}
    (h : HasAt i p (skipRomSeq Config.timing ++ wByte Config.timing v)) (hp : b.upc = p) (hb : b.busy = true)
    (hc : b.cnt = 0) (hl : env1.length = 765) (hk : k ≤ 99) (hm : m ≤ 239) (he : env2.map Prod.fst = pulseLine k m)
    (hl3 : env3.length = 560 + (68 * ones v + 72 * (8 - ones v))) (hlt : p + 20 < (expand i).length) :
    Stretch i (env1 ++ env2 ++ env3) b (atEntry i (p + 36) { b with oe := .output, out := .high })
      (wave [(.low, 750), (.high, 15), (.released, k + m + 2)] ++ byteWave 0xCC#8 ++ byteWave v) := by
  have h1 := stretch_skipRom (env3 := env3.take 560) h.left hp hb hc hl hk hm he
    (by rw [List.length_take, show 68 * ones Config.wbSkipRom + 72 * (8 - ones Config.wbSkipRom) = 560 by decide]; omega) (by omega)
  rw [atEntry_lt _ hlt] at h1
  have h2 := stretch_wByte (env := env3.drop 560) (b := { b with oe := .output, out := .high, upc := p + 20, cnt := 0 })
    h.right (by rfl) hb rfl (by rw [List.length_drop]; omega)
  have h3 := h1.append h2
  rw [List.append_assoc _ (env3.take 560), List.take_append_drop] at h3
  refine h3.congr ?_ rfl
  exact atEntry_upc i (p + 36) { b with oe := .output, out := .high } (p + 20) 0

theorem expand_writeByte_length (v : Byte) : (expand (.writeByte v)).length = 16 := by
  simp [expand, expandWith, wByte, byteBits, wBit_length]

theorem expand_readTemperature_length : (expand .readTemperature).length = 120 := by decide

/-- The list of `READ_TEMPERATURE` in three parts (42_sensor_sequences.md R122). -/
theorem hasAt_readTemperature : HasAt .readTemperature 0 ((skipRomSeq Config.timing ++ wByte Config.timing 0x44#8) ++
    ((skipRomSeq Config.timing ++ wByte Config.timing 0xBE#8) ++
      ([0, 1, 2, 3, 4, 5, 6, 7, 8, 9, 10, 11, 12, 13, 14, 15] : List (Fin 16)).flatMap (rBit Config.timing))) :=
  hasAt_self .readTemperature

end Sys2Proof.Machine
end

