-- ==== Sys2Proof/Laws/Steps.lean ====
section
/-! SUPPORT. What the entries of the lists can be, everything a tick can do to the block in full, and everything a step
can do to the block: the lemmas from which statements about one register over every step follow. -/

namespace Sys2Proof.Machine

/-- Every entry of a written byte drives the pin (40_micro_ops.md R81). -/
theorem wByte_entry {v : Byte} {e : Entry} (h : e ∈ wByte Config.timing v) :
    ∃ l n, e = ⟨.drv l n, .commandPhase⟩ ∧ 2 ≤ n ∧ n ≤ 70 := by
  obtain ⟨b, -, hb⟩ := List.mem_flatMap.mp h
  cases b <;> simp [wBit, Config.timing] at hb <;> rcases hb with rfl | rfl <;>
    exact ⟨_, _, rfl, by decide, by decide⟩

/-- The commands that hold a presence check. -/
def checksPresence (i : Instr) : Prop :=
  i = .checkPresence ∨ i = .skipRom ∨ i = .startConversion ∨ i = .readTemperature ∨ i = .init

/-- Where the micro-operations that can abort stand, and with which ceilings and codes (40_micro_ops.md R81). -/
theorem aborting_entry {i : Instr} {e : Entry} (he : e ∈ expand i) :
    (∀ m c, e.op = .waitL m c → m = 100 ∧ c = .noDevicePresent ∧ checksPresence i) ∧
      (∀ m c, e.op = .waitH m c → m = 240 ∧ c = .presencePulseInvalid ∧ checksPresence i) ∧
      (e.op = .cfg → i = .configure ∨ i = .init) := by
  unfold checksPresence
  cases i <;>
    simp [expand, expandWith, cfgSeq, resetPulse, presence, skipRomSeq, rBit, rByteLow, rByteHigh] at he
  case writeByte v => obtain ⟨l, n, rfl, -⟩ := wByte_entry he; simp
  all_goals
    repeat first
      | (rcases he with rfl | he; · simp [Config.timing])
      | (rcases he with he | he; · obtain ⟨l, n, rfl, -⟩ := wByte_entry he; simp)
    try (obtain ⟨l, n, rfl, -⟩ := wByte_entry he; simp)

theorem microprogram_ok (i : Instr) : Laws.Microprogram.Statement i := by
  cases i
  case configure => exact Laws.Microprogram.configure
  case reset => exact Laws.Microprogram.reset
  case checkPresence => exact Laws.Microprogram.checkPresence
  case writeByte v => exact Laws.Microprogram.writeByte v
  case readBit => exact Laws.Microprogram.readBit
  case readByte => exact Laws.Microprogram.readByte
  case skipRom => exact Laws.Microprogram.skipRom
  case startConversion => exact Laws.Microprogram.startConversion
  case readTemperature => exact Laws.Microprogram.readTemperature
  case init => exact Laws.Microprogram.init

/-- Every micro-operation takes between 1 and 750 ticks. -/
theorem entry_ticks {i : Instr} {e : Entry} (he : e ∈ expand i) : 1 ≤ e.op.ticks ∧ e.op.ticks ≤ 750 := by
  have h := List.all_eq_true.mp (microprogram_ok i).2 e he
  simp only [Laws.Microprogram.entryOk, Bool.and_eq_true, decide_eq_true_eq] at h
  exact h.1

theorem expand_pos (i : Instr) : 0 < (expand i).length := List.length_pos_iff.mpr (microprogram_ok i).1

/-- Everything a tick of a micro-operation can do, with the pins and `SHR` in full: `p` is the block once they are set,
and the tick then stays, advances or aborts. -/
theorem tick_pins (i : Instr) (u : MicroOp) (dq : Level) (ok : Bool) (b : Block) :
    ∃ p t : Block, t = u.tick (expand i).length (resultOf i) dq ok b ∧
      (((u.readsLine b.cnt = false ∧ (∃ l n, u = .drv l n ∧ p = { b with oe := .output, out := l }) ∨
          u.readsLine b.cnt = false ∧ u ≠ .cfg ∧ p = { b with oe := .input } ∨
          u.readsLine b.cnt = true ∧ (∃ n j, u = .smp n j ∧ p = { b with oe := .input, shr := setBit b.shr j dq.bit }) ∨
          u.readsLine b.cnt = true ∧ ((∃ m c, u = .waitL m c) ∨ ∃ m c, u = .waitH m c) ∧ p = { b with oe := .input } ∨
          u = .cfg ∧ ok = true ∧ p = { b with clken := true, pu := true, oe := .output, out := .high }) ∧
        (t = p.stay ∧ b.cnt + 1 ≠ u.ticks ∨ t = advanced i p ∨
          b.cnt + 1 = u.ticks ∧
            ((∃ m c, u = .waitL m c ∧ dq = .high ∧ t = p.abort c) ∨ ∃ m c, u = .waitH m c ∧ dq = .low ∧ t = p.abort c))) ∨
      u = .cfg ∧ ok = false ∧ p = { b with clken := true } ∧ t = p.abort .configurationError) := by
  cases u with
  | drv l n =>
    refine ⟨{ b with oe := .output, out := l }, _, rfl, .inl ⟨.inl ⟨rfl, _, _, rfl, rfl⟩, ?_⟩⟩
    simp only [MicroOp.tick, Block.tickDrv, Block.countTo, advance_eq_advanced]
    split
    · exact .inr (.inl rfl)
    · rename_i h; exact .inl ⟨rfl, h⟩
  | rls n =>
    refine ⟨{ b with oe := .input }, _, rfl, .inl ⟨.inr (.inl ⟨rfl, nofun, rfl⟩), ?_⟩⟩
    simp only [MicroOp.tick, Block.tickRls, Block.countTo, advance_eq_advanced]
    split
    · exact .inr (.inl rfl)
    · rename_i h; exact .inl ⟨rfl, h⟩
  | smp n j =>
    by_cases h : b.cnt + 1 = n
    · refine ⟨{ b with oe := .input, shr := setBit b.shr j dq.bit }, _, rfl,
        .inl ⟨.inr (.inr (.inl ⟨beq_iff_eq.mpr h, _, _, rfl, rfl⟩)), ?_⟩⟩
      simp only [MicroOp.tick, Block.tickSmp, advance_eq_advanced, if_pos h]
      exact .inr (.inl trivial)
    · refine ⟨{ b with oe := .input }, _, rfl, .inl ⟨.inr (.inl ⟨beq_eq_false_iff_ne.mpr h, nofun, rfl⟩), ?_⟩⟩
      simp only [MicroOp.tick, Block.tickSmp, advance_eq_advanced, if_neg h]
      exact .inl ⟨trivial, h⟩
  | waitL n c =>
    refine ⟨{ b with oe := .input }, _, rfl, .inl ⟨.inr (.inr (.inr (.inl ⟨rfl, .inl ⟨_, _, rfl⟩, rfl⟩))), ?_⟩⟩
    simp only [MicroOp.tick, Block.tickWait, advance_eq_advanced]
    split
    · exact .inr (.inl rfl)
    · rename_i hd
      split
      · rename_i h
        exact .inr (.inr ⟨h, .inl ⟨_, _, rfl, by cases dq <;> simp_all, rfl⟩⟩)
      · rename_i h; exact .inl ⟨rfl, h⟩
  | waitH n c =>
    refine ⟨{ b with oe := .input }, _, rfl, .inl ⟨.inr (.inr (.inr (.inl ⟨rfl, .inr ⟨_, _, rfl⟩, rfl⟩))), ?_⟩⟩
    simp only [MicroOp.tick, Block.tickWait, advance_eq_advanced]
    split
    · exact .inr (.inl rfl)
    · rename_i hd
      split
      · rename_i h
        exact .inr (.inr ⟨h, .inr ⟨_, _, rfl, by cases dq <;> simp_all, rfl⟩⟩)
      · rename_i h; exact .inl ⟨rfl, h⟩
  | cfg =>
    cases ok
    · exact ⟨{ b with clken := true }, _, rfl, .inr ⟨rfl, rfl, rfl, rfl⟩⟩
    · refine ⟨{ b with clken := true, pu := true, oe := .output, out := .high }, _, rfl,
        .inl ⟨.inr (.inr (.inr (.inr ⟨rfl, rfl, rfl⟩))), ?_⟩⟩
      simp only [MicroOp.tick, Block.tickCfg, advance_eq_advanced, if_true]
      exact .inr (.inl trivial)

/-- What `finished` leaves in every field but the result registers. -/
theorem finished_fields (i : Instr) (b : Block) :
    (finished i b).busy = false ∧ (finished i b).done = true ∧ (finished i b).upc = 0 ∧ (finished i b).cnt = 0 ∧
      (finished i b).err = b.err ∧ (finished i b).cmd = b.cmd ∧ (finished i b).pu = b.pu ∧
      (finished i b).clken = b.clken ∧ (finished i b).oe = b.oe ∧ (finished i b).out = b.out ∧
      (finished i b).ovr = b.ovr ∧ (finished i b).shr = b.shr := by
  cases i <;> simp [finished]

/-- Where `advance` leaves the position (40_micro_ops.md R90 and R91). -/
theorem advanced_position (i : Instr) (b : Block) :
    if b.upc + 1 = (expand i).length then
      (advanced i b).busy = false ∧ (advanced i b).upc = 0 ∧ (advanced i b).cnt = 0
    else (advanced i b).busy = b.busy ∧ (advanced i b).upc = b.upc + 1 ∧ (advanced i b).cnt = 0 := by
  obtain ⟨hb, -, hu, hc, -⟩ := finished_fields i b
  unfold advanced
  split <;> simp_all

/-- Where a tick leaves the position, by what the entry's duration and the inputs of the tick say (10_state.md R15): the
micro-operation ends, or the command aborts, or the tick only counts. -/
theorem tick_position (i : Instr) (u : MicroOp) (dq : Level) (ok : Bool) (b : Block) :
    let t := u.tick (expand i).length (resultOf i) dq ok b
    if u.endsOnTick b.cnt dq ok then
      if b.upc + 1 = (expand i).length then t.busy = false ∧ t.upc = 0 ∧ t.cnt = 0
      else t.busy = b.busy ∧ t.upc = b.upc + 1 ∧ t.cnt = 0
    else if u.failsOnTick b.cnt dq ok then t.busy = false ∧ t.upc = 0 ∧ t.cnt = 0
    else t.busy = b.busy ∧ t.upc = b.upc ∧ t.cnt = b.cnt + 1 := by
  have adv (p : Block) (hu : p.upc = b.upc) (hb : p.busy = b.busy) := hu ▸ hb ▸ advanced_position i p
  cases u with
  | drv l n =>
    by_cases h : b.cnt + 1 = n
    · simpa [MicroOp.tick, Block.tickDrv, Block.countTo, MicroOp.endsOnTick, MicroOp.ticks, advance_eq_advanced, h] using
        adv { b with oe := .output, out := l } rfl rfl
    · simp [MicroOp.tick, Block.tickDrv, Block.countTo, MicroOp.endsOnTick, MicroOp.failsOnTick, MicroOp.ticks, h]
  | rls n =>
    by_cases h : b.cnt + 1 = n
    · simpa [MicroOp.tick, Block.tickRls, Block.countTo, MicroOp.endsOnTick, MicroOp.ticks, advance_eq_advanced, h] using
        adv { b with oe := .input } rfl rfl
    · simp [MicroOp.tick, Block.tickRls, Block.countTo, MicroOp.endsOnTick, MicroOp.failsOnTick, MicroOp.ticks, h]
  | smp n j =>
    by_cases h : b.cnt + 1 = n
    · simpa [MicroOp.tick, Block.tickSmp, MicroOp.endsOnTick, MicroOp.ticks, advance_eq_advanced, h] using
        adv { b with oe := .input, shr := setBit b.shr j dq.bit } rfl rfl
    · simp [MicroOp.tick, Block.tickSmp, MicroOp.endsOnTick, MicroOp.failsOnTick, MicroOp.ticks, h]
  | waitL m c =>
    cases dq
    · simpa [MicroOp.tick, Block.tickWait, MicroOp.endsOnTick, advance_eq_advanced] using
        adv { b with oe := .input } rfl rfl
    · by_cases h : b.cnt + 1 = m <;>
        simp [MicroOp.tick, Block.tickWait, MicroOp.endsOnTick, MicroOp.failsOnTick, MicroOp.ticks, h]
  | waitH m c =>
    cases dq
    · by_cases h : b.cnt + 1 = m <;>
        simp [MicroOp.tick, Block.tickWait, MicroOp.endsOnTick, MicroOp.failsOnTick, MicroOp.ticks, h]
    · simpa [MicroOp.tick, Block.tickWait, MicroOp.endsOnTick, advance_eq_advanced] using
        adv { b with oe := .input } rfl rfl
  | cfg =>
    cases ok
    · simp [MicroOp.tick, Block.tickCfg, MicroOp.endsOnTick, MicroOp.failsOnTick]
    · simpa [MicroOp.tick, Block.tickCfg, MicroOp.endsOnTick, advance_eq_advanced] using
        adv { b with clken := true, pu := true, oe := .output, out := .high } rfl rfl

/-- A reading command completes in a `RLS`, so the tick that writes the result does not change `SHR`. -/
theorem last_entry_of_reading {i : Instr} {e : Entry} {k : Nat}
    (hi : i = .readBit ∨ i = .readByte ∨ i = .readTemperature) (he : (expand i)[k]? = some e)
    (hl : k + 1 = (expand i).length) : e.op = .rls 45 := by
  have : k = (expand i).length - 1 := by omega
  subst this
  rcases hi with rfl | rfl | rfl <;> (cases he; rfl)

theorem running_iff {s : State} : s.running = true ↔ s.rstN = .high ∧ s.blk.busy = true := by
  simp [State.running]

/-- Everything a step can do to the block and to `rst_n`: nothing; hardware reset; an accepted command; an illegal
command word; a write of `RAW`; a dropped write; or a tick of the command in progress. -/
theorem step_block_cases {s t : State} (h : step s = .next t) :
    (t.blk = s.blk ∧ (t.rstN = s.rstN ∨ t.rstN = .high ∧ ∃ rest, s.inputs = .rstN .high :: rest)) ∨
    (t.blk = Block.reset ∧ t.rstN = .low) ∨
    (∃ v rest i, s.inputs = .regWrite 0#3 v :: rest ∧ s.rstN = .high ∧ s.blk.busy = false ∧ decode v = .ok i ∧
      t.blk = s.blk.accept v ∧ t.rstN = .high) ∨
    (∃ v rest e, s.inputs = .regWrite 0#3 v :: rest ∧ s.rstN = .high ∧ s.blk.busy = false ∧ decode v = .error e ∧
      t.blk = s.blk.refuseIllegal ∧ t.rstN = .high) ∨
    (∃ v rest, s.inputs = .regWrite 3#3 v :: rest ∧ s.rstN = .high ∧ s.blk.busy = false ∧
      t.blk = { s.blk with raw := v.extractLsb' 0 16 } ∧ t.rstN = .high) ∨
    (∃ a v rest, s.inputs = .regWrite a v :: rest ∧ (a = 0#3 ∨ a = 3#3) ∧ s.rstN = .high ∧ s.blk.busy = true ∧
      t.blk = s.blk.dropWrite ∧ t.rstN = .high) ∨
    (s.nextIsTick = true ∧ s.rstN = .high ∧ s.blk.busy = true ∧ t.rstN = .high ∧
      ∃ i e, decode s.blk.cmd = .ok i ∧ (expand i)[s.blk.upc]? = some e ∧
        t.blk = e.op.tick (expand i).length (resultOf i) s.dqIn s.gpioClkOk s.blk ∧
        s.readsLine = e.op.readsLine s.blk.cnt ∧ s.readsClock = (e.op == .cfg)) := by
  rcases step_cases h with ⟨a, rest, hin, rfl⟩ | ⟨a, v, rest, hin, rfl⟩ | ⟨l, rest, hin, rfl⟩ | ⟨hn, hr, rfl⟩ |
    ⟨hn, hr, i, e, hf, he, rfl⟩
  · exact .inl ⟨rfl, .inl rfl⟩
  · unfold State.hostWrite
    split
    · exact .inl ⟨rfl, .inl rfl⟩
    · have hh : s.rstN = .high := by cases hx : s.rstN <;> simp_all
      rcases regWrite_cases a v s.blk with ⟨rfl, hb, ⟨i, hi⟩, h⟩ | ⟨rfl, hb, ⟨e, he⟩, h⟩ | ⟨rfl, hb, h⟩ | ⟨ha, hb, h⟩ |
        ⟨-, -, h⟩ <;> rw [h]
      · exact .inr (.inr (.inl ⟨v, rest, i, hin, hh, hb, hi, rfl, hh⟩))
      · exact .inr (.inr (.inr (.inl ⟨v, rest, e, hin, hh, hb, he, rfl, hh⟩)))
      · exact .inr (.inr (.inr (.inr (.inl ⟨v, rest, hin, hh, hb, rfl, hh⟩))))
      · exact .inr (.inr (.inr (.inr (.inr (.inl ⟨a, v, rest, hin, ha, hh, hb, rfl, hh⟩)))))
      · exact .inl ⟨rfl, .inl rfl⟩
  · cases l
    · exact .inr (.inl ⟨rfl, rfl⟩)
    · exact .inl ⟨rfl, .inr ⟨rfl, _, hin⟩⟩
  · exact .inl ⟨rfl, .inl rfl⟩
  · obtain ⟨hh, hb⟩ := running_iff.mp hr
    have hd : decode s.blk.cmd = .ok i := hf
    refine .inr (.inr (.inr (.inr (.inr (.inr ⟨hn, hh, hb, hh, i, e, hd, he, rfl, ?_, ?_⟩)))))
    · simp [State.readsLine, hn, hr, Block.entry, hd, he, hb]
    · simp [State.readsClock, hn, hr, Block.entry, hd, he, hb]

/-- Two blocks with the same `CMD`, `DATA` and `RAW` read alike at every index but `STATUS` (20_memory.md R41). -/
theorem regRead_congr {b b' : Block} (hc : b'.cmd = b.cmd) (hd : b'.data = b.data) (hr : b'.raw = b.raw) {a : RegIndex}
    (ha : a ≠ 1#3) : b'.regRead a = b.regRead a := by
  unfold Block.regRead
  split
  · exact hc
  · rename_i h
    exact absurd (BitVec.eq_of_toNat_eq h) ha
  · rw [hd]
  · rw [hr]
  · rw [hr]
  · rfl

end Sys2Proof.Machine
end

