-- ==== Sys2Proof/Tests/Slice0.lean ====
section
/-! SUPPORT. Tests: ill-formed terms the checks refuse, command words written out from spec/30_encoding.md, one-step
vectors of spec/95_test_vectors.md, and for every obligation with hypotheses a concrete state that meets them. -/

namespace Sys2Proof.Tests

open Sys2Proof.Machine

/-! ### Helpers -/

/-- A block with the command word `w` in progress at the position `(upc, cnt)`, all else as at reset. -/
def busyBlock (w : Word) (upc cnt : Nat) : Block :=
  { Block.reset with cmd := w, busy := true, upc := upc, cnt := cnt }

/-- A state with that block and these pending events. -/
def busyAt (w : Word) (upc cnt : Nat) (inputs : List Input) : State :=
  { State.reset with blk := busyBlock w upc cnt, inputs := inputs }

/-- The reset state with these pending events. -/
def resetWith (inputs : List Input) : State := { State.reset with inputs := inputs }

/-- One pending tick of this line level, with the GPIO clock ready. -/
def oneTick (dq : Level) : List Input := [.tick dq true]

/-- `n` pairs of inputs with the line high and the clock ready. -/
def highs (n : Nat) : List (Level × Bool) := List.replicate n (.high, true)

/-- A line as pairs of inputs, with the clock ready. -/
def lineEnv (l : List Level) : List (Level × Bool) := l.map fun x => (x, true)

theorem lineEnv_fst (l : List Level) : (lineEnv l).map Prod.fst = l := by
  simp [lineEnv, List.map_map, Function.comp_def]

theorem highs_length (n : Nat) : (highs n).length = n := List.length_replicate

/-- The block a step leaves. -/
def blockAfter (o : Host.Outcome State Fault Refusal) : Option Block :=
  match o with
  | .next t => some t.blk
  | .fault _ => none
  | .refused _ => none

/-- What 95_test_vectors.md prints of a step: `UPC`, `CNT` and `STATUS`. -/
def traceAfter (o : Host.Outcome State Fault Refusal) : Option (Nat × Nat × Word) :=
  (blockAfter o).map fun b => (b.upc, b.cnt, b.status)

/-- The word the last host read returned. -/
def readAfter (o : Host.Outcome State Fault Refusal) : Option Word :=
  match o with
  | .next t => t.rdata
  | .fault _ => none
  | .refused _ => none

/-! ### WellFormed: an ill-formed term for each check -/

theorem test_legal_rejects_rsv : Legal 0x00010004#32 = false := by decide
theorem test_legal_rejects_opc : Legal 0x0000000B#32 = false := by decide
theorem test_legal_rejects_zero : Legal 0x00000000#32 = false := by decide
theorem test_legal_rejects_arg : Legal 0x00000101#32 = false := by decide
theorem test_legal_accepts_arg_of_write_byte : Legal 0x0000FF04#32 = true := by decide

theorem test_timing_wf : Config.timing.wf = true := by decide
theorem test_timing_rejects_short_reset : { Config.timing with rstL := 479 }.wf = false := by decide
theorem test_timing_rejects_no_recovery : { Config.timing with w0H := 0 }.wf = false := by decide
theorem test_timing_rejects_no_sample : { Config.timing with rdS := 0 }.wf = false := by decide
theorem test_timing_rejects_no_window : { Config.timing with pdH := 0 }.wf = false := by decide

/-! ### Decode: one written-out word per command (30_encoding.md R60 and R63: `RSV`, `ARG`, `OPC`) -/

theorem test_decode_configure : decode 0b0000000000000000_00000000_00000001#32 = .ok .configure := by decide
theorem test_decode_reset : decode 0b0000000000000000_00000000_00000010#32 = .ok .reset := by decide
theorem test_decode_checkPresence : decode 0b0000000000000000_00000000_00000011#32 = .ok .checkPresence := by decide
theorem test_decode_writeByte : decode 0b0000000000000000_10100101_00000100#32 = .ok (.writeByte 0xA5#8) := by decide
theorem test_decode_readBit : decode 0b0000000000000000_00000000_00000101#32 = .ok .readBit := by decide
theorem test_decode_readByte : decode 0b0000000000000000_00000000_00000110#32 = .ok .readByte := by decide
theorem test_decode_skipRom : decode 0b0000000000000000_00000000_00000111#32 = .ok .skipRom := by decide
theorem test_decode_startConversion :
    decode 0b0000000000000000_00000000_00001000#32 = .ok .startConversion := by decide
theorem test_decode_readTemperature :
    decode 0b0000000000000000_00000000_00001001#32 = .ok .readTemperature := by decide
theorem test_decode_init : decode 0b0000000000000000_00000000_00001010#32 = .ok .init := by decide

theorem test_decode_rejects_rsv : decode 0x80000001#32 = .error .reservedBits := by decide
theorem test_decode_rejects_opc : decode 0x00000400#32 = .error .unassignedCode := by decide
theorem test_decode_rejects_arg : decode 0x0000010A#32 = .error .operandNotZero := by decide
theorem test_decodeTableWord : decodeTableWord 32 0x0000CC04 = some (.writeByte 0xCC#8) := by decide
theorem test_decodeTableWord_rejects : decodeTableWord 32 0x0000000B = none := by decide

/-! ### One step per command, from 95_test_vectors.md section 2.3 and 2.4 -/

/-- `CONFIGURE` with the clock ready: `STATUS = 0x0000F002`. -/
theorem test_configure : traceAfter (exec .configure (busyAt 0x00000001#32 0 0 (oneTick .high))) =
    some (0, 0, 0x0000F002#32) := by decide
/-- `CONFIGURE` with the clock not ready: `STATUS = 0x0000A012`. -/
theorem test_configure_error : traceAfter (exec .configure (busyAt 0x00000001#32 0 0 [.tick .high false])) =
    some (0, 0, 0x0000A012#32) := by decide
/-- `RESET`: after 1 tick `0x00001101`. -/
theorem test_reset_first : traceAfter (exec .reset (busyAt 0x00000002#32 0 0 (oneTick .high))) =
    some (0, 1, 0x00001101#32) := by decide
/-- `RESET`: after 765 ticks `0x00003002`. -/
theorem test_reset_last : traceAfter (exec .reset (busyAt 0x00000002#32 1 14 (oneTick .low))) =
    some (0, 0, 0x00003002#32) := by decide
/-- `CHECK_PRESENCE`: the window of 100 ticks closes, `0x00002022`. -/
theorem test_checkPresence_absent : traceAfter (exec .checkPresence (busyAt 0x00000003#32 0 99 (oneTick .high))) =
    some (0, 0, 0x00002022#32) := by decide
/-- `CHECK_PRESENCE`: the 240th tick of `WAITH` still succeeds when the line is high, `0x00002002`. -/
theorem test_checkPresence_last : traceAfter (exec .checkPresence (busyAt 0x00000003#32 1 239 (oneTick .high))) =
    some (0, 0, 0x00002002#32) := by decide
/-- `WRITE_BYTE 0x01`, tick 9: position `(1, 0)`, `0x00001401`. -/
theorem test_writeByte_slot : traceAfter (exec (.writeByte 0x01#8) (busyAt 0x00000104#32 0 9 (oneTick .high))) =
    some (1, 0, 0x00001401#32) := by decide
/-- `WRITE_BYTE 0x01`, tick 571: complete, `0x00003002`. -/
theorem test_writeByte_last : traceAfter (exec (.writeByte 0x01#8) (busyAt 0x00000104#32 15 1 (oneTick .high))) =
    some (0, 0, 0x00003002#32) := by decide
/-- `READ_BIT`, tick 14 with the line high: `SHR = 0x0001`. -/
theorem test_readBit_sample :
    (blockAfter (exec .readBit (busyAt 0x00000005#32 1 4 (oneTick .high)))).map (fun b => (b.shr, b.data, b.upc)) =
      some (0x0001#16, 0x00#8, 2) := by decide
/-- `READ_BIT`, tick 59: `DATA = 0x01`. -/
theorem test_readBit_result :
    (blockAfter (exec .readBit { State.reset with
      blk := { busyBlock 0x00000005#32 2 44 with shr := 0x0001#16, out := .low }, inputs := oneTick .low })).map
      (fun b => (b.data, b.status)) = some (0x01#8, 0x00000002#32) := by decide
/-- `READ_BYTE`: sample ticks 14 and 434 are those of `SHR[0]` and `SHR[7]`. -/
theorem test_readByte_sample :
    (blockAfter (exec .readByte (busyAt 0x00000006#32 22 4 (oneTick .high)))).map (fun b => (b.shr, b.upc)) =
      some (0x0080#16, 23) := by decide
/-- `READ_BYTE`: the samples 1,0,1,0,0,1,0,1 give `DATA = 0xA5`. -/
theorem test_readByte_result :
    (blockAfter (exec .readByte { State.reset with
      blk := { busyBlock 0x00000006#32 23 44 with shr := 0x00A5#16, out := .low }, inputs := oneTick .low })).map
      (fun b => (b.data, b.status)) = some (0xA5#8, 0x00000002#32) := by decide
/-- `SKIP_ROM`: no sensor, `0x00002022` after an output phase that left `OUT` high. -/
theorem test_skipRom_absent : traceAfter (exec .skipRom (busyAt 0x00000007#32 2 99 (oneTick .high))) =
    some (0, 0, 0x00002022#32) := by decide
/-- `SKIP_ROM`: the last tick of `0xCC`, `0x00003002`. -/
theorem test_skipRom_last : traceAfter (exec .skipRom (busyAt 0x00000007#32 19 57 (oneTick .low))) =
    some (0, 0, 0x00003002#32) := by decide
/-- `START_CONVERSION`: a low that persists, `0x00002032`. -/
theorem test_startConversion_stuck : traceAfter (exec .startConversion (busyAt 0x00000008#32 3 239 (oneTick .low))) =
    some (0, 0, 0x00002032#32) := by decide
/-- `START_CONVERSION`: the last tick of `0x44`, whose last bit is 0: `0x00003002`. -/
theorem test_startConversion_last : traceAfter (exec .startConversion (busyAt 0x00000008#32 35 1 (oneTick .low))) =
    some (0, 0, 0x00003002#32) := by decide
/-- `READ_TEMPERATURE`: after 1 tick `0x00001101`. -/
theorem test_readTemperature_first : traceAfter (exec .readTemperature (busyAt 0x00000009#32 0 0 (oneTick .high))) =
    some (0, 1, 0x00001101#32) := by decide
/-- `READ_TEMPERATURE`: the sample `0xFF5E` arrives in `RAW`. -/
theorem test_readTemperature_result :
    (blockAfter (exec .readTemperature { State.reset with
      blk := { busyBlock 0x00000009#32 119 44 with shr := 0xFF5E#16, out := .low }, inputs := oneTick .low })).map
      (fun b => (b.raw, b.status)) = some (0xFF5E#16, 0x00000002#32) := rfl
/-- `INIT` with the clock not ready: `0x0000A012`, no reset pulse. -/
theorem test_init_error : traceAfter (exec .init (busyAt 0x0000000A#32 0 0 [.tick .high false])) =
    some (0, 0, 0x0000A012#32) := by decide
/-- `INIT`: the last tick, `0x0000E002`. -/
theorem test_init_last :
    traceAfter (exec .init { State.reset with
      blk := { busyBlock 0x0000000A#32 4 99 with pu := true, clken := true }, inputs := oneTick .high }) =
      some (0, 0, 0x0000E002#32) := by decide

/-! ### Host accesses and the decoder, from 95_test_vectors.md sections 2.1, 2.2 and 2.5 -/

/-- Accept of `INIT`: `STATUS = 0x00002601`. -/
theorem test_accept_init : traceAfter (step (resetWith [.regWrite 0#3 0x0000000A#32])) =
    some (0, 0, 0x00002601#32) := by decide
/-- An illegal word: `STATUS = 0x00002042`. -/
theorem test_illegal_word : traceAfter (step (resetWith [.regWrite 0#3 0xFFFFFFFF#32])) =
    some (0, 0, 0x00002042#32) := by decide
/-- `WR RAW, 0xFFFF8000`: `RAW = 0x8000`, read without sign extension; `TEMP` follows. -/
theorem test_write_raw :
    (blockAfter (step (resetWith [.regWrite 3#3 0xFFFF8000#32]))).map (fun b => (b.regRead 3#3, b.regRead 4#3)) =
      some (0x00008000#32, 0xC5000000#32) := by decide
/-- A host read of `STATUS` at reset: `0x00002000`. -/
theorem test_read_status : readAfter (step (resetWith [.regRead 1#3])) = some 0x00002000#32 := by decide
theorem test_decode32_minus162 : decode32 0xFF5E#16 = 0xC1220000#32 := by decide
theorem test_decode32_401 : decode32 0x0191#16 = 0x41C88000#32 := by decide
theorem test_decode32_top : decode32 0x5555#16 = 0x44AAAA00#32 := rfl
theorem test_decode32_negative : decode32 0xAAAA#16 = 0xC4AAAC00#32 := rfl
/-- `withFetchWord` places a command that the next step runs. -/
theorem test_withFetchWord : traceAfter (step (State.reset.withFetchWord 32 0x00000002)) =
    some (0, 1, 0x00001101#32) := by decide

/-! ### Witnesses: concrete states that meet the hypotheses of the obligations -/

theorem witness_DecodeAndEncodeAgree : decode 0x0000A504#32 = .ok (.writeByte 0xA5#8) := by decide

theorem witness_StepRunsCommandInProgress :
    (let s := busyAt 0x00000009#32 119 44 (oneTick .low)
     s.nextIsTick = true ∧ s.rstN = .high ∧ s.blk.busy = true ∧ decode s.blk.cmd = .ok .readTemperature) ∧
    (let s := busyAt 0x0000FF04#32 0 0 []
     s.nextIsTick = true ∧ s.rstN = .high ∧ s.blk.busy = true ∧ decode s.blk.cmd = .ok (.writeByte 0xFF#8)) := by decide

theorem witness_HostWriteEffect :
    (let s := resetWith [.regWrite 7#3 1#32]
     s.inputs = [.regWrite 7#3 1#32] ∧ s.rstN = .high) ∧
    (let s := busyAt 0x00000002#32 0 0 [.regWrite 0#3 0x00000005#32]
     s.inputs = [.regWrite 0#3 0x00000005#32] ∧ s.rstN = .high) ∧
    (∃ t, step (resetWith [.regWrite 0#3 0x0000000A#32]) = .next t ∧ Legal 0x0000000A#32 = true ∧
      t.nextIsTick = true) ∧
    (Block.reset.busy = false) :=
  ⟨by decide, by decide, ⟨_, rfl, by decide, by decide⟩, by decide⟩

theorem witness_HostReadEffect :
    (resetWith [.regRead 7#3]).inputs = [.regRead 7#3] ∧
    ∃ t, (busyAt 0x00000005#32 2 43 (oneTick .low)).blk.busy = true ∧
      step (busyAt 0x00000005#32 2 43 (oneTick .low)) = .next t ∧ t.blk.busy = true :=
  ⟨rfl, _, rfl, rfl, by decide⟩

theorem witness_StatusWordLayout : (resetWith [.regRead 1#3]).inputs = [.regRead 1#3] := rfl

theorem witness_PhaseShowsEntryInProgress :
    Block.reset.busy = false ∧
    ((busyBlock 0x00000009#32 2 0).busy = true ∧ decode (busyBlock 0x00000009#32 2 0).cmd = .ok .readTemperature ∧
      (expand .readTemperature)[2]? = some ⟨.waitL 100 .noDevicePresent, .presenceWindowLow⟩) ∧
    (expand .readTemperature)[3]? = some ⟨.waitH 240 .presencePulseInvalid, .presenceWindowHigh⟩ ∧
    (expand .readTemperature)[118]? = some ⟨.smp 5 15, .dataPhase⟩ ∧
    (expand .readTemperature)[119]? = some ⟨.rls 45, .dataPhase⟩ ∧
    (expand .init)[0]? = some ⟨.cfg, .config⟩ ∧
    (expand .reset)[1]? = some ⟨.drv .high 15, .reset⟩ ∧
    (expand (.writeByte 0xA5#8))[15]? = some ⟨.drv .high 58, .commandPhase⟩ := by decide

theorem witness_IdleTickChangesNothing :
    ((resetWith [.tick .low false]).blk.busy = false ∧ (resetWith [.tick .low false]).inputs = [.tick .low false]) ∧
    ((resetWith []).blk.busy = false ∧ (resetWith []).inputs = []) := by decide

theorem witness_DriveTick :
    (expand .reset)[(busyAt 0x00000002#32 0 0 []).blk.upc]? = some ⟨.drv .low 750, .reset⟩ ∧
    (expand .reset)[(busyAt 0x00000002#32 1 14 []).blk.upc]? = some ⟨.drv .high 15, .reset⟩ := by decide

theorem witness_ReleaseTick :
    (expand .readBit)[(busyAt 0x00000005#32 2 44 []).blk.upc]? = some ⟨.rls 45, .dataPhase⟩ := by decide

theorem witness_SampleTick :
    (expand .readBit)[(busyAt 0x00000005#32 1 4 []).blk.upc]? = some ⟨.smp 5 0, .dataPhase⟩ ∧
    (expand .readTemperature)[(busyAt 0x00000009#32 118 4 []).blk.upc]? = some ⟨.smp 5 15, .dataPhase⟩ := by decide

theorem witness_WaitTick :
    (expand .checkPresence)[(busyAt 0x00000003#32 0 99 []).blk.upc]? =
      some ⟨.waitL 100 .noDevicePresent, .presenceWindowLow⟩ ∧
    (expand .checkPresence)[(busyAt 0x00000003#32 1 239 []).blk.upc]? =
      some ⟨.waitH 240 .presencePulseInvalid, .presenceWindowHigh⟩ := by decide

theorem witness_ConfigureTick :
    (expand .configure)[(busyAt 0x00000001#32 0 0 []).blk.upc]? = some ⟨.cfg, .config⟩ ∧
    (expand .init)[(busyAt 0x0000000A#32 0 0 []).blk.upc]? = some ⟨.cfg, .config⟩ := by decide

theorem witness_DrivingCommandsComplete :
    ((busyAt 0x00000002#32 1 14 []).blk.upc = 1 ∧ (busyAt 0x00000002#32 1 14 []).blk.cnt = 14) ∧
    ((busyAt 0x00008004#32 15 57 []).blk.upc = 15 ∧
      (busyAt 0x00008004#32 15 57 []).blk.cnt = if (0x80#8 : Byte).getLsbD 7 then 57 else 1) ∧
    ((busyAt 0x00000004#32 15 1 []).blk.upc = 15 ∧
      (busyAt 0x00000004#32 15 1 []).blk.cnt = if (0x00#8 : Byte).getLsbD 7 then 57 else 1) ∧
    ((busyAt 0x00000007#32 19 57 []).blk.upc = 19 ∧ (busyAt 0x00000007#32 19 57 []).blk.cnt = 57) ∧
    ((busyAt 0x00000008#32 35 1 []).blk.upc = 35 ∧ (busyAt 0x00000008#32 35 1 []).blk.cnt = 1) := by decide

theorem witness_ConfigAndPresenceCommandsComplete :
    ((busyAt 0x00000003#32 1 239 (oneTick .high)).blk.upc = 1 ∧
      (busyAt 0x00000003#32 1 239 (oneTick .high)).dqIn = .high) ∧
    ((busyAt 0x0000000A#32 4 239 (oneTick .high)).blk.upc = 4 ∧
      (busyAt 0x0000000A#32 4 239 (oneTick .high)).dqIn = .high) ∧
    ((busyAt 0x00000001#32 0 0 (oneTick .low)).blk.upc = 0 ∧
      (busyAt 0x00000001#32 0 0 (oneTick .low)).gpioClkOk = true) := by decide

theorem witness_ReadingCommandsComplete :
    ((busyAt 0x00000005#32 2 44 []).blk.upc = 2 ∧ (busyAt 0x00000005#32 2 44 []).blk.cnt = 44) ∧
    ((busyAt 0x00000006#32 23 44 []).blk.upc = 23 ∧ (busyAt 0x00000006#32 23 44 []).blk.cnt = 44) ∧
    ((busyAt 0x00000009#32 119 44 []).blk.upc = 119 ∧ (busyAt 0x00000009#32 119 44 []).blk.cnt = 44) := by decide

/-- An accept; a hardware reset; ticks that stay, advance, complete and abort; and a step that is none of these. -/
theorem witness_SequencerPositionMoves :
    (Legal 0x00000002#32 = true ∧ ∃ t, step (resetWith [.regWrite 0#3 0x00000002#32]) = .next t ∧ t.blk.busy = true) ∧
    (∃ t, step (busyAt 0x00000002#32 1 3 [.rstN .low]) = .next t ∧ t.blk.upc = 0) ∧
    (∃ t, step (busyAt 0x00000002#32 0 748 (oneTick .low)) = .next t ∧ t.blk.cnt = 749) ∧
    (∃ t, step (busyAt 0x00000002#32 0 749 (oneTick .low)) = .next t ∧ t.blk.upc = 1) ∧
    (∃ t, step (busyAt 0x00000002#32 1 14 (oneTick .low)) = .next t ∧ t.blk.busy = false ∧ t.blk.err = .ok) ∧
    (∃ t, step (busyAt 0x00000003#32 0 99 (oneTick .high)) = .next t ∧ t.blk.busy = false ∧ t.blk.err ≠ .ok) ∧
    (∃ t, step (busyAt 0x00000002#32 1 3 [.regRead 1#3]) = .next t ∧ t.blk.cnt = 3 ∧
      (busyAt 0x00000002#32 1 3 [.regRead 1#3]).nextIsTick = false) :=
  ⟨⟨by decide, _, rfl, by decide⟩, ⟨_, rfl, by decide⟩, ⟨_, rfl, by decide⟩, ⟨_, rfl, by decide⟩,
    ⟨_, rfl, by decide, by decide⟩, ⟨_, rfl, by decide, by decide⟩, ⟨_, rfl, by decide, by decide⟩⟩

theorem witness_FrameOfDrivingCommands :
    (∃ t, exec .reset (busyAt 0x00000002#32 1 14 []) = .next t) ∧
    ∃ t, exec (.writeByte 0x00#8) (busyAt 0x00000004#32 15 1 []) = .next t := ⟨⟨_, rfl⟩, ⟨_, rfl⟩⟩

theorem witness_FrameOfPresenceCommands :
    (∃ t, exec .checkPresence (busyAt 0x00000003#32 0 99 (oneTick .high)) = .next t) ∧
    (∃ t, exec .skipRom (busyAt 0x00000007#32 3 239 (oneTick .low)) = .next t) ∧
    ∃ t, exec .startConversion (busyAt 0x00000008#32 35 1 (oneTick .low)) = .next t := ⟨⟨_, rfl⟩, ⟨_, rfl⟩, ⟨_, rfl⟩⟩

theorem witness_FrameOfConfigCommands :
    (∃ t, exec .configure (busyAt 0x00000001#32 0 0 [.tick .low false]) = .next t) ∧
    ∃ t, exec .init (busyAt 0x0000000A#32 4 239 (oneTick .high)) = .next t := ⟨⟨_, rfl⟩, ⟨_, rfl⟩⟩

theorem witness_FrameOfReadingCommands :
    (∃ t, exec .readBit (busyAt 0x00000005#32 2 44 (oneTick .high)) = .next t) ∧
    (∃ t, exec .readByte (busyAt 0x00000006#32 23 44 (oneTick .high)) = .next t) ∧
    ∃ t, exec .readTemperature (busyAt 0x00000009#32 119 44 (oneTick .low)) = .next t :=
  ⟨⟨_, rfl⟩, ⟨_, rfl⟩, ⟨_, rfl⟩⟩

/-- A tick that aborts with each code. -/
theorem witness_AbortEndsCommandAndWritesNoResult :
    (∃ t, exec .readTemperature (busyAt 0x00000009#32 2 99 (oneTick .high)) = .next t ∧
      t.blk.err = .noDevicePresent ∧ t.blk.err ≠ (busyAt 0x00000009#32 2 99 (oneTick .high)).blk.err) ∧
    (∃ t, exec .readTemperature (busyAt 0x00000009#32 3 239 (oneTick .low)) = .next t ∧
      t.blk.err = .presencePulseInvalid ∧ t.blk.err ≠ (busyAt 0x00000009#32 3 239 (oneTick .low)).blk.err) ∧
    (∃ t, exec .init (busyAt 0x0000000A#32 0 0 [.tick .low false]) = .next t ∧
      t.blk.err = .configurationError ∧ t.blk.err ≠ (busyAt 0x0000000A#32 0 0 [.tick .low false]).blk.err) :=
  ⟨⟨_, rfl, by decide, by decide⟩, ⟨_, rfl, by decide, by decide⟩, ⟨_, rfl, by decide, by decide⟩⟩

theorem witness_ErrorCodesByCommand :
    (∃ t, exec .checkPresence (busyAt 0x00000003#32 0 99 (oneTick .high)) = .next t ∧
      t.blk.err = .noDevicePresent ∧ t.blk.err ≠ (busyAt 0x00000003#32 0 99 (oneTick .high)).blk.err) ∧
    (∃ t, exec .skipRom (busyAt 0x00000007#32 3 239 (oneTick .low)) = .next t ∧
      t.blk.err = .presencePulseInvalid ∧ t.blk.err ≠ (busyAt 0x00000007#32 3 239 (oneTick .low)).blk.err) ∧
    (∃ t, exec .configure (busyAt 0x00000001#32 0 0 [.tick .low false]) = .next t ∧
      t.blk.err = .configurationError ∧ t.blk.err ≠ (busyAt 0x00000001#32 0 0 [.tick .low false]).blk.err) :=
  ⟨⟨_, rfl, by decide, by decide⟩, ⟨_, rfl, by decide, by decide⟩, ⟨_, rfl, by decide, by decide⟩⟩

theorem witness_InvariantHoldsAtReset : Initial (resetWith [.regWrite 0#3 0x00000007#32]) := ⟨rfl, rfl⟩

/-- The invariant holds in the middle of a command, at the last tick of a `WAITH`. -/
theorem busyAt_inv : Inv (busyAt 0x00000009#32 3 239 (oneTick .low)) where
  resetHeld := by decide
  idlePosition := by decide
  busyFlags := by decide
  busyPosition := by decide
  errDone := by decide
  cmdLegal := by decide
  pullUpClock := by decide
  configErrorClock := by decide
  presenceErrorInput := by decide

theorem witness_EveryStepKeepsInvariant :
    Inv (busyAt 0x00000009#32 3 239 (oneTick .low)) ∧
    ∃ t, step (busyAt 0x00000009#32 3 239 (oneTick .low)) = .next t ∧ t.blk.err = .presencePulseInvalid :=
  ⟨busyAt_inv, _, rfl, by decide⟩

theorem witness_NoStepStopsUnderInvariant : Inv (busyAt 0x00000009#32 3 239 (oneTick .low)) := busyAt_inv

theorem witness_PositionStaysInBounds :
    ∃ t, Initial (resetWith [.regWrite 0#3 0x00000002#32, .tick .low true]) ∧
      Reaches (resetWith [.regWrite 0#3 0x00000002#32, .tick .low true]) t ∧ t.blk.cnt = 1 :=
  ⟨_, ⟨rfl, rfl⟩, .tail (.tail (.refl _) rfl) rfl, by decide⟩

theorem witness_CommandEndsWithinBound :
    Inv (busyAt 0x00000009#32 3 239 (oneTick .low)) ∧ (busyAt 0x00000009#32 3 239 (oneTick .low)).rstN = .high ∧
      (busyAt 0x00000009#32 3 239 (oneTick .low)).blk.busy = true ∧
      onlyTicks (busyAt 0x00000009#32 3 239 (oneTick .low)).inputs = true := ⟨busyAt_inv, by decide⟩

theorem witness_WaitStatementEnds :
    Inv (busyAt 0x00000009#32 3 239 (oneTick .low)) ∧ (busyAt 0x00000009#32 3 239 (oneTick .low)).rstN = .high ∧
      onlyTicks (busyAt 0x00000009#32 3 239 (oneTick .low)).inputs = true := ⟨busyAt_inv, by decide⟩

/-- `DATA` changes at completion, and at hardware reset. -/
theorem witness_DataWrittenOnlyByReadCompletion :
    (∃ t, step { State.reset with blk := { busyBlock 0x00000005#32 2 44 with shr := 1#16 }, inputs := oneTick .low } =
      .next t ∧ t.blk.data ≠ 0#8) ∧
    (∃ t, step { State.reset with blk := { busyBlock 0x00000006#32 23 44 with shr := 0x80#16 }, inputs := oneTick .low } =
      .next t ∧ t.blk.data ≠ 0#8) ∧
    (∃ t, step { State.reset with blk := { Block.reset with data := 0xFF#8 }, inputs := [.rstN .low] } = .next t ∧
      t.blk.data ≠ 0xFF#8) :=
  ⟨⟨_, rfl, by decide⟩, ⟨_, rfl, by decide⟩, ⟨_, rfl, by decide⟩⟩

theorem witness_RawWrittenOnlyByReadTemperatureOrHost :
    (∃ t, step { State.reset with
        blk := { busyBlock 0x00000009#32 119 44 with shr := 0x0191#16 }, inputs := oneTick .low } = .next t ∧
      t.blk.raw ≠ 0#16) ∧
    (∃ t, step (resetWith [.regWrite 3#3 0x12345678#32]) = .next t ∧ t.blk.raw ≠ 0#16) ∧
    (∃ t, step { State.reset with blk := { Block.reset with raw := 0x8000#16 }, inputs := [.rstN .low] } = .next t ∧
      t.blk.raw ≠ 0x8000#16) :=
  ⟨⟨_, rfl, by decide⟩, ⟨_, rfl, by decide⟩, ⟨_, rfl, by decide⟩⟩

theorem witness_ShiftRegisterWrites :
    ((busyAt 0x00000009#32 118 4 (oneTick .high)).blk.entry = some ⟨.smp 5 15, .dataPhase⟩ ∧
      (busyAt 0x00000009#32 118 4 (oneTick .high)).blk.cnt + 1 = 5 ∧
      (busyAt 0x00000009#32 118 4 (oneTick .high)).nextIsTick = true ∧
      ∃ t, step (busyAt 0x00000009#32 118 4 (oneTick .high)) = .next t ∧ t.blk.shr ≠ 0#16) ∧
    (∃ t, step { State.reset with
        blk := { Block.reset with shr := 0xFFFF#16 }, inputs := [.regWrite 0#3 0x00000006#32] } = .next t ∧
      Block.reset.busy = false ∧ t.blk.busy = true ∧ t.blk.shr ≠ 0xFFFF#16) ∧
    (∃ t, step { State.reset with blk := { Block.reset with shr := 0xFFFF#16 }, inputs := [.rstN .low] } = .next t ∧
      t.blk.shr ≠ 0xFFFF#16) :=
  ⟨⟨by decide, by decide, by decide, _, rfl, by decide⟩, ⟨_, rfl, by decide, by decide, by decide⟩, ⟨_, rfl, by decide⟩⟩

theorem witness_OverrunFlagIsSticky :
    (Inv (busyAt 0x00000009#32 3 239 (oneTick .low)) ∧
      ∃ t, step (busyAt 0x00000009#32 3 239 (oneTick .low)) = .next t ∧
        (busyAt 0x00000009#32 3 239 (oneTick .low)).blk.ovr = false) ∧
    (∃ t, step (busyAt 0x00000002#32 0 0 [.regWrite 3#3 1#32]) = .next t ∧ t.blk.ovr = true) ∧
    (∃ t, step { State.reset with blk := { Block.reset with ovr := true }, inputs := [.rstN .low] } = .next t ∧
      t.blk.ovr = false ∧ t.rstN = .low ∧ State.reset.rstN = .high) :=
  ⟨⟨busyAt_inv, _, rfl, rfl⟩, ⟨_, rfl, by decide⟩, ⟨_, rfl, by decide, by decide, by decide⟩⟩

theorem witness_CmdHoldsLastAcceptedWord :
    (∃ t, step (resetWith [.regWrite 0#3 0x0000CC04#32]) = .next t ∧ t.blk.cmd ≠ Block.reset.cmd ∧
      Block.reset.busy = false ∧ t.blk.busy = true) ∧
    (∃ t, step (busyAt 0x00000002#32 0 0 [.rstN .low]) = .next t ∧ t.blk.cmd ≠ 0x00000002#32) :=
  ⟨⟨_, rfl, by decide, by decide, by decide⟩, ⟨_, rfl, by decide⟩⟩

theorem witness_PullUpAndClockRequestAreSticky :
    (∃ t, step { State.reset with blk := { Block.reset with pu := true, clken := true }, inputs := [.rstN .low] } =
      .next t ∧ t.blk.pu = false ∧ t.blk.clken = false) ∧
    (∃ t, step (busyAt 0x00000001#32 0 0 [.tick .low false]) = .next t ∧ t.blk.clken = true ∧
      (busyAt 0x00000001#32 0 0 [.tick .low false]).readsClock = true) ∧
    (∃ t, step (busyAt 0x0000000A#32 0 0 (oneTick .low)) = .next t ∧ t.blk.pu = true ∧
      (busyAt 0x0000000A#32 0 0 (oneTick .low)).readsClock = true ∧
      (busyAt 0x0000000A#32 0 0 (oneTick .low)).gpioClkOk = true) :=
  ⟨⟨_, rfl, by decide, by decide⟩, ⟨_, rfl, by decide, by decide⟩, ⟨_, rfl, by decide, by decide, by decide⟩⟩

theorem witness_PinLatchesWrittenOnlyBySequencer :
    (∃ t, step (busyAt 0x00000002#32 0 0 (oneTick .low)) = .next t ∧ t.blk.out ≠ Block.reset.out) ∧
    (∃ t, step { State.reset with blk := { Block.reset with oe := .output }, inputs := [.rstN .low] } = .next t ∧
      t.blk.oe ≠ .output) ∧
    (∃ t, step (busyAt 0x00000003#32 0 0 (oneTick .high)) = .next t ∧ t.rstN = .high ∧ t.blk.oe = .input) :=
  ⟨⟨_, rfl, by decide⟩, ⟨_, rfl, by decide⟩, ⟨_, rfl, by decide, by decide⟩⟩

theorem witness_BusyDoneErrChange :
    (∃ t, step (resetWith [.regWrite 0#3 0x0000000A#32]) = .next t ∧ t.blk.busy = true) ∧
    (∃ t, step (busyAt 0x00000002#32 1 14 (oneTick .low)) = .next t ∧ t.blk.busy = false ∧ t.blk.done = true) ∧
    (∃ t, step (resetWith [.regWrite 0#3 0x00000000#32]) = .next t ∧ t.blk.done = true ∧
      t.blk.err ≠ Block.reset.err) ∧
    (∃ t, step { State.reset with
        blk := { Block.reset with done := true, err := .illegalCommand },
        inputs := [.regWrite 0#3 0x00000001#32] } = .next t ∧ t.blk.done = false ∧ t.blk.err ≠ .illegalCommand) ∧
    (∃ t, step (busyAt 0x00000003#32 0 99 (oneTick .high)) = .next t ∧ t.blk.err ≠ Block.reset.err) :=
  ⟨⟨_, rfl, by decide⟩, ⟨_, rfl, by decide, by decide⟩, ⟨_, rfl, by decide, by decide⟩, ⟨_, rfl, by decide, by decide⟩,
    ⟨_, rfl, by decide⟩⟩

theorem witness_InputsReadOnlyOnNamedTicks :
    ((busyAt 0x00000005#32 1 4 (oneTick .low)).readsLine = true ∧
      ∃ t, step (busyAt 0x00000005#32 1 4 (oneTick .low)) = .next t) ∧
    ((busyAt 0x00000005#32 1 3 (oneTick .low)).inputs = [.tick .low true] ∧
      (busyAt 0x00000005#32 1 3 (oneTick .low)).readsLine = false) ∧
    ((busyAt 0x0000000A#32 1 0 (oneTick .low)).inputs = [.tick .low true] ∧
      (busyAt 0x0000000A#32 1 0 (oneTick .low)).readsClock = false) :=
  ⟨⟨by decide, _, rfl⟩, by decide, by decide⟩

theorem witness_WaveformIndependentOfSamples :
    (busyAt 0x00000005#32 1 4 (oneTick .low)).inputs = [.tick .low true] ∧
    (busyAt 0x00000005#32 1 4 (oneTick .low)).blk.entry = some ⟨.smp 5 0, .dataPhase⟩ ∧
    (∀ m c, (MicroOp.smp 5 0) ≠ .waitL m c) ∧ (∀ m c, (MicroOp.smp 5 0) ≠ .waitH m c) ∧
    (∃ t, step (busyAt 0x00000005#32 1 4 (oneTick .low)) = .next t) ∧
    ∃ t', step (busyAt 0x00000005#32 1 4 (oneTick .high)) = .next t' :=
  ⟨rfl, by decide, nofun, nofun, ⟨_, rfl⟩, ⟨_, rfl⟩⟩

/-- Two states in which `INIT` has just been accepted, from different pasts, with the same ticks to come. -/
theorem witness_CommandsAreStateless :
    let env := highs 866
    let s := busyAt 0x0000000A#32 0 0 (tickInputs env ++ [])
    let s' : State := { busyAt 0x0000000A#32 0 0 (tickInputs env ++ [.regRead 1#3]) with
      blk := { busyBlock 0x0000000A#32 0 0 with raw := 0x0550#16, pu := true, clken := true, oe := .output } }
    Accepted .init s ∧ Accepted .init s' ∧ s.inputs = tickInputs env ++ [] ∧ s'.inputs = tickInputs env ++ [.regRead 1#3] ∧
      866 ≤ env.length ∧ ∃ dq, env.head? = some (dq, true) :=
  ⟨⟨rfl, rfl, rfl, rfl, rfl, rfl, rfl, rfl⟩, ⟨rfl, rfl, rfl, rfl, rfl, rfl, rfl, rfl⟩, rfl, rfl,
    (highs_length 866).ge, .high, rfl⟩

/-- A state in which the command of the word `w` has just been accepted. -/
theorem accepted_busyAt {w : Word} {i : Instr} (h : decode w = .ok i) (l : List Input) : Accepted i (busyAt w 0 0 l) :=
  ⟨rfl, rfl, h, rfl, rfl, rfl, rfl, rfl⟩

theorem witness_ResetCommandRun :
    let s := busyAt 0x00000002#32 0 0 (tickInputs (highs 765) ++ [])
    Accepted .reset s ∧ s.blk.ovr = false ∧ s.inputs = tickInputs (highs 765) ++ [] ∧ (highs 765).length = 765 :=
  ⟨accepted_busyAt rfl _, rfl, rfl, highs_length 765⟩

/-- One state for each of the three outcomes, at the boundaries of `k` and `m`. -/
theorem witness_CheckPresenceCommandRun :
    (let s := busyAt 0x00000003#32 0 0 (tickInputs (lineEnv (pulseLine 99 239)) ++ [])
     Accepted .checkPresence s ∧ s.blk.ovr = false ∧ s.inputs = tickInputs (lineEnv (pulseLine 99 239)) ++ [] ∧
       (lineEnv (pulseLine 99 239)).map Prod.fst = pulseLine 99 239) ∧
    (let s := busyAt 0x00000003#32 0 0 (tickInputs (lineEnv absentLine) ++ [])
     Accepted .checkPresence s ∧ s.blk.ovr = false ∧ (lineEnv absentLine).map Prod.fst = absentLine) ∧
    (let s := busyAt 0x00000003#32 0 0 (tickInputs (lineEnv (stuckLine 99)) ++ [])
     Accepted .checkPresence s ∧ s.blk.ovr = false ∧ (lineEnv (stuckLine 99)).map Prod.fst = stuckLine 99) :=
  ⟨⟨accepted_busyAt rfl _, rfl, rfl, lineEnv_fst _⟩, ⟨accepted_busyAt rfl _, rfl, lineEnv_fst _⟩,
    ⟨accepted_busyAt rfl _, rfl, lineEnv_fst _⟩⟩

theorem witness_WriteByteCommandRun :
    let s := busyAt 0x0000A504#32 0 0 (tickInputs (highs 560) ++ [])
    Accepted (.writeByte 0xA5#8) s ∧ s.blk.ovr = false ∧ s.inputs = tickInputs (highs 560) ++ [] ∧
      560 = 68 * ones 0xA5#8 + 72 * (8 - ones 0xA5#8) ∧ (highs 560).length = 560 :=
  ⟨accepted_busyAt rfl _, rfl, rfl, by decide, highs_length 560⟩

theorem witness_ReadBitCommandRun :
    let s := busyAt 0x00000005#32 0 0 (tickInputs (highs 60) ++ [])
    Accepted .readBit s ∧ s.blk.ovr = false ∧ s.inputs = tickInputs (highs 60) ++ [] ∧ (highs 60).length = 60 ∧
      (highs 60)[14]? = some (.high, true) :=
  ⟨accepted_busyAt rfl _, rfl, rfl, highs_length 60, by decide⟩

theorem witness_ReadByteCommandRun :
    let s := busyAt 0x00000006#32 0 0 (tickInputs (highs 480) ++ [])
    Accepted .readByte s ∧ s.blk.ovr = false ∧ s.inputs = tickInputs (highs 480) ++ [] ∧ (highs 480).length = 480 :=
  ⟨accepted_busyAt rfl _, rfl, rfl, highs_length 480⟩

theorem witness_InitCommandRun :
    (let s := busyAt 0x0000000A#32 0 0 (tickInputs (highs 766 ++ lineEnv (pulseLine 99 239)) ++ [])
     Accepted .init s ∧ s.blk.ovr = false ∧ s.inputs = tickInputs (highs 766 ++ lineEnv (pulseLine 99 239)) ++ [] ∧
       (highs 766).length = 766 ∧ (highs 766).head? = some (.high, true) ∧
       (lineEnv (pulseLine 99 239)).map Prod.fst = pulseLine 99 239) ∧
    (lineEnv absentLine).map Prod.fst = absentLine ∧ (lineEnv (stuckLine 99)).map Prod.fst = stuckLine 99 ∧
    (let s := busyAt 0x0000000A#32 0 0 [.tick .low false]
     Accepted .init s ∧ s.blk.ovr = false ∧ s.inputs = [.tick .low false]) :=
  ⟨⟨accepted_busyAt rfl _, rfl, rfl, highs_length 766, rfl, lineEnv_fst _⟩, lineEnv_fst _, lineEnv_fst _,
    accepted_busyAt rfl _, rfl, rfl⟩

theorem witness_ConfigureCommandRun :
    (let s := busyAt 0x00000001#32 0 0 [.tick .low true]
     Accepted .configure s ∧ s.blk.ovr = false ∧ s.inputs = [.tick .low true]) ∧
    (let s := busyAt 0x00000001#32 0 0 [.tick .low false]
     Accepted .configure s ∧ s.blk.ovr = false ∧ s.inputs = [.tick .low false]) :=
  ⟨⟨accepted_busyAt rfl _, rfl, rfl⟩, ⟨accepted_busyAt rfl _, rfl, rfl⟩⟩

theorem witness_SkipRomCommandRun :
    (let s := busyAt 0x00000007#32 0 0 (tickInputs (highs 765 ++ lineEnv (pulseLine 0 0) ++ highs 560) ++ [])
     Accepted .skipRom s ∧ s.blk.ovr = false ∧ (highs 765).length = 765 ∧ (highs 560).length = 560 ∧
       s.inputs = tickInputs (highs 765 ++ lineEnv (pulseLine 0 0) ++ highs 560) ++ [] ∧
       (lineEnv (pulseLine 0 0)).map Prod.fst = pulseLine 0 0) ∧
    (let s := busyAt 0x00000007#32 0 0 (tickInputs (highs 765 ++ lineEnv absentLine) ++ [])
     Accepted .skipRom s ∧ s.blk.ovr = false ∧ s.inputs = tickInputs (highs 765 ++ lineEnv absentLine) ++ []) ∧
    (let s := busyAt 0x00000007#32 0 0 (tickInputs (highs 765 ++ lineEnv (stuckLine 99)) ++ [])
     Accepted .skipRom s ∧ s.blk.ovr = false ∧ s.inputs = tickInputs (highs 765 ++ lineEnv (stuckLine 99)) ++ []) :=
  ⟨⟨accepted_busyAt rfl _, rfl, highs_length _, highs_length _, rfl, lineEnv_fst _⟩, ⟨accepted_busyAt rfl _, rfl, rfl⟩,
    ⟨accepted_busyAt rfl _, rfl, rfl⟩⟩

theorem witness_StartConversionCommandRun :
    (let s := busyAt 0x00000008#32 0 0 (tickInputs (highs 765 ++ lineEnv (pulseLine 99 239) ++ highs 1128) ++ [])
     Accepted .startConversion s ∧ s.blk.ovr = false ∧ (highs 765).length = 765 ∧ (highs 1128).length = 1128 ∧
       s.inputs = tickInputs (highs 765 ++ lineEnv (pulseLine 99 239) ++ highs 1128) ++ [] ∧
       (lineEnv (pulseLine 99 239)).map Prod.fst = pulseLine 99 239) ∧
    (let s := busyAt 0x00000008#32 0 0 (tickInputs (highs 765 ++ lineEnv absentLine) ++ [])
     Accepted .startConversion s ∧ s.blk.ovr = false ∧ s.inputs = tickInputs (highs 765 ++ lineEnv absentLine) ++ []) ∧
    (let s := busyAt 0x00000008#32 0 0 (tickInputs (highs 765 ++ lineEnv (stuckLine 0)) ++ [])
     Accepted .startConversion s ∧ s.blk.ovr = false ∧ s.inputs = tickInputs (highs 765 ++ lineEnv (stuckLine 0)) ++ []) :=
  ⟨⟨accepted_busyAt rfl _, rfl, highs_length _, highs_length _, rfl, lineEnv_fst _⟩, ⟨accepted_busyAt rfl _, rfl, rfl⟩,
    ⟨accepted_busyAt rfl _, rfl, rfl⟩⟩

theorem witness_ReadTemperatureCommandRun :
    let env := highs 765 ++ lineEnv (pulseLine 99 239) ++ highs 1893 ++ lineEnv (pulseLine 0 0) ++ highs 1112 ++ highs 960
    let s := busyAt 0x00000009#32 0 0 (tickInputs env ++ [])
    Accepted .readTemperature s ∧ s.blk.ovr = false ∧ s.inputs = tickInputs env ++ [] ∧ (highs 765).length = 765 ∧
      (lineEnv (pulseLine 99 239)).map Prod.fst = pulseLine 99 239 ∧ (highs 1893).length = 1893 ∧
      (lineEnv (pulseLine 0 0)).map Prod.fst = pulseLine 0 0 ∧ (highs 1112).length = 1112 ∧ (highs 960).length = 960 :=
  ⟨accepted_busyAt rfl _, rfl, rfl, highs_length _, lineEnv_fst _, highs_length _, lineEnv_fst _, highs_length _,
    highs_length _⟩

theorem witness_ReadTemperatureFails :
    (let s := busyAt 0x00000009#32 0 0 (tickInputs (highs 765 ++ lineEnv absentLine) ++ [])
     Accepted .readTemperature s ∧ s.blk.ovr = false ∧ s.inputs = tickInputs (highs 765 ++ lineEnv absentLine) ++ [] ∧
       (highs 765).length = 765 ∧ (lineEnv absentLine).map Prod.fst = absentLine) ∧
    (let s := busyAt 0x00000009#32 0 0 (tickInputs (highs 765 ++ lineEnv (stuckLine 99)) ++ [])
     Accepted .readTemperature s ∧ s.blk.ovr = false ∧
       s.inputs = tickInputs (highs 765 ++ lineEnv (stuckLine 99)) ++ [] ∧
       (lineEnv (stuckLine 99)).map Prod.fst = stuckLine 99) ∧
    (let env := highs 765 ++ lineEnv (pulseLine 99 239) ++ highs 1893 ++ lineEnv absentLine
     let s := busyAt 0x00000009#32 0 0 (tickInputs env ++ [])
     Accepted .readTemperature s ∧ s.blk.ovr = false ∧ s.inputs = tickInputs env ++ [] ∧ (highs 1893).length = 1893 ∧
       (lineEnv (pulseLine 99 239)).map Prod.fst = pulseLine 99 239) ∧
    (let env := highs 765 ++ lineEnv (pulseLine 0 0) ++ highs 1893 ++ lineEnv (stuckLine 0)
     let s := busyAt 0x00000009#32 0 0 (tickInputs env ++ [])
     Accepted .readTemperature s ∧ s.blk.ovr = false ∧ s.inputs = tickInputs env ++ [] ∧
       (lineEnv (stuckLine 0)).map Prod.fst = stuckLine 0) :=
  ⟨⟨accepted_busyAt rfl _, rfl, rfl, highs_length _, lineEnv_fst _⟩, ⟨accepted_busyAt rfl _, rfl, rfl, lineEnv_fst _⟩,
    ⟨accepted_busyAt rfl _, rfl, rfl, highs_length _, lineEnv_fst _⟩, ⟨accepted_busyAt rfl _, rfl, rfl, lineEnv_fst _⟩⟩

theorem witness_ByteRoundTrip :
    let s := busyAt 0x0000FF04#32 0 0 (tickInputs (highs 544) ++ [])
    let s' := busyAt 0x00000006#32 0 0 (tickInputs (highs 480) ++ [])
    Accepted (.writeByte 0xFF#8) s ∧ s.blk.ovr = false ∧ s.inputs = tickInputs (highs 544) ++ [] ∧
      (highs 544).length = 68 * ones 0xFF#8 + 72 * (8 - ones 0xFF#8) ∧
      Accepted .readByte s' ∧ s'.blk.ovr = false ∧ s'.inputs = tickInputs (highs 480) ++ [] ∧ (highs 480).length = 480 ∧
      ∀ j, j < 8 → ((highs 480)[60 * j + 14]?).map Prod.fst = some (if (0xFF#8 : Byte).getLsbD j then Level.high else .low) :=
  ⟨accepted_busyAt rfl _, rfl, rfl, by rw [highs_length]; decide, accepted_busyAt rfl _, rfl, rfl, highs_length _, by
    intro j hj
    rw [highs, List.getElem?_replicate, if_pos (by omega)]
    revert j
    decide⟩

theorem witness_SkipRomEqualsItsPrimitives :
    (resetWith []).rstN = .high ∧ (resetWith []).blk.busy = false ∧ (resetWith []).blk.ovr = false ∧
      (highs 765).length = 765 ∧ (lineEnv (pulseLine 99 239)).map Prod.fst = pulseLine 99 239 ∧
      (highs 560).length = 560 ∧ 1665 = 1325 + (99 + 239 + 2) :=
  ⟨rfl, rfl, rfl, highs_length _, lineEnv_fst _, highs_length _, rfl⟩

/-- Ends by completion in each of the two pin modes, and by each kind of abort. -/
theorem witness_PinModeAfterCommand :
    (busyAt 0x0000000A#32 4 239 (oneTick .high)).blk.err = .ok ∧
    (∃ t, exec .init (busyAt 0x0000000A#32 4 239 (oneTick .high)) = .next t ∧ t.blk.busy = false ∧ t.blk.err = .ok) ∧
    (∃ t, exec .reset (busyAt 0x00000002#32 1 14 (oneTick .high)) = .next t ∧ t.blk.busy = false ∧ t.blk.err = .ok) ∧
    (∃ t, exec .checkPresence (busyAt 0x00000003#32 0 99 (oneTick .high)) = .next t ∧ t.blk.busy = false ∧
      t.blk.err = .noDevicePresent) ∧
    (∃ t, exec .configure (busyAt 0x00000001#32 0 0 [.tick .low false]) = .next t ∧ t.blk.busy = false ∧
      t.blk.err = .configurationError) :=
  ⟨rfl, ⟨_, rfl, by decide, by decide⟩, ⟨_, rfl, by decide, by decide⟩, ⟨_, rfl, by decide, by decide⟩,
    ⟨_, rfl, by decide, by decide⟩⟩

theorem witness_DecodedWordAndValueAreExact :
    ((0x8000#16 : Half).getLsbD 15 = true ∧ (0x7FFF#16 : Half).getLsbD 15 = false) ∧
    ((0x8000#16 : Half) ≠ 0#16 ∧ 2 ^ 15 ≤ (0x8000#16 : Half).toInt.natAbs ∧ (0x8000#16 : Half).toInt.natAbs < 2 ^ 16) ∧
    ((0xFFFF#16 : Half) ≠ 0#16 ∧ 2 ^ 0 ≤ (0xFFFF#16 : Half).toInt.natAbs ∧ (0xFFFF#16 : Half).toInt.natAbs < 2 ^ 1) := by
  decide

theorem witness_DecoderNegationAndOrder :
    ((0x7FFF#16 : Half) ≠ 0x0000#16 ∧ (0x7FFF#16 : Half) ≠ 0x8000#16) ∧
    decode32 0x0001#16 = decode32 0x0001#16 ∧ (0x8000#16 : Half).toInt < (0x8001#16 : Half).toInt := by decide

theorem held_inv : Inv { State.reset with rstN := .low, inputs := [.rstN .high] } where
  resetHeld := by decide
  idlePosition := by decide
  busyFlags := by decide
  busyPosition := by decide
  errDone := by decide
  cmdLegal := by decide
  pullUpClock := by decide
  configErrorClock := by decide
  presenceErrorInput := by decide

theorem witness_HardwareReset :
    (busyAt 0x00000002#32 0 7 [.rstN .low]).inputs = [.rstN .low] ∧
    Inv { State.reset with rstN := .low, inputs := [.rstN .high] } ∧
    (∃ t, step { State.reset with rstN := .low, inputs := [.rstN .high] } = .next t) ∧
    ({ State.reset with rstN := .low, inputs := [.regRead 1#3] } : State).inputs = [.regRead 1#3] ∧
    ((resetWith [.regWrite 0#3 0x0000000A#32]).blk = Block.reset ∧ (resetWith [.regWrite 0#3 0x0000000A#32]).rstN = .high) :=
  ⟨rfl, held_inv, ⟨_, rfl⟩, rfl, rfl, rfl⟩

end Sys2Proof.Tests
end

section
/-! PROOFS of the statements about the state (spec/10_state.md): which words `decode` accepts, one tick of a
micro-operation in one equation and element by element, everything a step can do by named cases, and from these the
invariant, the writers of each element and two runs of one command. -/

namespace Sys2Proof.Machine

/-! ### Legal words -/

/-- A format N word is a command exactly if its `ARG` is zero (30_encoding.md R61). -/
theorem decodeFormatN_isOk (w : Word) (i : Instr) :
    (∃ j, decodeFormatN w i = .ok j) ↔ argField w = 0#8 := by
  unfold decodeFormatN
  split <;> simp [*]

/-- The legal words of R64 are exactly those that `decode` accepts. -/
theorem legal_iff_decode {w : Word} : Legal w = true ↔ ∃ i, decode w = .ok i := by
  have hlegal : Legal w = true ↔ rsvField w = 0#16 ∧
      (opcField w = formatBCode ∨ opcField w ∈ formatNCodes ∧ argField w = 0#8) := by
    simp [Legal, rsvField, opcField, argField]
  rw [hlegal]
  unfold decode
  by_cases hr : rsvField w = 0#16
  · rw [if_neg (not_not.mpr hr)]
    generalize opcField w = c
    split <;> rename_i hc
    case h_11 =>
      simp only [reduceCtorEq, exists_false, iff_false]
      rintro ⟨-, rfl | ⟨hm, -⟩⟩
      · simp [formatBCode] at *
      · simp only [formatNCodes, List.mem_cons, List.not_mem_nil, or_false] at hm
        rcases hm with rfl | rfl | rfl | rfl | rfl | rfl | rfl | rfl | rfl <;> simp at *
    all_goals
      have hv : c = BitVec.ofNat 8 c.toNat := by simp
      rw [hc] at hv
      simp [hv, hr, formatBCode, formatNCodes, decodeFormatN_isOk]
  · simp [hr]

theorem not_legal_iff_decode {w : Word} : Legal w = false ↔ ∃ e, decode w = .error e := by
  rw [← Bool.not_eq_true, legal_iff_decode]
  cases decode w <;> simp

/-! ### One tick of a micro-operation in one equation -/

/-- The block once a tick of the micro-operation has set the pins and, on the last tick of `SMP`, a bit of `SHR`
(40_micro_ops.md R82 to R87). The position and the flags come after it: `tick_eq`. -/
def MicroOp.setPins (u : MicroOp) (dq : Level) (ok : Bool) (b : Block) : Block :=
  match u with
  | .drv l _ => { b with oe := .output, out := l }
  | .rls _ => { b with oe := .input }
  | .smp n j => { b with oe := .input, shr := if b.cnt + 1 = n then setBit b.shr j dq.bit else b.shr }
  | .waitL _ _ => { b with oe := .input }
  | .waitH _ _ => { b with oe := .input }
  | .cfg =>
    { b with
      clken := true, pu := b.pu || ok, oe := if ok then .output else b.oe, out := if ok then .high else b.out }

/-- The code with which the micro-operation aborts (40_micro_ops.md R85 to R87). -/
def MicroOp.abortCode : MicroOp → ErrCode
  | .drv _ _ => .ok
  | .rls _ => .ok
  | .smp _ _ => .ok
  | .waitL _ c => c
  | .waitH _ c => c
  | .cfg => .configurationError

/-- A tick sets the pins, and then advances, aborts or stays, as the inputs of the tick say. -/
theorem tick_eq (i : Instr) (u : MicroOp) (dq : Level) (ok : Bool) (b : Block) :
    u.tick (expand i).length (resultOf i) dq ok b =
      if u.endsOnTick b.cnt dq ok then advanced i (u.setPins dq ok b)
      else if u.failsOnTick b.cnt dq ok then (u.setPins dq ok b).abort u.abortCode
      else (u.setPins dq ok b).stay := by
  cases u with
  | drv l n =>
    simp [MicroOp.tick, Block.tickDrv, Block.countTo, advance_eq_advanced, MicroOp.endsOnTick, MicroOp.failsOnTick,
      MicroOp.ticks, MicroOp.setPins]
  | rls n =>
    simp [MicroOp.tick, Block.tickRls, Block.countTo, advance_eq_advanced, MicroOp.endsOnTick, MicroOp.failsOnTick,
      MicroOp.ticks, MicroOp.setPins]
  | smp n j =>
    by_cases h : b.cnt + 1 = n <;>
      simp [MicroOp.tick, Block.tickSmp, advance_eq_advanced, MicroOp.endsOnTick, MicroOp.failsOnTick, MicroOp.ticks,
        MicroOp.setPins, h]
  | waitL m c =>
    cases dq <;>
      simp [MicroOp.tick, Block.tickWait, advance_eq_advanced, MicroOp.endsOnTick, MicroOp.failsOnTick, MicroOp.ticks,
        MicroOp.setPins, MicroOp.abortCode]
  | waitH m c =>
    cases dq <;>
      simp [MicroOp.tick, Block.tickWait, advance_eq_advanced, MicroOp.endsOnTick, MicroOp.failsOnTick, MicroOp.ticks,
        MicroOp.setPins, MicroOp.abortCode]
  | cfg =>
    cases ok <;>
      simp [MicroOp.tick, Block.tickCfg, advance_eq_advanced, MicroOp.endsOnTick, MicroOp.failsOnTick,
        MicroOp.setPins, MicroOp.abortCode]

section setPins
variable (u : MicroOp) (dq : Level) (ok : Bool) (b : Block)

@[simp] theorem setPins_cmd : (u.setPins dq ok b).cmd = b.cmd := by cases u <;> rfl
@[simp] theorem setPins_busy : (u.setPins dq ok b).busy = b.busy := by cases u <;> rfl
@[simp] theorem setPins_done : (u.setPins dq ok b).done = b.done := by cases u <;> rfl
@[simp] theorem setPins_ovr : (u.setPins dq ok b).ovr = b.ovr := by cases u <;> rfl
@[simp] theorem setPins_err : (u.setPins dq ok b).err = b.err := by cases u <;> rfl
@[simp] theorem setPins_data : (u.setPins dq ok b).data = b.data := by cases u <;> rfl
@[simp] theorem setPins_raw : (u.setPins dq ok b).raw = b.raw := by cases u <;> rfl
@[simp] theorem setPins_upc : (u.setPins dq ok b).upc = b.upc := by cases u <;> rfl
@[simp] theorem setPins_cnt : (u.setPins dq ok b).cnt = b.cnt := by cases u <;> rfl
@[simp] theorem setPins_clken : (u.setPins dq ok b).clken = (b.clken || u == .cfg) := by
  cases u <;> simp [MicroOp.setPins]
@[simp] theorem setPins_pu : (u.setPins dq ok b).pu = (b.pu || (u == .cfg && ok)) := by
  cases u <;> simp [MicroOp.setPins]

end setPins

/-! ### What `finished` and `advanced` leave -/

section advanced
variable (i : Instr) (b : Block)

@[simp] theorem finished_done : (finished i b).done = true := by cases i <;> rfl
@[simp] theorem finished_err : (finished i b).err = b.err := by cases i <;> rfl
@[simp] theorem advanced_cmd : (advanced i b).cmd = b.cmd := by unfold advanced; split <;> cases i <;> rfl
@[simp] theorem advanced_ovr : (advanced i b).ovr = b.ovr := by unfold advanced; split <;> cases i <;> rfl
@[simp] theorem advanced_err : (advanced i b).err = b.err := by unfold advanced; split <;> cases i <;> rfl
@[simp] theorem advanced_oe : (advanced i b).oe = b.oe := by unfold advanced; split <;> cases i <;> rfl
@[simp] theorem advanced_out : (advanced i b).out = b.out := by unfold advanced; split <;> cases i <;> rfl
@[simp] theorem advanced_pu : (advanced i b).pu = b.pu := by unfold advanced; split <;> cases i <;> rfl
@[simp] theorem advanced_clken : (advanced i b).clken = b.clken := by unfold advanced; split <;> cases i <;> rfl
@[simp] theorem advanced_shr : (advanced i b).shr = b.shr := by unfold advanced; split <;> cases i <;> rfl

end advanced

/-! ### A tick, element by element -/

section tick
variable (i : Instr) (u : MicroOp) (dq : Level) (ok : Bool) (b : Block)

/-- `tick_eq` as the three things a tick can do: advance, abort or stay. -/
theorem tick_three_ways :
    (u.endsOnTick b.cnt dq ok = true ∧
      u.tick (expand i).length (resultOf i) dq ok b = advanced i (u.setPins dq ok b)) ∨
    (u.failsOnTick b.cnt dq ok = true ∧
      u.tick (expand i).length (resultOf i) dq ok b = (u.setPins dq ok b).abort u.abortCode) ∨
    (u.endsOnTick b.cnt dq ok = false ∧ u.failsOnTick b.cnt dq ok = false ∧
      u.tick (expand i).length (resultOf i) dq ok b = (u.setPins dq ok b).stay) := by
  rw [tick_eq]
  cases u.endsOnTick b.cnt dq ok <;> cases u.failsOnTick b.cnt dq ok <;> simp

@[simp] theorem tick_oe : (u.tick (expand i).length (resultOf i) dq ok b).oe = (u.setPins dq ok b).oe := by
  obtain ⟨-, h⟩ | ⟨-, h⟩ | ⟨-, -, h⟩ := tick_three_ways i u dq ok b <;> simp [h]
@[simp] theorem tick_out : (u.tick (expand i).length (resultOf i) dq ok b).out = (u.setPins dq ok b).out := by
  obtain ⟨-, h⟩ | ⟨-, h⟩ | ⟨-, -, h⟩ := tick_three_ways i u dq ok b <;> simp [h]
@[simp] theorem tick_pu : (u.tick (expand i).length (resultOf i) dq ok b).pu = (b.pu || (u == .cfg && ok)) := by
  obtain ⟨-, h⟩ | ⟨-, h⟩ | ⟨-, -, h⟩ := tick_three_ways i u dq ok b <;> simp [h]
@[simp] theorem tick_clken : (u.tick (expand i).length (resultOf i) dq ok b).clken = (b.clken || u == .cfg) := by
  obtain ⟨-, h⟩ | ⟨-, h⟩ | ⟨-, -, h⟩ := tick_three_ways i u dq ok b <;> simp [h]
@[simp] theorem tick_shr : (u.tick (expand i).length (resultOf i) dq ok b).shr = (u.setPins dq ok b).shr := by
  obtain ⟨-, h⟩ | ⟨-, h⟩ | ⟨-, -, h⟩ := tick_three_ways i u dq ok b <;> simp [h]
@[simp] theorem tick_keeps_cmd : (u.tick (expand i).length (resultOf i) dq ok b).cmd = b.cmd := (tick_cmd ..).1
@[simp] theorem tick_keeps_ovr : (u.tick (expand i).length (resultOf i) dq ok b).ovr = b.ovr := (tick_cmd ..).2

/-- A tick that leaves the block busy keeps `DONE` and `ERR`; one that does not sets `DONE`. -/
theorem tick_flags (hb : b.busy = true) :
    let t := u.tick (expand i).length (resultOf i) dq ok b
    t.busy = true ∧ t.done = b.done ∧ t.err = b.err ∨ t.busy = false ∧ t.done = true := by
  obtain ⟨-, h⟩ | ⟨-, h⟩ | ⟨-, -, h⟩ := tick_three_ways i u dq ok b <;> rw [h]
  · unfold advanced
    split <;> simp [hb]
  · simp
  · simp [hb]

end tick

/-- A micro-operation that neither ends nor fails on a tick has a tick left after it. -/
theorem not_last_tick {u : MicroOp} {cnt : Nat} {dq : Level} {ok : Bool} (he : u.endsOnTick cnt dq ok = false)
    (hf : u.failsOnTick cnt dq ok = false) : cnt + 1 ≠ u.ticks := by
  cases u <;> cases dq <;> simp_all [MicroOp.endsOnTick, MicroOp.failsOnTick, MicroOp.ticks]

/-- What fails on a tick is `CFG` without the clock, or one of the two waits of a presence check. -/
theorem failsOnTick_entry {i : Instr} {e : Entry} {cnt : Nat} {dq : Level} {ok : Bool} (he : e ∈ expand i)
    (hf : e.op.failsOnTick cnt dq ok = true) :
    (e.op = .cfg ∧ ok = false ∧ e.op.abortCode = .configurationError) ∨
    (checksPresence i ∧ (e.op.abortCode = .noDevicePresent ∨ e.op.abortCode = .presencePulseInvalid) ∧
      ∀ b, (e.op.setPins dq ok b).oe = .input) := by
  obtain ⟨hl, hh, -⟩ := aborting_entry he
  cases hop : e.op with
  | drv l n => simp [hop, MicroOp.failsOnTick] at hf
  | rls n => simp [hop, MicroOp.failsOnTick] at hf
  | smp n j => simp [hop, MicroOp.failsOnTick] at hf
  | waitL m c =>
    obtain ⟨-, rfl, hi⟩ := hl m c hop
    exact .inr ⟨hi, .inl rfl, fun _ => rfl⟩
  | waitH m c =>
    obtain ⟨-, rfl, hi⟩ := hh m c hop
    exact .inr ⟨hi, .inr rfl, fun _ => rfl⟩
  | cfg => exact .inl ⟨rfl, by simpa [hop, MicroOp.failsOnTick] using hf, rfl⟩

/-- How a tick changes `ERR`: not at all, or by the abort of `CFG` or of a presence check. -/
theorem tick_err {i : Instr} {e : Entry} (he : e ∈ expand i) (dq : Level) (ok : Bool) (b : Block) :
    let t := e.op.tick (expand i).length (resultOf i) dq ok b
    t.err = b.err ∨
    (t.busy = false ∧ e.op = .cfg ∧ ok = false ∧ t.err = .configurationError) ∨
    (t.busy = false ∧ checksPresence i ∧ (t.err = .noDevicePresent ∨ t.err = .presencePulseInvalid) ∧
      t.oe = .input) := by
  obtain ⟨-, h⟩ | ⟨hf, h⟩ | ⟨-, -, h⟩ := tick_three_ways i e.op dq ok b <;> rw [h]
  · simp
  · obtain ⟨hop, hok, hc⟩ | ⟨hi, hc, hoe⟩ := failsOnTick_entry he hf
    · exact .inr (.inl ⟨rfl, hop, hok, hc⟩)
    · exact .inr (.inr ⟨rfl, hi, hc, hoe b⟩)
  · simp

/-- What a tick that ends a command does to the result registers, and that no other tick writes them. -/
theorem tick_results (i : Instr) (u : MicroOp) (dq : Level) (ok : Bool) (b : Block) :
    let t := u.tick (expand i).length (resultOf i) dq ok b
    (t.data = b.data ∧ t.raw = b.raw) ∨
    (u.endsOnTick b.cnt dq ok = true ∧ b.upc + 1 = (expand i).length ∧ t = finished i (u.setPins dq ok b)) := by
  obtain ⟨he, h⟩ | ⟨-, h⟩ | ⟨-, -, h⟩ := tick_three_ways i u dq ok b <;> rw [h]
  · by_cases hl : b.upc + 1 = (expand i).length
    · exact .inr ⟨he, hl, by simp [advanced, hl]⟩
    · exact .inl (by simp [advanced, hl])
  · simp
  · simp

/-! ### Everything a step can do, as named cases -/

/-- What a step does to the block and to `rst_n`: the cases of `step_block_cases` by name. -/
inductive StepEffect (s t : State) : Prop
  | keeps (blk : t.blk = s.blk) (rstN : t.rstN = s.rstN ∨ t.rstN = .high)
  | resets (rest : List Input) (inputs : s.inputs = .rstN .low :: rest) (blk : t.blk = Block.reset)
      (rstN : t.rstN = .low)
  | accepts (v : Word) (rest : List Input) (i : Instr) (inputs : s.inputs = .regWrite 0#3 v :: rest)
      (high : s.rstN = .high) (idle : s.blk.busy = false) (decodes : decode v = .ok i)
      (blk : t.blk = s.blk.accept v) (rstN : t.rstN = .high)
  | refuses (v : Word) (rest : List Input) (e : DecodeError) (inputs : s.inputs = .regWrite 0#3 v :: rest)
      (idle : s.blk.busy = false) (decodes : decode v = .error e) (blk : t.blk = s.blk.refuseIllegal)
      (rstN : t.rstN = .high)
  | writesRaw (v : Word) (rest : List Input) (inputs : s.inputs = .regWrite 3#3 v :: rest)
      (idle : s.blk.busy = false) (blk : t.blk = { s.blk with raw := v.extractLsb' 0 16 }) (rstN : t.rstN = .high)
  | drops (a : RegIndex) (v : Word) (rest : List Input) (inputs : s.inputs = .regWrite a v :: rest)
      (index : a = 0#3 ∨ a = 3#3) (busy : s.blk.busy = true) (blk : t.blk = s.blk.dropWrite) (rstN : t.rstN = .high)
  | ticks (i : Instr) (e : Entry) (tick : s.nextIsTick = true) (high : s.rstN = .high) (busy : s.blk.busy = true)
      (decodes : decode s.blk.cmd = .ok i) (entry : (expand i)[s.blk.upc]? = some e)
      (blk : t.blk = e.op.tick (expand i).length (resultOf i) s.dqIn s.gpioClkOk s.blk) (rstN : t.rstN = .high)
      (line : s.readsLine = e.op.readsLine s.blk.cnt) (clock : s.readsClock = (e.op == .cfg))

/-- After a step `rst_n` is low because it was taken low, or because it was low and stayed so; the block is then as
it was (70_reset_and_hazards.md R175). -/
theorem step_to_low {s t : State} (h : step s = .next t) (hr : t.rstN = .low) :
    (∃ rest, s.inputs = .rstN .low :: rest) ∨ (t.blk = s.blk ∧ s.rstN = .low) := by
  rcases step_cases h with ⟨a, rest, -, rfl⟩ | ⟨a, v, rest, -, rfl⟩ | ⟨l, rest, hin, rfl⟩ | ⟨-, -, rfl⟩ |
    ⟨-, hrun, i, e, -, -, rfl⟩
  · exact .inr ⟨rfl, hr⟩
  · exact .inr (by simp_all)
  · exact .inl ⟨rest, by simp_all⟩
  · exact .inr ⟨rfl, hr⟩
  · simp_all [State.running]

theorem step_effect {s t : State} (h : step s = .next t) : StepEffect s t := by
  rcases step_block_cases h with ⟨hb, hr⟩ | ⟨hb, hr⟩ | ⟨v, rest, i, hin, hh, hi, hd, hb, hr⟩ |
    ⟨v, rest, e, hin, -, hi, hd, hb, hr⟩ | ⟨v, rest, hin, -, hi, hb, hr⟩ | ⟨a, v, rest, hin, ha, -, hi, hb, hr⟩ |
    ⟨hn, hh, hi, hr, i, e, hd, he, hb, hl, hc⟩
  · exact .keeps hb (hr.imp_right And.left)
  · obtain ⟨rest, hin⟩ | ⟨hb', hr'⟩ := step_to_low h hr
    · exact .resets rest hin hb hr
    · exact .keeps hb' (.inl (hr.trans hr'.symm))
  · exact .accepts v rest i hin hh hi hd hb hr
  · exact .refuses v rest e hin hi hd hb hr
  · exact .writesRaw v rest hin hi hb hr
  · exact .drops a v rest hin ha hi hb hr
  · exact .ticks i e hn hh hi hd he hb hr hl hc

theorem mem_of_entry {i : Instr} {k : Nat} {e : Entry} (h : (expand i)[k]? = some e) : e ∈ expand i :=
  List.mem_of_getElem? h

/-- A tick of a busy block out of reset runs the entry at `UPC`. -/
theorem step_busy_tick {s t : State} (hn : s.nextIsTick = true) (hr : s.rstN = .high) (hb : s.blk.busy = true)
    (h : step s = .next t) :
    ∃ i e, decode s.blk.cmd = .ok i ∧ (expand i)[s.blk.upc]? = some e ∧
      t.blk = e.op.tick (expand i).length (resultOf i) s.dqIn s.gpioClkOk s.blk := by
  rcases step_cases h with ⟨a, rest, hin, -⟩ | ⟨a, v, rest, hin, -⟩ | ⟨l, rest, hin, -⟩ | ⟨-, hrun, -⟩ |
    ⟨-, -, i, e, hf, he, rfl⟩
  · simp [State.nextIsTick, hin] at hn
  · simp [State.nextIsTick, hin] at hn
  · simp [State.nextIsTick, hin] at hn
  · simp [State.running, hr, hb] at hrun
  · exact ⟨i, e, hf, he, rfl⟩

theorem step_regWrite {s : State} {a : RegIndex} {v : Word} {rest : List Input}
    (h : s.inputs = .regWrite a v :: rest) : step s = .next (s.hostWrite a v rest) := by
  rw [step, h]

theorem step_rstN {s : State} {l : Level} {rest : List Input} (h : s.inputs = .rstN l :: rest) :
    step s = .next (s.setRstN l rest) := by
  rw [step, h]

theorem entry_eq_some {b : Block} {e : Entry} :
    b.entry = some e ↔ b.busy = true ∧ ∃ i, decode b.cmd = .ok i ∧ (expand i)[b.upc]? = some e := by
  unfold Block.entry
  cases b.busy <;> cases decode b.cmd <;> simp

/-- `step_busy_tick` where the entry in progress is known. -/
theorem step_entry_tick {s t : State} {e : Entry} (hn : s.nextIsTick = true) (hr : s.rstN = .high)
    (he : s.blk.entry = some e) (h : step s = .next t) :
    ∃ i, t.blk = e.op.tick (expand i).length (resultOf i) s.dqIn s.gpioClkOk s.blk := by
  obtain ⟨hb, i, hd, hi⟩ := entry_eq_some.mp he
  obtain ⟨j, f, hd', hf, ht⟩ := step_busy_tick hn hr hb h
  obtain rfl : i = j := by simpa [hd] using hd'
  obtain rfl : e = f := by simpa [hi] using hf
  exact ⟨i, ht⟩

/-! ### The invariant of the block -/

/-- `Inv` without its clause on reset: what it says of the block alone. -/
structure BlockInv (b : Block) : Prop where
  idlePosition : b.busy = false → b.upc = 0 ∧ b.cnt = 0
  busyFlags : b.busy = true → b.done = false ∧ b.err = .ok
  busyPosition : b.busy = true → b.positionOk = true
  errDone : b.done = false → b.err = .ok
  cmdLegal : b.cmd = 0#32 ∨ Legal b.cmd = true
  pullUpClock : b.pu = true → b.clken = true
  configErrorClock : b.err = .configurationError → b.clken = true
  presenceErrorInput : b.err = .noDevicePresent ∨ b.err = .presencePulseInvalid → b.oe = .input

theorem inv_iff {s : State} : Inv s ↔ (s.rstN = .low → s.blk = Block.reset) ∧ BlockInv s.blk :=
  ⟨fun ⟨h0, h1, h2, h3, h4, h5, h6, h7, h8⟩ => ⟨h0, ⟨h1, h2, h3, h4, h5, h6, h7, h8⟩⟩,
    fun ⟨h0, ⟨h1, h2, h3, h4, h5, h6, h7, h8⟩⟩ => ⟨h0, h1, h2, h3, h4, h5, h6, h7, h8⟩⟩

theorem positionOk_iff {b : Block} :
    b.positionOk = true ↔
      ∃ i e, decode b.cmd = .ok i ∧ (expand i)[b.upc]? = some e ∧ b.cnt < e.op.ticks := by
  unfold Block.positionOk
  cases decode b.cmd with
  | ok i => cases he : (expand i)[b.upc]? <;> simp [he]
  | error e => simp

theorem blockInv_reset : BlockInv Block.reset := by
  constructor <;> simp [Block.reset]

theorem BlockInv.accept {b : Block} {v : Word} {i : Instr} (h : BlockInv b) (hd : decode v = .ok i) :
    BlockInv (b.accept v) where
  idlePosition := by simp
  busyFlags := by simp
  busyPosition _ := by
    have h0 := List.getElem?_eq_getElem (expand_pos i)
    exact positionOk_iff.mpr ⟨i, _, hd, h0, (entry_ticks (mem_of_entry h0)).1⟩
  errDone := by simp
  cmdLegal := .inr (legal_iff_decode.mpr ⟨i, hd⟩)
  pullUpClock := h.pullUpClock
  configErrorClock := by simp
  presenceErrorInput := by simp

theorem BlockInv.refuseIllegal {b : Block} (h : BlockInv b) (hb : b.busy = false) : BlockInv b.refuseIllegal where
  idlePosition := h.idlePosition
  busyFlags := by simp [hb]
  busyPosition := by simp [hb]
  errDone := by simp
  cmdLegal := h.cmdLegal
  pullUpClock := h.pullUpClock
  configErrorClock := by simp
  presenceErrorInput := by simp

/-- No clause speaks of `OVR` or `RAW`. -/
theorem BlockInv.ovr_raw {b : Block} (h : BlockInv b) (o : Bool) (v : Half) :
    BlockInv { b with ovr := o, raw := v } :=
  ⟨h.idlePosition, h.busyFlags, h.busyPosition, h.errDone, h.cmdLegal, h.pullUpClock, h.configErrorClock,
    h.presenceErrorInput⟩

/-- A tick that leaves the command busy leaves the position inside the list (10_state.md R31). -/
theorem tick_positionOk {i : Instr} {e : Entry} {b : Block} {dq : Level} {ok : Bool} (hd : decode b.cmd = .ok i)
    (he : (expand i)[b.upc]? = some e) (hc : b.cnt < e.op.ticks)
    (ht : (e.op.tick (expand i).length (resultOf i) dq ok b).busy = true) :
    (e.op.tick (expand i).length (resultOf i) dq ok b).positionOk = true := by
  obtain ⟨-, h⟩ | ⟨-, h⟩ | ⟨hend, hfail, h⟩ := tick_three_ways i e.op dq ok b <;> rw [h] at ht ⊢
  · by_cases hl : b.upc + 1 = (expand i).length
    · simp [advanced, hl] at ht
    · have hlt : b.upc + 1 < (expand i).length := by
        have := (List.getElem?_eq_some_iff.mp he).1
        omega
      have h1 := List.getElem?_eq_getElem hlt
      rw [advanced, if_neg (by simpa using hl)]
      exact positionOk_iff.mpr ⟨i, _, by simpa using hd, by rw [← h1, setPins_upc],
        (entry_ticks (mem_of_entry h1)).1⟩
  · simp at ht
  · have := not_last_tick hend hfail
    exact positionOk_iff.mpr ⟨i, e, by simpa using hd, by simpa using he, by simp; omega⟩

theorem BlockInv.tick {i : Instr} {e : Entry} {b : Block} (h : BlockInv b) (hb : b.busy = true)
    (hd : decode b.cmd = .ok i) (he : (expand i)[b.upc]? = some e) (dq : Level) (ok : Bool) :
    BlockInv (e.op.tick (expand i).length (resultOf i) dq ok b) := by
  obtain ⟨hdone, herr⟩ := h.busyFlags hb
  have hflags := tick_flags i e.op dq ok b hb
  have herrs := tick_err (mem_of_entry he) dq ok b
  constructor
  case idlePosition =>
    intro ht
    have hpos := tick_position i e.op dq ok b
    grind
  case busyFlags => grind
  case busyPosition =>
    obtain ⟨j, f, hj, hf, hc⟩ := positionOk_iff.mp (h.busyPosition hb)
    obtain rfl : i = j := by simpa [hd] using hj
    obtain rfl : e = f := by simpa [he] using hf
    exact tick_positionOk hd he hc
  case errDone => grind
  case cmdLegal => simpa using h.cmdLegal
  case pullUpClock =>
    have hpu := h.pullUpClock
    rw [tick_pu, tick_clken]
    grind
  case configErrorClock =>
    rw [tick_clken]
    grind
  case presenceErrorInput => grind

/-- Settles O26: each thing a step can do keeps the invariant of the block. -/
theorem everyStepKeepsInvariant : Obligations.EveryStepKeepsInvariant := by
  intro s t hs hstep
  obtain ⟨hreset, hinv⟩ := inv_iff.mp hs
  rw [inv_iff]
  cases step_effect hstep with
  | keeps blk rstN => rw [blk]; exact ⟨fun hl => hreset (by simpa [hl, eq_comm] using rstN), hinv⟩
  | resets rest _ blk => rw [blk]; exact ⟨fun _ => rfl, blockInv_reset⟩
  | accepts v rest i _ _ _ decodes blk rstN => rw [blk]; exact ⟨by simp [rstN], hinv.accept decodes⟩
  | refuses v rest e _ idle _ blk rstN => rw [blk]; exact ⟨by simp [rstN], hinv.refuseIllegal idle⟩
  | writesRaw v rest _ _ blk rstN => rw [blk]; exact ⟨by simp [rstN], hinv.ovr_raw s.blk.ovr _⟩
  | drops a v rest _ _ _ blk rstN => rw [blk]; exact ⟨by simp [rstN], hinv.ovr_raw true s.blk.raw⟩
  | ticks i e _ _ busy decodes entry blk rstN =>
    rw [blk]; exact ⟨by simp [rstN], hinv.tick busy decodes entry _ _⟩

/-- Settles O25: the reset values meet every clause of the invariant. -/
theorem invariantHoldsAtReset : Obligations.InvariantHoldsAtReset := by
  have initial (s : State) (h : Initial s) : Inv s := by
    rw [inv_iff, h.1]
    exact ⟨fun _ => rfl, blockInv_reset⟩
  exact ⟨initial _ ⟨rfl, rfl⟩, initial⟩

/-! ### Runs -/

/-- The invariant holds in every state of a run. -/
theorem inv_of_reaches {s t : State} (hs : Initial s) (h : Reaches s t) : Inv t := by
  induction h with
  | refl => exact invariantHoldsAtReset.2 _ hs
  | tail _ hstep ih => exact everyStepKeepsInvariant _ _ ih hstep

theorem expand_length_le (i : Instr) : (expand i).length ≤ 120 := by
  cases i
  case writeByte v => rw [expand_writeByte_length]; decide
  all_goals decide

/-- Settles O28: the invariant bounds the position by the longest list and the longest entry. -/
theorem positionStaysInBounds : Obligations.PositionStaysInBounds := by
  refine ⟨fun s t hs ht => ?_, expand_length_le, expand_readTemperature_length⟩
  have hinv := inv_of_reaches hs ht
  cases hb : t.blk.busy with
  | false =>
    obtain ⟨hu, hc⟩ := hinv.idlePosition hb
    omega
  | true =>
    obtain ⟨i, e, -, he, hc⟩ := positionOk_iff.mp (hinv.busyPosition hb)
    have hlt := (List.getElem?_eq_some_iff.mp he).1
    have hlen := expand_length_le i
    have hticks := (entry_ticks (mem_of_entry he)).2
    omega

/-! ### The sequencer's position -/

theorem regWrite_accept {v : Word} {b : Block} (hb : b.busy = false) (hv : Legal v = true) :
    b.regWrite 0#3 v = b.accept v := by
  obtain ⟨i, hi⟩ := legal_iff_decode.mp hv
  simp [Block.regWrite, Block.writeCmd, hb, hi]

/-- Settles O18, clause by clause: an accept, hardware reset, a tick (`tick_position`), and every other step. -/
theorem sequencerPositionMoves : Obligations.SequencerPositionMoves := by
  refine ⟨?accept, ?reset, ?tick, ?other⟩
  case accept =>
    intro s t v rest hin hr hb hv h
    rw [step_regWrite hin] at h
    cases h
    rw [State.hostWrite_blk, if_neg (by simp [hr]), regWrite_accept hb hv]
    exact ⟨rfl, rfl, rfl⟩
  case reset =>
    intro s t rest hin h
    rw [step_rstN hin] at h
    cases h
    exact ⟨rfl, rfl, rfl⟩
  case tick =>
    intro s t hn hr hb h
    obtain ⟨i, e, hd, he, ht⟩ := step_busy_tick hn hr hb h
    refine ⟨i, e, hd, he, ?_⟩
    rw [ht]
    simpa [hb] using tick_position i e.op s.dqIn s.gpioClkOk s.blk
  case other =>
    intro s t h hw hreset htick
    cases step_effect h with
    | resets rest inputs => exact absurd ⟨rest, inputs⟩ hreset
    | accepts v rest i inputs high idle decodes =>
      exact absurd ⟨v, rest, inputs, high, idle, legal_iff_decode.mpr ⟨i, decodes⟩⟩ hw
    | ticks i e tick high busy => exact absurd ⟨tick, high, busy⟩ htick
    | _ => simp [*]

/-! ### The result registers -/

/-- A tick that leaves the block idle is the last of the list, or an abort. -/
theorem tick_ends {i : Instr} {u : MicroOp} {dq : Level} {ok : Bool} {b : Block} (hb : b.busy = true)
    (ht : (u.tick (expand i).length (resultOf i) dq ok b).busy = false) :
    (u.endsOnTick b.cnt dq ok = true ∧ b.upc + 1 = (expand i).length ∧
      u.tick (expand i).length (resultOf i) dq ok b = finished i (u.setPins dq ok b)) ∨
    (u.failsOnTick b.cnt dq ok = true ∧
      u.tick (expand i).length (resultOf i) dq ok b = (u.setPins dq ok b).abort u.abortCode) := by
  obtain ⟨he, h⟩ | hf | ⟨-, -, h⟩ := tick_three_ways i u dq ok b
  · rw [h] at ht ⊢
    by_cases hl : b.upc + 1 = (expand i).length
    · exact .inl ⟨he, hl, by simp [advanced, hl]⟩
    · simp [advanced, hl, hb] at ht
  · exact .inr hf
  · rw [h] at ht
    simp [hb] at ht

/-- `READ_BIT` and `READ_BYTE` hold nothing that can abort. -/
theorem read_never_fails {i : Instr} {e : Entry} {cnt : Nat} {dq : Level} {ok : Bool}
    (hi : i = .readBit ∨ i = .readByte) (he : e ∈ expand i) : e.op.failsOnTick cnt dq ok = false := by
  rw [← Bool.not_eq_true]
  intro hf
  obtain ⟨hop, -⟩ | ⟨hp, -⟩ := failsOnTick_entry he hf
  · have := (aborting_entry he).2.2 hop
    grind
  · unfold checksPresence at hp
    grind

/-- The last entry of a reading command does not touch `SHR`. -/
theorem reading_keeps_shr {i : Instr} {e : Entry} {b : Block}
    (hi : i = .readBit ∨ i = .readByte ∨ i = .readTemperature) (he : (expand i)[b.upc]? = some e)
    (hl : b.upc + 1 = (expand i).length) (dq : Level) (ok : Bool) : (e.op.setPins dq ok b).shr = b.shr := by
  rw [last_entry_of_reading hi he hl]
  rfl

theorem finished_data_congr {i : Instr} {b b' : Block} (hi : i = .readBit ∨ i = .readByte) (hs : b.shr = b'.shr) :
    (finished i b).data = (finished i b').data := by
  rcases hi with rfl | rfl <;> simp [finished, hs]

theorem finished_data_changes {i : Instr} (b : Block) (h : (finished i b).data ≠ b.data) :
    i = .readBit ∨ i = .readByte := by
  cases i <;> simp_all [finished]

theorem finished_raw_changes {i : Instr} (b : Block) (h : (finished i b).raw ≠ b.raw) : i = .readTemperature := by
  cases i <;> simp_all [finished]

/-- `READ_BIT` and `READ_BYTE` end with their result in `DATA`. -/
theorem read_data {i : Instr} {e : Entry} {b : Block} {dq : Level} {ok : Bool} (hi : i = .readBit ∨ i = .readByte)
    (hb : b.busy = true) (he : (expand i)[b.upc]? = some e)
    (ht : (e.op.tick (expand i).length (resultOf i) dq ok b).busy = false) :
    (e.op.tick (expand i).length (resultOf i) dq ok b).data = (finished i b).data := by
  obtain ⟨-, hl, h⟩ | ⟨hf, -⟩ := tick_ends hb ht
  · rw [h, finished_data_congr hi (reading_keeps_shr (hi.imp_right .inl) he hl dq ok)]
  · simp [read_never_fails hi (mem_of_entry he)] at hf

/-- A tick that changes `DATA` is one that ends `READ_BIT` or `READ_BYTE`. -/
theorem tick_data_changes {i : Instr} {u : MicroOp} {dq : Level} {ok : Bool} {b : Block}
    (h : (u.tick (expand i).length (resultOf i) dq ok b).data ≠ b.data) :
    (i = .readBit ∨ i = .readByte) ∧ (u.tick (expand i).length (resultOf i) dq ok b).busy = false := by
  obtain ⟨hd, -⟩ | ⟨-, -, ht⟩ := tick_results i u dq ok b
  · exact absurd hd h
  · rw [ht] at h ⊢
    exact ⟨finished_data_changes (u.setPins dq ok b) (by simpa using h), finished_busy ..⟩

theorem regRead_data (b : Block) : b.regRead 2#3 = 0#24 ++ b.data :=
  BitVec.setWidth_eq_append (x := b.data) (by decide)

theorem regRead_raw (b : Block) : b.regRead 3#3 = 0#16 ++ b.raw :=
  BitVec.setWidth_eq_append (x := b.raw) (by decide)

/-- Settles O31: only `finished` writes `DATA`, for the two commands that read it from `SHR`. -/
theorem dataWrittenOnlyByReadCompletion : Obligations.DataWrittenOnlyByReadCompletion := by
  refine ⟨?only, ?does, regRead_data, rfl⟩
  case only =>
    intro s t h hne
    cases step_effect h with
    | ticks i e tick high busy decodes entry blk =>
      rw [blk] at hne ⊢
      obtain ⟨hi, hidle⟩ := tick_data_changes hne
      refine .inl ⟨tick, high, busy, hidle, ?_⟩
      rw [read_data hi busy entry hidle]
      exact hi.imp (by rintro rfl; exact ⟨decodes, rfl⟩) (by rintro rfl; exact ⟨decodes, rfl⟩)
    | resets rest _ blk rstN => exact .inr ⟨rstN, by rw [blk]; rfl⟩
    | _ => simp_all
  case does =>
    intro s t h hn hb ht
    cases step_effect h with
    | ticks i e tick high busy decodes entry blk =>
      rw [blk] at ht ⊢
      constructor <;> intro hd <;> obtain rfl : i = _ := by simpa [decodes] using hd
      · exact read_data (.inl rfl) busy entry ht
      · exact read_data (.inr rfl) busy entry ht
    | _ => simp_all [State.nextIsTick]

/-- Settles O32: only `finished` of `READ_TEMPERATURE`, a host write and hardware reset write `RAW`. -/
theorem rawWrittenOnlyByReadTemperatureOrHost : Obligations.RawWrittenOnlyByReadTemperatureOrHost := by
  refine ⟨fun s t h hne => ?_, regRead_raw, rfl⟩
  cases step_effect h with
  | ticks i e tick high busy decodes entry blk =>
    rw [blk] at hne ⊢
    obtain ⟨-, hraw⟩ | ⟨-, hl, ht⟩ := tick_results i e.op s.dqIn s.gpioClkOk s.blk
    · exact absurd hraw hne
    · rw [ht] at hne ⊢
      obtain rfl := finished_raw_changes (e.op.setPins s.dqIn s.gpioClkOk s.blk) (by simpa using hne)
      exact .inl ⟨tick, high, busy, rfl, by simp, decodes, reading_keeps_shr (.inr (.inr rfl)) entry hl _ _⟩
  | writesRaw v rest inputs idle blk => exact .inr (.inl ⟨idle, v, rest, inputs, by rw [blk]⟩)
  | resets rest _ blk rstN => exact .inr (.inr ⟨rstN, by rw [blk]; rfl⟩)
  | _ => simp_all

/-! ### The shift register -/

@[simp] theorem setPins_smp_shr (n : Nat) (j : Fin 16) (dq : Level) (ok : Bool) (b : Block) :
    ((MicroOp.smp n j).setPins dq ok b).shr = if b.cnt + 1 = n then setBit b.shr j dq.bit else b.shr := rfl

/-- Only the last tick of `SMP` changes `SHR`. -/
theorem setPins_shr_changes {u : MicroOp} {dq : Level} {ok : Bool} {b : Block}
    (h : (u.setPins dq ok b).shr ≠ b.shr) : ∃ n j, u = .smp n j ∧ b.cnt + 1 = n := by
  cases u with
  | smp n j => exact ⟨n, j, rfl, by by_contra hn; simp [hn] at h⟩
  | _ => exact absurd rfl h

theorem bit_eq_decide (l : Level) : l.bit = decide (l = .high) := by cases l <;> rfl

/-- The last tick of `SMP(n, j)` puts the level of the line into bit `j` and keeps the others. -/
theorem tick_sample {i : Instr} {e : Entry} {n : Nat} {j : Fin 16} {b : Block} (hop : e.op = .smp n j)
    (hn : b.cnt + 1 = n) (dq : Level) (ok : Bool) (k : Nat) :
    (e.op.tick (expand i).length (resultOf i) dq ok b).shr.getLsbD k =
      if k = j.val then decide (dq = .high) else b.shr.getLsbD k := by
  rw [tick_shr, hop, setPins_smp_shr, if_pos hn, getLsbD_setBit, bit_eq_decide]

/-- Settles O33: of the ticks only the last one of `SMP` writes `SHR`, and it writes one bit. -/
theorem shiftRegisterWrites : Obligations.ShiftRegisterWrites := by
  refine ⟨?only, ?samples, ?accept, rfl⟩
  case only =>
    intro s t h hne
    cases step_effect h with
    | ticks i e tick high busy decodes entry blk _ line =>
      rw [blk, tick_shr] at hne
      obtain ⟨n, j, hop, hn⟩ := setPins_shr_changes hne
      refine .inl ⟨tick, high, busy, by simp [line, hop, MicroOp.readsLine, hn], e, n, j,
        entry_eq_some.mpr ⟨busy, i, decodes, entry⟩, hop, hn, fun k => ?_⟩
      rw [blk, tick_sample hop hn]
    | accepts v rest i _ _ idle _ blk => exact .inr (.inl ⟨idle, by simp [blk]⟩)
    | resets rest _ blk rstN => exact .inr (.inr ⟨rstN, by rw [blk]; rfl⟩)
    | _ => simp_all
  case samples =>
    intro s t e n j hnext hr hentry hop hn h k
    obtain ⟨i, ht⟩ := step_entry_tick hnext hr hentry h
    rw [ht, tick_sample hop hn]
  case accept =>
    intro s t h hidle hbusy
    cases step_effect h with
    | accepts v rest i _ _ _ _ blk => simp [blk]
    | _ => simp_all [Block.reset]

/-! ### The flags, `CMD` and the latches -/

/-- Settles O34: `OVR` is written by a dropped write and by hardware reset alone. -/
theorem overrunFlagIsSticky : Obligations.OverrunFlagIsSticky := by
  refine ⟨fun s t hinv h hovr => ⟨fun ht => ?_, ?_⟩, fun s t h hs ht => ?_, fun s t h hlow hhigh => ?_, rfl⟩
  · cases step_effect h with
    | drops a v rest inputs index busy => exact ⟨busy, a, v, rest, index, inputs⟩
    | _ => simp_all [Block.reset]
  · rintro ⟨hb, a, v, rest, ha, hin⟩
    have hr : s.rstN ≠ .low := by
      intro hl
      simp [hinv.resetHeld hl, Block.reset] at hb
    rw [step_regWrite hin] at h
    cases h
    rw [State.hostWrite_blk, if_neg hr]
    rcases ha with rfl | rfl <;> simp [Block.regWrite, Block.writeCmd, Block.writeRaw, hb]
  · cases step_effect h with
    | resets _ _ _ rstN => exact rstN
    | _ => simp_all
  · cases step_effect h with
    | resets _ _ blk => rw [blk]; rfl
    | _ => simp_all

/-- A step that starts a command is an accepted write of a legal word to index 0. -/
theorem step_starts {s t : State} (h : step s = .next t) (hs : s.blk.busy = false) (ht : t.blk.busy = true) :
    ∃ v rest, s.inputs = .regWrite 0#3 v :: rest ∧ Legal v = true ∧ t.blk = s.blk.accept v := by
  cases step_effect h with
  | accepts v rest i inputs _ _ decodes blk => exact ⟨v, rest, inputs, legal_iff_decode.mpr ⟨i, decodes⟩, blk⟩
  | _ => simp_all [Block.reset]

/-- Settles O35: `CMD` is written by an accept and by hardware reset alone. -/
theorem cmdHoldsLastAcceptedWord : Obligations.CmdHoldsLastAcceptedWord := by
  refine ⟨fun s t h hne => ?_, fun s t h hs ht => ?_, fun b => rfl, rfl, by decide⟩
  · cases step_effect h with
    | accepts v rest i inputs _ idle decodes blk =>
      exact .inl ⟨idle, v, rest, inputs, legal_iff_decode.mpr ⟨i, decodes⟩, by rw [blk]; rfl⟩
    | resets _ _ blk rstN => exact .inr ⟨rstN, by rw [blk]; rfl⟩
    | _ => simp_all
  · obtain ⟨v, rest, hin, hv, hblk⟩ := step_starts h hs ht
    exact ⟨v, rest, hin, hv, by rw [hblk]; rfl⟩

/-- How a step changes `PU` and `CLKEN`: hardware reset aside, only by a tick of `CFG`. -/
theorem step_pu_clken {s t : State} (h : step s = .next t) :
    (t.rstN = .low ∧ t.blk.pu = false ∧ t.blk.clken = false) ∨
    (t.blk.pu = s.blk.pu ∧ t.blk.clken = s.blk.clken) ∨
    (s.readsClock = true ∧ t.blk.clken = true ∧ t.blk.pu = (s.blk.pu || s.gpioClkOk)) := by
  cases step_effect h with
  | resets _ _ blk rstN => exact .inl ⟨rstN, by rw [blk]; exact ⟨rfl, rfl⟩⟩
  | ticks i e _ _ _ _ _ blk _ _ clock =>
    by_cases hop : e.op = .cfg
    · exact .inr (.inr (by simp [blk, clock, hop]))
    · exact .inr (.inl (by simp [blk, hop]))
  | _ => exact .inr (.inl (by simp [*]))

theorem readsClock_iff {s : State} :
    s.readsClock = true ↔ s.nextIsTick = true ∧ s.rstN = .high ∧ ∃ e, s.blk.entry = some e ∧ e.op = .cfg := by
  unfold State.readsClock State.running
  cases he : s.blk.entry with
  | none => simp
  | some e => simp [(entry_eq_some.mp he).1, and_assoc]

/-- Settles O36: hardware reset aside, `PU` and `CLKEN` are written by a tick of `CFG` alone. -/
theorem pullUpAndClockRequestAreSticky : Obligations.PullUpAndClockRequestAreSticky := by
  refine ⟨?_, ?_, ?_, ?_, ?sets, fun b => ⟨rfl, rfl⟩, rfl, rfl⟩
  case sets =>
    intro s t h hc
    obtain ⟨hn, hr, e, hentry, hop⟩ := readsClock_iff.mp hc
    obtain ⟨i, ht⟩ := step_entry_tick hn hr hentry h
    simp +contextual [ht, hop]
  all_goals
    intro s t h
    obtain ⟨hr, hpu, hclken⟩ | ⟨hpu, hclken⟩ | ⟨hc, hclken, hpu⟩ := step_pu_clken h <;> grind

/-- A tick that leaves the pin in input mode keeps `OUT`. -/
theorem setPins_out_of_input {u : MicroOp} {dq : Level} {ok : Bool} {b : Block}
    (h : (u.setPins dq ok b).oe = .input) : (u.setPins dq ok b).out = b.out := by
  cases u with
  | drv l n => simp [MicroOp.setPins] at h
  | cfg => cases ok <;> simp_all [MicroOp.setPins]
  | _ => rfl

/-- Settles O37: only a tick of a command in progress and hardware reset write the pin latches. -/
theorem pinLatchesWrittenOnlyBySequencer : Obligations.PinLatchesWrittenOnlyBySequencer := by
  refine ⟨fun s t h hne => ?_, fun s t h hr hoe => ?_, fun b => ?_, rfl, rfl⟩
  · cases step_effect h with
    | ticks i e tick high busy => exact .inl ⟨tick, high, busy⟩
    | resets _ _ blk rstN => exact .inr ⟨rstN, by rw [blk]; exact ⟨rfl, rfl⟩⟩
    | _ => simp_all
  · cases step_effect h with
    | ticks i e _ _ _ _ _ blk =>
      rw [blk, tick_oe] at hoe
      rw [blk, tick_out, setPins_out_of_input hoe]
    | _ => simp_all
  · constructor
    · show b.oe.bit = _
      cases b.oe <;> rfl
    · exact bit_eq_decide b.out

/-- Settles O38: the flags over each thing a step can do, for a tick by `tick_flags` and `tick_err`. -/
theorem busyDoneErrChange : Obligations.BusyDoneErrChange := by
  refine ⟨?starts, ?ends, ?done, ?notDone, ?err⟩
  case starts =>
    intro s t h hs ht
    obtain ⟨v, rest, hin, hv, hblk⟩ := step_starts h hs ht
    exact ⟨⟨v, rest, hin, hv⟩, by simp [hblk]⟩
  case ends =>
    intro s t h hs ht
    cases step_effect h with
    | ticks i e tick _ busy _ _ blk =>
      have := tick_flags i e.op s.dqIn s.gpioClkOk s.blk busy
      grind
    | _ => simp_all
  case done =>
    intro s t h hs ht
    cases step_effect h with
    | ticks i e tick _ busy _ _ blk =>
      have := tick_flags i e.op s.dqIn s.gpioClkOk s.blk busy
      grind
    | refuses v rest e inputs idle decodes blk =>
      exact .inr ⟨idle, by rw [blk]; rfl, v, rest, inputs, not_legal_iff_decode.mpr ⟨e, decodes⟩⟩
    | _ => simp_all [Block.reset]
  case notDone =>
    intro s t h hs ht
    cases step_effect h with
    | ticks i e tick _ busy _ _ blk =>
      have := tick_flags i e.op s.dqIn s.gpioClkOk s.blk busy
      grind
    | _ => simp_all
  case err =>
    intro s t h hne
    cases step_effect h with
    | ticks i e _ _ busy _ entry blk =>
      have := tick_err (mem_of_entry entry) s.dqIn s.gpioClkOk s.blk
      grind
    | _ => simp_all

/-! ### The pin mode a command leaves -/

theorem last_entry_of_presence {i : Instr} {e : Entry} {k : Nat} (hi : i = .init ∨ i = .checkPresence)
    (he : (expand i)[k]? = some e) (hl : k + 1 = (expand i).length) : e.op = .waitH 240 .presencePulseInvalid := by
  obtain rfl : k = (expand i).length - 1 := by omega
  rcases hi with rfl | rfl <;> (cases he; rfl)

/-- The list of a written byte ends in the `DRV` high of its last bit. -/
theorem wByte_last (v : Byte) : ∃ n ph, (wByte Config.timing v)[15]? = some ⟨.drv .high n, ph⟩ := by
  have hlast (bit : Bool) : ∃ n ph, (wBit Config.timing bit)[1]? = some ⟨.drv .high n, ph⟩ := by
    cases bit <;> exact ⟨_, _, rfl⟩
  simpa [wByte, byteBits, List.getElem?_append, wBit_length] using hlast (v.getLsbD 7)

theorem last_entry_of_driving {i : Instr} {e : Entry} {k : Nat}
    (hi : i = .reset ∨ (∃ v, i = .writeByte v) ∨ i = .skipRom ∨ i = .startConversion)
    (he : (expand i)[k]? = some e) (hl : k + 1 = (expand i).length) : ∃ n, e.op = .drv .high n := by
  obtain rfl : k = (expand i).length - 1 := by omega
  rcases hi with rfl | ⟨v, rfl⟩ | rfl | rfl
  · cases he; exact ⟨_, rfl⟩
  · rw [expand_writeByte_length] at he
    obtain ⟨n, ph, hn⟩ := wByte_last v
    obtain rfl : e = _ := Option.some.inj (he.symm.trans hn)
    exact ⟨n, rfl⟩
  · cases he; exact ⟨_, rfl⟩
  · cases he; exact ⟨_, rfl⟩

theorem configure_entry {e : Entry} {k : Nat} (he : (expand .configure)[k]? = some e) : e.op = .cfg := by
  have := mem_of_entry he
  simp_all [expand, expandWith, cfgSeq]

/-- The pin when a command completes (10_state.md R32). -/
theorem pins_at_completion {i : Instr} {e : Entry} {b : Block} {dq : Level} {ok : Bool}
    (he : (expand i)[b.upc]? = some e) (hl : b.upc + 1 = (expand i).length)
    (hend : e.op.endsOnTick b.cnt dq ok = true) :
    ((i = .init ∨ i = .checkPresence ∨ i = .readBit ∨ i = .readByte ∨ i = .readTemperature) →
      (e.op.setPins dq ok b).oe = .input) ∧
    ((i = .configure ∨ i = .reset ∨ (∃ v, i = .writeByte v) ∨ i = .skipRom ∨ i = .startConversion) →
      (e.op.setPins dq ok b).oe = .output ∧ (e.op.setPins dq ok b).out = .high) := by
  refine ⟨fun hi => ?_, fun hi => ?_⟩
  · rcases or_assoc.mpr hi with hi | hi
    · rw [last_entry_of_presence hi he hl]; rfl
    · rw [last_entry_of_reading hi he hl]; rfl
  · rcases hi with rfl | hi
    · have hop := configure_entry he
      have hok : ok = true := by simpa [hop, MicroOp.endsOnTick] using hend
      simp [hop, hok, MicroOp.setPins]
    · obtain ⟨n, hop⟩ := last_entry_of_driving hi he hl
      rw [hop]
      exact ⟨rfl, rfl⟩

/-- Settles O55: a command completes at its last entry, or aborts at a wait or at `CFG`. -/
theorem pinModeAfterCommand : Obligations.PinModeAfterCommand := by
  intro i s t hb herr h ht
  obtain ⟨e, he, rfl⟩ := exec_next h
  simp only [State.endTick_blk] at ht ⊢
  obtain ⟨hend, hl, heq⟩ | ⟨hf, heq⟩ := tick_ends hb ht
  · obtain ⟨hin, hout⟩ := pins_at_completion he hl hend
    rw [heq]
    simp_all [finished_fields]
  · rw [heq]
    obtain ⟨hop, hok, hc⟩ | ⟨-, hc, hoe⟩ := failsOnTick_entry (mem_of_entry he) hf
    · simp [hop, hok, MicroOp.setPins, MicroOp.abortCode]
    · rcases hc with hc | hc <;> simp [hc, hoe]

/-! ### `PHASE` and `STATUS` -/

/-- Whether an entry carries a tag of its micro-operation's (40_micro_ops.md R92). -/
def Entry.tagFits (e : Entry) : Bool :=
  match e.op with
  | .drv _ _ => [Phase.reset, .commandPhase, .dataPhase].contains e.phase
  | .rls _ => e.phase == .dataPhase
  | .smp _ _ => e.phase == .dataPhase
  | .waitL _ _ => e.phase == .presenceWindowLow
  | .waitH _ _ => e.phase == .presenceWindowHigh
  | .cfg => e.phase == .config

theorem entry_tagFits {i : Instr} {e : Entry} (he : e ∈ expand i) : e.tagFits = true := by
  cases i
  case writeByte v => obtain ⟨l, n, rfl, -⟩ := wByte_entry he; rfl
  all_goals
    revert e
    rw [← List.all_eq_true]
    decide

theorem wByte_tags (v : Byte) :
    (wByte Config.timing v).map (fun e => e.phase.code) = List.replicate 16 4#4 := by
  have hbit (bit : Bool) : (wBit Config.timing bit).map (fun e => e.phase.code) = [4#4, 4#4] := by
    cases bit <;> rfl
  simp [wByte, byteBits, hbit]

theorem phase_of_entry {b : Block} {e : Entry} (h : b.entry = some e) : b.phase = e.phase := by
  rw [Block.phase, h]

/-- Settles O8: the tag of an entry fits its micro-operation, in the list of every command. -/
theorem phaseShowsEntryInProgress : Obligations.PhaseShowsEntryInProgress := by
  refine ⟨?idle, ?busy, ?lists⟩
  case idle =>
    intro b hb
    simp [Block.phase, Block.entry, hb, Phase.code]
  case busy =>
    intro b i e hb hd he
    have hfits := entry_tagFits (mem_of_entry he)
    rw [phase_of_entry (entry_eq_some.mpr ⟨hb, i, hd, he⟩)]
    cases hop : e.op <;> simp_all [Entry.tagFits, Phase.code]
    rcases hfits with h | h | h <;> simp [h]
  case lists =>
    intro i
    cases i
    case writeByte v => exact wByte_tags v
    all_goals rfl

/-- The fields of a word put together as `STATUS` is (10_state.md R22). -/
theorem packed_fields (rsv : BitVec 16) (clken pu out oe : BitVec 1) (phase : BitVec 4) (r7 : BitVec 1)
    (err : BitVec 3) (r3 ovr done busy : BitVec 1) :
    let w := rsv ++ clken ++ pu ++ out ++ oe ++ phase ++ r7 ++ err ++ r3 ++ ovr ++ done ++ busy
    w.extractLsb' 0 1 = busy ∧ w.extractLsb' 1 1 = done ∧ w.extractLsb' 2 1 = ovr ∧ w.extractLsb' 3 1 = r3 ∧
      w.extractLsb' 4 3 = err ∧ w.extractLsb' 7 1 = r7 ∧ w.extractLsb' 8 4 = phase ∧ w.extractLsb' 12 1 = oe ∧
      w.extractLsb' 13 1 = out ∧ w.extractLsb' 14 1 = pu ∧ w.extractLsb' 15 1 = clken ∧
      w.extractLsb' 16 16 = rsv := by
  refine ⟨?_, ?_, ?_, ?_, ?_, ?_, ?_, ?_, ?_, ?_, ?_, ?_⟩
  all_goals
    repeat refine (BitVec.extractLsb'_append_eq_of_le (by decide)).trans ?_
  case refine_12 => exact BitVec.extractLsb'_eq_self
  all_goals exact BitVec.extractLsb'_append_eq_right

/-- Settles O7: `STATUS` is put together from its fields in the order of R22. -/
theorem statusWordLayout : Obligations.StatusWordLayout := by
  refine ⟨fun b => ?fields, by decide, fun b v => rfl, fun s rest hin => ?read⟩
  case fields =>
    have hoe : BitVec.ofBool (b.oe == .output) = BitVec.ofBool b.oe.bit := by cases b.oe <;> rfl
    have hout : BitVec.ofBool (b.out == .high) = BitVec.ofBool b.out.bit := by cases b.out <;> rfl
    rw [hoe, hout]
    exact packed_fields ..
  case read =>
    rw [step, hin]
    rfl

/-! ### Two runs of one command -/

/-- Two blocks at the same point of the command `i`: what the command and its inputs alone determine
(10_state.md R33). -/
structure SameRun (i : Instr) (b b' : Block) : Prop where
  busy : b.busy = b'.busy
  err : b.err = b'.err
  upc : b.upc = b'.upc
  cnt : b.cnt = b'.cnt
  shr : b.shr = b'.shr
  data : b.busy = false → i = .readBit ∨ i = .readByte → b.data = b'.data
  raw : b.busy = false → i = .readTemperature → b.err = .ok → b.raw = b'.raw

theorem tick_err_eq (i : Instr) (u : MicroOp) (dq : Level) (ok : Bool) (b : Block) :
    (u.tick (expand i).length (resultOf i) dq ok b).err =
      if u.endsOnTick b.cnt dq ok then b.err else if u.failsOnTick b.cnt dq ok then u.abortCode else b.err := by
  rw [tick_eq]
  split_ifs <;> simp

theorem setPins_shr_congr (u : MicroOp) (dq : Level) (ok : Bool) {b b' : Block} (hc : b.cnt = b'.cnt)
    (hs : b.shr = b'.shr) : (u.setPins dq ok b).shr = (u.setPins dq ok b').shr := by
  cases u <;> simp [MicroOp.setPins, hc, hs]

/-- `READ_TEMPERATURE` ends without error with its sample in `RAW`. -/
theorem readTemperature_raw {e : Entry} {b : Block} {dq : Level} {ok : Bool} (hb : b.busy = true)
    (he : (expand .readTemperature)[b.upc]? = some e)
    (ht : (e.op.tick (expand .readTemperature).length (resultOf .readTemperature) dq ok b).busy = false)
    (herr : (e.op.tick (expand .readTemperature).length (resultOf .readTemperature) dq ok b).err = .ok) :
    (e.op.tick (expand .readTemperature).length (resultOf .readTemperature) dq ok b).raw = b.shr := by
  obtain ⟨-, hl, h⟩ | ⟨hf, h⟩ := tick_ends hb ht <;> rw [h] at herr ⊢
  · exact reading_keeps_shr (.inr (.inr rfl)) he hl dq ok
  · obtain ⟨-, -, hc⟩ | ⟨-, hc | hc, -⟩ := failsOnTick_entry (mem_of_entry he) hf <;> simp [hc] at herr

theorem SameRun.tick {i : Instr} {e : Entry} {b b' : Block} (h : SameRun i b b') (hb : b.busy = true)
    (he : (expand i)[b.upc]? = some e) (dq : Level) (ok : Bool) :
    SameRun i (e.op.tick (expand i).length (resultOf i) dq ok b)
      (e.op.tick (expand i).length (resultOf i) dq ok b') := by
  have hb' : b'.busy = true := h.busy ▸ hb
  have he' : (expand i)[b'.upc]? = some e := h.upc ▸ he
  have hpos := tick_position i e.op dq ok b
  have hpos' := tick_position i e.op dq ok b'
  rw [← h.busy, ← h.upc, ← h.cnt] at hpos'
  have hbusy : (e.op.tick (expand i).length (resultOf i) dq ok b).busy =
      (e.op.tick (expand i).length (resultOf i) dq ok b').busy := by grind
  have herr : (e.op.tick (expand i).length (resultOf i) dq ok b).err =
      (e.op.tick (expand i).length (resultOf i) dq ok b').err := by
    rw [tick_err_eq, tick_err_eq, h.cnt, h.err]
  refine ⟨hbusy, herr, by grind, by grind, ?_, fun ht hi => ?_, fun ht hi hok => ?_⟩
  · rw [tick_shr, tick_shr, setPins_shr_congr e.op dq ok h.cnt h.shr]
  · rw [read_data hi hb he ht, read_data hi hb' he' (hbusy ▸ ht), finished_data_congr hi h.shr]
  · subst hi
    rw [readTemperature_raw hb he ht hok, readTemperature_raw hb' he' (hbusy ▸ ht) (herr ▸ hok), h.shr]

theorem SameRun.blkTick_congr {i : Instr} {b b' : Block} (h : SameRun i b b') (x : Level × Bool) :
    SameRun i (blkTick i x b) (blkTick i x b') := by
  unfold blkTick
  rw [← h.busy, ← h.upc]
  cases hb : b.busy with
  | false => exact h
  | true =>
    cases he : (expand i)[b.upc]? with
    | none => exact h
    | some e => exact h.tick hb he x.1 x.2

theorem SameRun.blkRun_congr {i : Instr} {b b' : Block} (h : SameRun i b b') (env : List (Level × Bool)) :
    SameRun i (blkRun i env b) (blkRun i env b') := by
  induction env generalizing b b' with
  | nil => exact h
  | cons x xs ih => exact ih (h.blkTick_congr x)

/-- After a tick the pin is the same in both runs: every micro-operation sets it, but for `CFG` without the clock,
which leaves it. -/
theorem tick_drive_congr {i : Instr} {u : MicroOp} {dq : Level} {ok : Bool} {b b' : Block}
    (h : b.drive = b'.drive ∨ u ≠ .cfg ∨ ok = true) :
    (u.tick (expand i).length (resultOf i) dq ok b).drive = (u.tick (expand i).length (resultOf i) dq ok b').drive := by
  unfold Block.drive at h ⊢
  rw [tick_oe, tick_out, tick_oe, tick_out]
  cases u with
  | cfg =>
    cases ok with
    | false => simpa [MicroOp.setPins] using h
    | true => rfl
  | _ => rfl

theorem SameRun.blkTick_drive {i : Instr} {b b' : Block} (h : SameRun i b b') (hd : b.drive = b'.drive)
    (x : Level × Bool) : (blkTick i x b).drive = (blkTick i x b').drive := by
  unfold blkTick
  rw [← h.busy, ← h.upc]
  cases b.busy with
  | false => exact hd
  | true =>
    cases (expand i)[b.upc]? with
    | none => exact hd
    | some e => exact tick_drive_congr (.inl hd)

theorem SameRun.blkWave_congr {i : Instr} {b b' : Block} (h : SameRun i b b') (hd : b.drive = b'.drive)
    (env : List (Level × Bool)) : blkWave i env b = blkWave i env b' := by
  induction env generalizing b b' with
  | nil => rfl
  | cons x xs ih =>
    have hx := h.blkTick_drive hd x
    rw [blkWave, blkWave, hx, ih (h.blkTick_congr x) hx]

/-- From the first entry on the pin need not be the same before: the first tick sets it, but for `CFG` without the
clock. -/
theorem SameRun.blkWave_start {i : Instr} {b b' : Block} (h : SameRun i b b') (hb : b.busy = true) (hu : b.upc = 0)
    {env : List (Level × Bool)} (hcfg : i = .configure ∨ i = .init → ∃ dq, env.head? = some (dq, true)) :
    blkWave i env b = blkWave i env b' := by
  cases env with
  | nil => rfl
  | cons x xs =>
    have he := List.getElem?_eq_getElem (expand_pos i)
    have hx : (blkTick i x b).drive = (blkTick i x b').drive := by
      rw [blkTick_entry hb (by rw [hu]; exact he), blkTick_entry (h.busy ▸ hb) (by rw [← h.upc, hu]; exact he)]
      refine tick_drive_congr (.inr (or_iff_not_imp_left.mpr fun hop => ?_))
      obtain ⟨dq, hdq⟩ := hcfg ((aborting_entry (mem_of_entry he)).2.2 (not_not.mp hop))
      simp at hdq
      simp [hdq]
    rw [blkWave, blkWave, hx, (h.blkTick_congr x).blkWave_congr hx]

theorem sameRun_of_accepted {i : Instr} {s s' : State} (h : Accepted i s) (h' : Accepted i s') :
    SameRun i s.blk s'.blk := by
  obtain ⟨-, hb, -, hu, hc, hs, -, he⟩ := h
  obtain ⟨-, hb', -, hu', hc', hs', -, he'⟩ := h'
  constructor <;> simp [*]

/-- The first `n` of the scripted ticks after an accept, on the block. -/
theorem accepted_run {i : Instr} {s : State} {env : List (Level × Bool)} {rest : List Input} {n : Nat}
    (h : Accepted i s) (hin : s.inputs = tickInputs env ++ rest) (hn : n ≤ env.length) :
    waveform n s = blkWave i (env.take n) s.blk ∧
    ∃ t, stepMany n s = .next t ∧ t.blk = blkRun i (env.take n) s.blk := by
  obtain ⟨hr, -, hd, hu, -⟩ := h
  have hp : s.blk.busy = true → s.blk.upc < (expand i).length := fun _ => hu ▸ expand_pos i
  refine ⟨?_, _, stepMany_scripted_prefix hr hd hp hin hn, rfl⟩
  have hsplit : s.inputs = tickInputs (env.take n) ++ (tickInputs (env.drop n) ++ rest) := by
    rw [hin, ← List.append_assoc, tickInputs, tickInputs, tickInputs, ← List.map_append, List.take_append_drop]
  simpa [Nat.min_eq_left hn] using waveform_scripted hr hd hp hsplit

/-- Settles O41: every tick keeps the two runs the same, and the first tick sets the pin in both. -/
theorem commandsAreStateless : Obligations.CommandsAreStateless := by
  intro i s s' env rest rest' n h h' hin hin' hn hcfg
  obtain ⟨hw, t, ht, htb⟩ := accepted_run h hin hn
  obtain ⟨hw', t', ht', htb'⟩ := accepted_run h' hin' hn
  have hsame := sameRun_of_accepted h h'
  obtain ⟨hbusy, herr, hupc, hcnt, -, hdata, hraw⟩ := hsame.blkRun_congr (env.take n)
  rw [← htb, ← htb'] at *
  refine ⟨?_, t, t', ht, ht', hbusy, herr, hupc, hcnt, hdata, hraw⟩
  obtain ⟨-, hb, -, hu, -⟩ := h
  rw [hw, hw']
  cases n with
  | zero => rfl
  | succ n => exact hsame.blkWave_start hb hu (by simpa [List.head?_take] using hcfg)

end Sys2Proof.Machine
end

section
/-! PROOFS of the statements about host accesses and the two inputs (spec/20_memory.md R41 to R47): the effect of a
write index by index, what a read returns, and which ticks depend on the line and on the clock-ready input. -/

namespace Sys2Proof.Machine

/-! ### Host writes -/

theorem regWrite_raw {v : Word} {b : Block} (hb : b.busy = false) :
    b.regWrite 3#3 v = { b with raw := v.extractLsb' 0 16 } := by
  simp [Block.regWrite, Block.writeRaw, hb]

theorem step_regWrite_high {s : State} {a : RegIndex} {v : Word} {rest : List Input}
    (hin : s.inputs = .regWrite a v :: rest) (hr : s.rstN = .high) :
    step s = .next { s with inputs := rest, blk := s.blk.regWrite a v } := by
  rw [step_regWrite hin, State.hostWrite, if_neg (by simp [hr])]

/-- Settles O5: the first part by the five things a write can do to the block (`regWrite_cases`), the second because
the accepted word is the command in progress. -/
theorem hostWriteEffect : Obligations.HostWriteEffect := by
  refine ⟨?effect, ?firstTick, ?temp⟩
  case effect =>
    intro s a v rest hin hr
    rw [step_regWrite_high hin hr]
    rcases regWrite_cases a v s.blk with ⟨rfl, hb, hd, h⟩ | ⟨rfl, hb, hd, h⟩ | ⟨rfl, hb, h⟩ |
      ⟨rfl | rfl, hb, h⟩ | ⟨h0, h3, h⟩ <;> rw [h]
    · simp [hb, legal_iff_decode.mpr hd, Block.accept]
    · simp [hb, not_legal_iff_decode.mpr hd, Block.refuseIllegal]
    · simp [hb]
    · simp [hb, Block.dropWrite]
    · simp [hb, Block.dropWrite]
    · simp [h0, h3]
  case firstTick =>
    intro s t v rest hin hr hb hv h hn
    rw [step_regWrite_high hin hr, regWrite_accept hb hv] at h
    cases h
    obtain ⟨i, hi⟩ := legal_iff_decode.mp hv
    exact ⟨i, hi, step_running hn (running_iff.mpr ⟨hr, rfl⟩) hi⟩
  case temp =>
    intro b v hb
    rw [regWrite_raw hb]
    rfl

/-! ### Host reads -/

theorem step_regRead {s : State} {a : RegIndex} {rest : List Input} (h : s.inputs = .regRead a :: rest) :
    step s = .next (s.hostRead a rest) := by
  rw [step, h]

/-- The result registers are written by a tick only when it ends the command. -/
theorem tick_busy_results {i : Instr} {u : MicroOp} {dq : Level} {ok : Bool} {b : Block}
    (ht : (u.tick (expand i).length (resultOf i) dq ok b).busy = true) :
    (u.tick (expand i).length (resultOf i) dq ok b).data = b.data ∧
      (u.tick (expand i).length (resultOf i) dq ok b).raw = b.raw := by
  obtain h | ⟨-, -, h⟩ := tick_results i u dq ok b
  · exact h
  · simp [h] at ht

/-- A step from busy to busy writes no result register: a host write is dropped and a tick that ends no command
writes neither. -/
theorem step_busy_results {s t : State} (hs : s.blk.busy = true) (h : step s = .next t) (ht : t.blk.busy = true) :
    t.blk.data = s.blk.data ∧ t.blk.raw = s.blk.raw := by
  cases step_effect h with
  | keeps blk => simp [blk]
  | resets _ _ blk => simp [blk, Block.reset] at ht
  | accepts _ _ _ _ _ idle => simp [hs] at idle
  | refuses _ _ _ _ idle => simp [hs] at idle
  | writesRaw _ _ _ idle => simp [hs] at idle
  | drops _ _ _ _ _ _ blk => simp [blk]
  | ticks i e _ _ _ _ _ blk =>
    rw [blk] at ht ⊢
    exact tick_busy_results ht

/-- Settles O6: the word of each index, and `step_busy_results`. -/
theorem hostReadEffect : Obligations.HostReadEffect :=
  ⟨fun _ _ _ hin => step_regRead hin,
    fun b => ⟨rfl, rfl, regRead_data b, regRead_raw b, rfl, rfl, rfl, rfl⟩,
    fun _ _ hs h ht => step_busy_results hs h ht⟩

/-! ### The line and the clock-ready input -/

theorem readsLine_iff {s : State} :
    s.readsLine = true ↔
      s.nextIsTick = true ∧ s.rstN = .high ∧ ∃ e, s.blk.entry = some e ∧ e.op.readsLine s.blk.cnt = true := by
  unfold State.readsLine State.running
  cases he : s.blk.entry with
  | none => simp
  | some e => simp [(entry_eq_some.mp he).1, and_assoc]

/-- A tick that reads the line sets input mode. -/
theorem setPins_oe_of_readsLine {u : MicroOp} {dq : Level} {ok : Bool} {b : Block} (h : u.readsLine b.cnt = true) :
    (u.setPins dq ok b).oe = .input := by
  cases u with
  | drv l n => simp [MicroOp.readsLine] at h
  | cfg => simp [MicroOp.readsLine] at h
  | _ => rfl

/-- A tick that does not read the line does the same at both levels of it. -/
theorem tick_dq_congr {u : MicroOp} {len : Nat} {r : ResultKind} {ok : Bool} {b : Block}
    (h : u.readsLine b.cnt = false) (dq dq' : Level) : u.tick len r dq ok b = u.tick len r dq' ok b := by
  cases u with
  | smp n j =>
    have hn : b.cnt + 1 ≠ n := by simpa [MicroOp.readsLine] using h
    simp [MicroOp.tick, Block.tickSmp, hn]
  | waitL m c => simp [MicroOp.readsLine] at h
  | waitH m c => simp [MicroOp.readsLine] at h
  | _ => rfl

/-- Only `CFG` depends on the clock-ready input. -/
theorem tick_ok_congr {u : MicroOp} {len : Nat} {r : ResultKind} {dq : Level} {b : Block} (h : u ≠ .cfg)
    (ok ok' : Bool) : u.tick len r dq ok b = u.tick len r dq ok' b := by
  cases u with
  | cfg => exact absurd rfl h
  | _ => rfl

theorem nextIsTick_of_tick {s : State} {dq : Level} {ok : Bool} {rest : List Input}
    (h : s.inputs = .tick dq ok :: rest) : s.nextIsTick = true := by
  simp [State.nextIsTick, h]

/-- Log entry 7: a tick of a busy block stops where `CMD` holds no legal word. -/
theorem step_illegal {s : State} {e : DecodeError} (h : s.nextIsTick = true) (hr : s.running = true)
    (hf : s.fetch = .error e) : step s = .fault (.illegalCommandInProgress e) := by
  rw [step_tick h, stepTick, if_pos hr, hf]

/-- Two scripted ticks have the same outcome if the entry in progress does the same with the levels of both. -/
theorem step_tick_congr {s : State} {dq dq' : Level} {ok ok' : Bool} {rest : List Input}
    (hin : s.inputs = .tick dq ok :: rest)
    (h : ∀ e len r, s.rstN = .high → s.blk.entry = some e →
      e.op.tick len r dq ok s.blk = e.op.tick len r dq' ok' s.blk) :
    step s = step { s with inputs := .tick dq' ok' :: rest } := by
  have hn := nextIsTick_of_tick hin
  have hn' : State.nextIsTick { s with inputs := .tick dq' ok' :: rest } = true := rfl
  cases hr : s.running with
  | false =>
    rw [step_idle hn hr, step_idle hn' hr]
    simp [State.idleTick, State.endTick, State.inputsAfterTick, hin]
  | true =>
    cases hf : s.fetch with
    | error e => rw [step_illegal hn hr hf, step_illegal hn' hr hf]
    | ok i =>
      rw [step_running hn hr hf, step_running hn' hr hf]
      simp only [exec_eq_runTick, runTick]
      cases he : (expand i)[s.blk.upc]? with
      | none => rfl
      | some e =>
        obtain ⟨hhigh, hb⟩ := running_iff.mp hr
        have htick := h e (expand i).length (resultOf i) hhigh (entry_eq_some.mpr ⟨hb, i, hf, he⟩)
        simp [State.endTick, State.inputsAfterTick, State.dqIn, State.gpioClkOk, hin, htick]

/-- Settles O39: what the entry in progress does with the levels of a tick decides all three parts. -/
theorem inputsReadOnlyOnNamedTicks : Obligations.InputsReadOnlyOnNamedTicks := by
  refine ⟨?input, ?line, ?clock⟩
  case input =>
    intro s t hl h
    obtain ⟨hn, hr, e, he, hread⟩ := readsLine_iff.mp hl
    obtain ⟨i, ht⟩ := step_entry_tick hn hr he h
    rw [ht, tick_oe, setPins_oe_of_readsLine hread]
  case line =>
    intro s dq dq' ok rest hin hl
    have hn := nextIsTick_of_tick hin
    refine step_tick_congr hin fun e len r hr he => tick_dq_congr ?_ dq dq'
    by_contra hread
    exact Bool.eq_false_iff.mp hl (readsLine_iff.mpr ⟨hn, hr, e, he, by simpa using hread⟩)
  case clock =>
    intro s dq ok ok' rest hin hc
    have hn := nextIsTick_of_tick hin
    refine step_tick_congr hin fun e len r hr he => tick_ok_congr ?_ ok ok'
    intro hop
    exact Bool.eq_false_iff.mp hc (readsClock_iff.mpr ⟨hn, hr, e, he, hop⟩)

end Sys2Proof.Machine
end

section
/-! PROOFS of the statements about the command words (spec/30_encoding.md R60 to R64): a word is its three fields put
together, so `encode` and `decode` are inverse to each other and the legal words are the words of the commands; and of
the statement `WAIT` (R76), each turn of whose loop leaves fewer ticks to the command in progress. -/

namespace Sys2Proof.Machine

/-! ### The fields of a command word -/

@[simp] theorem opcField_packWord (arg opc : Byte) : opcField (packWord arg opc) = opc :=
  BitVec.extractLsb'_append_eq_right

@[simp] theorem argField_packWord (arg opc : Byte) : argField (packWord arg opc) = arg :=
  (BitVec.extractLsb'_append_eq_of_le (by decide)).trans BitVec.extractLsb'_append_eq_right

@[simp] theorem rsvField_packWord (arg opc : Byte) : rsvField (packWord arg opc) = 0#16 :=
  ((BitVec.extractLsb'_append_eq_of_le (by decide)).trans
    (BitVec.extractLsb'_append_eq_of_le (by decide))).trans BitVec.extractLsb'_eq_self

/-- No bit of a word lies outside the three fields (30_encoding.md R60). -/
theorem packWord_fields {w : Word} (h : rsvField w = 0#16) : packWord (argField w) (opcField w) = w := by
  rw [packWord, ← h, rsvField, argField, opcField,
    BitVec.extractLsb'_append_extractLsb'_eq_extractLsb' (show 16 = 8 + 8 from rfl),
    BitVec.extractLsb'_append_extractLsb'_eq_extractLsb' (show 8 = 0 + 8 from rfl)]
  exact BitVec.extractLsb'_eq_self

/-! ### `decode` and `encode` -/

theorem decode_encode (i : Instr) : decode (encode i) = .ok i := by
  cases i
  case writeByte v => simp [decode, encode]
  all_goals rfl

theorem decodeFormatN_eq_ok {w : Word} {i j : Instr} (h : decodeFormatN w j = .ok i) : argField w = 0#8 ∧ i = j := by
  unfold decodeFormatN at h
  split at h
  · rename_i ha
    exact ⟨ha, by simpa using h.symm⟩
  · cases h

/-- The word `decode` reads as `i` has the fields of `encode i`: the operation code by the branch taken, and `ARG` zero
or, for `WRITE_BYTE`, the operand. -/
theorem decode_eq_ok {w : Word} {i : Instr} (h : decode w = .ok i) : encode i = w := by
  unfold decode at h
  split at h
  · cases h
  · rename_i hr
    rw [← packWord_fields (not_not.mp hr)]
    have hopc : opcField w = BitVec.ofNat 8 (opcField w).toNat := by simp
    split at h <;> rename_i hc
    case h_4 =>
      cases h
      rw [hopc, hc]
      rfl
    case h_11 => cases h
    all_goals
      obtain ⟨ha, rfl⟩ := decodeFormatN_eq_ok h
      rw [hopc, hc, ha]
      rfl

theorem decode_eq_ok_iff {w : Word} {i : Instr} : decode w = .ok i ↔ encode i = w :=
  ⟨decode_eq_ok, fun h => h ▸ decode_encode i⟩

theorem encode_injective : Function.Injective encode := fun i j h => by
  simpa [decode_encode] using congrArg decode h

/-- Settles O2: a word is the pack of its fields, and `decode` reads all three. -/
theorem decodeAndEncodeAgree : Obligations.DecodeAndEncodeAgree :=
  ⟨decode_encode, fun _ _ => decode_eq_ok⟩

/-- Settles O1: the words of the table are the words of the commands. -/
theorem commandWordsDecodeAsTabled : Obligations.CommandWordsDecodeAsTabled :=
  ⟨decode_encode .configure, decode_encode .reset, decode_encode .checkPresence, fun v => decode_encode (.writeByte v),
    decode_encode .readBit, decode_encode .readByte, decode_encode .skipRom, decode_encode .startConversion,
    decode_encode .readTemperature, decode_encode .init⟩

/-! ### The legal words -/

/-- The commands of format N (30_encoding.md R61). -/
def formatNCommands : List Instr :=
  [.configure, .reset, .checkPresence, .readBit, .readByte, .skipRom, .startConversion, .readTemperature, .init]

/-- Every command with every operand, once. -/
def commands : List Instr := formatNCommands ++ (List.finRange 256).map fun n => .writeByte (BitVec.ofFin n)

theorem commands_length : commands.length = 265 := by
  simp [commands, formatNCommands]

theorem commands_nodup : commands.Nodup := by
  refine List.nodup_append.mpr ⟨by decide, (List.nodup_finRange 256).map fun m n h => ?_, ?_⟩
  · simpa using h
  · rintro i hi j hj rfl
    obtain ⟨n, -, rfl⟩ := List.mem_map.mp hj
    simp [formatNCommands] at hi

theorem mem_commands (i : Instr) : i ∈ commands := by
  cases i
  case writeByte v => exact List.mem_append_right _ (List.mem_map.mpr ⟨v.toFin, List.mem_finRange _, rfl⟩)
  all_goals exact List.mem_append_left _ (by decide)

/-- Settles O3: `Legal` says the condition of R64, and the legal words are the words of the 265 commands. -/
theorem legalWordsAreExactlyTheCommands : Obligations.LegalWordsAreExactlyTheCommands := by
  refine ⟨fun w => ?condition, commands.map encode, ?nodup, ?length, fun w => ?members⟩
  case condition => simp [← legal_iff_decode, Legal, formatBCode, formatNCodes]
  case nodup => exact commands_nodup.map encode_injective
  case length => rw [List.length_map, commands_length]
  case members => simp [decode_eq_ok_iff, mem_commands]

/-! ### The ticks that are left -/

/-- The ticks of a list of entries, each wait at its ceiling (70_reset_and_hazards.md R190). -/
def listTicks (l : List Entry) : Nat := (l.map fun e => e.op.ticks).sum

/-- The ticks the command in `CMD` can still take from the position `(UPC, CNT)` on, each wait at its ceiling
(70_reset_and_hazards.md R190). -/
def Block.ticksLeft (b : Block) : Nat :=
  match decode b.cmd with
  | .ok i => listTicks ((expand i).drop b.upc) - b.cnt
  | .error _ => 0

@[simp] theorem listTicks_append (l m : List Entry) : listTicks (l ++ m) = listTicks l + listTicks m := by
  simp [listTicks]

theorem listTicks_wByte (v : Byte) : listTicks (wByte Config.timing v) = 68 * ones v + 72 * (8 - ones v) := by
  have hbit : (fun bit => listTicks (wBit Config.timing bit)) = slotTicks := by
    funext bit
    cases bit <;> rfl
  calc listTicks (wByte Config.timing v)
    _ = ((byteBits v).map fun bit => listTicks (wBit Config.timing bit)).sum := by
      simp [listTicks, wByte, byteBits]
    _ = 68 * ones v + 72 * (8 - ones v) := by rw [hbit, slotTicks_sum]; rfl

theorem listTicks_expand_le (i : Instr) : listTicks (expand i) ≤ 5410 := by
  cases i
  case writeByte v =>
    change listTicks (wByte Config.timing v) ≤ 5410
    have hones := ones_le v
    rw [listTicks_wByte]
    omega
  all_goals decide

theorem listTicks_drop {l : List Entry} {k : Nat} {e : Entry} (h : l[k]? = some e) :
    listTicks (l.drop k) = e.op.ticks + listTicks (l.drop (k + 1)) := by
  obtain ⟨hk, rfl⟩ := List.getElem?_eq_some_iff.mp h
  rw [List.drop_eq_getElem_cons hk]
  rfl

theorem ticksLeft_of_decode {b : Block} {i : Instr} (h : decode b.cmd = .ok i) :
    b.ticksLeft = listTicks ((expand i).drop b.upc) - b.cnt := by
  rw [Block.ticksLeft, h]

theorem ticksLeft_le (b : Block) : b.ticksLeft ≤ 5410 := by
  unfold Block.ticksLeft
  split
  · rename_i i hi
    have hall := listTicks_append ((expand i).take b.upc) ((expand i).drop b.upc)
    have hle := listTicks_expand_le i
    rw [List.take_append_drop] at hall
    omega
  · omega

theorem ticksLeft_pos {b : Block} (h : b.positionOk = true) : 0 < b.ticksLeft := by
  obtain ⟨i, e, hd, he, hc⟩ := positionOk_iff.mp h
  rw [ticksLeft_of_decode hd, listTicks_drop he]
  omega

/-- A tick that does not end the command uses up a tick of those left. -/
theorem tick_ticksLeft_lt {i : Instr} {e : Entry} {b : Block} {dq : Level} {ok : Bool} (hd : decode b.cmd = .ok i)
    (he : (expand i)[b.upc]? = some e) (hc : b.cnt < e.op.ticks)
    (ht : (e.op.tick (expand i).length (resultOf i) dq ok b).busy = true) :
    (e.op.tick (expand i).length (resultOf i) dq ok b).ticksLeft < b.ticksLeft := by
  have hpos := tick_position i e.op dq ok b
  have hdrop := listTicks_drop he
  -- The tick goes on to the next entry, whose ticks `hdrop` splits off, or counts one up in this one.
  rw [ticksLeft_of_decode hd, ticksLeft_of_decode (by simpa using hd)]
  grind

/-! ### One turn of `WAIT` -/

theorem nextIsTick_of_onlyTicks {s : State} (h : onlyTicks s.inputs = true) : s.nextIsTick = true := by
  unfold onlyTicks at h
  unfold State.nextIsTick
  split <;> simp_all

theorem onlyTicks_inputsAfterTick {s : State} (h : onlyTicks s.inputs = true) :
    onlyTicks s.inputsAfterTick = true := by
  unfold State.inputsAfterTick
  split
  · rename_i hin
    simpa [onlyTicks, hin] using h
  · exact h

/-- With ticks alone to come a step is a tick; a block that is busy after it was busy before, with more ticks left. -/
theorem step_onlyTicks {s : State} (hinv : Inv s) (hr : s.rstN = .high) (ht : onlyTicks s.inputs = true) :
    ∃ t, step s = .next t ∧ t.rstN = .high ∧ onlyTicks t.inputs = true ∧
      (t.blk.busy = true → s.blk.busy = true ∧ t.blk.ticksLeft < s.blk.ticksLeft) := by
  have hn := nextIsTick_of_onlyTicks ht
  have hrest := onlyTicks_inputsAfterTick ht
  cases hb : s.blk.busy with
  | false =>
    exact ⟨_, step_idle hn (by simp [State.running, hb]), hr, hrest, by simp [hb]⟩
  | true =>
    obtain ⟨i, e, hd, he, hc⟩ := positionOk_iff.mp (hinv.busyPosition hb)
    exact ⟨_, (step_running hn (running_iff.mpr ⟨hr, hb⟩) hd).trans (exec_entry he), hr, hrest,
      fun h => ⟨rfl, tick_ticksLeft_lt hd he hc h⟩⟩

theorem status_busy (b : Block) : b.status.getLsbD 0 = b.busy := by
  rw [Block.status, BitVec.getLsbD_append]
  simp

theorem access_regRead (a : RegIndex) (s : State) : access (.regRead a) s = .next (s.hostRead a s.inputs) := rfl

/-- A turn of `WAIT` whose step leads to `t`: `STATUS` is read there, and the loop goes on while it shows `BUSY = 1`. -/
theorem waitLoop_of_step {s t : State} (fuel : Nat) (h : step s = .next t) :
    waitLoop (fuel + 1) s =
      if t.blk.busy then waitLoop fuel (t.hostRead 1#3 t.inputs) else .next (t.hostRead 1#3 t.inputs) := by
  have hread : (t.hostRead 1#3 t.inputs).lastReadBusy = t.blk.busy := status_busy t.blk
  rw [waitLoop, h]
  simp only [HostReg.index, access_regRead, hread]

/-- `Inv` does not speak of the word last read. -/
theorem Inv.hostRead {s : State} (h : Inv s) (a : RegIndex) (l : List Input) : Inv (s.hostRead a l) :=
  inv_iff.mpr (by simpa using inv_iff.mp h)

/-- Enough turns for the ticks left end the loop: a turn that leaves the block busy leaves fewer, but not none. -/
theorem waitLoop_ends {fuel : Nat} {s : State} (hinv : Inv s) (hr : s.rstN = .high)
    (ht : onlyTicks s.inputs = true) (hpos : 0 < fuel) (hleft : s.blk.busy = true → s.blk.ticksLeft ≤ fuel) :
    ∃ t, waitLoop fuel s = .next t ∧ t.blk.busy = false ∧ t.rdata = some t.blk.status := by
  induction fuel generalizing s with
  | zero => omega
  | succ fuel ih =>
    obtain ⟨t, hstep, hr', ht', hbusy⟩ := step_onlyTicks hinv hr ht
    have hinv' : Inv t := everyStepKeepsInvariant _ _ hinv hstep
    rw [waitLoop_of_step fuel hstep]
    cases hb : t.blk.busy with
    | false => exact ⟨_, rfl, hb, rfl⟩
    | true =>
      obtain ⟨hs, hlt⟩ := hbusy hb
      have hle := hleft hs
      have hone := ticksLeft_pos (hinv'.busyPosition hb)
      exact ih (hinv'.hostRead ..) hr' ht' (by omega) fun _ => by rw [State.hostRead_blk]; omega

/-- Settles O30: the ticks left are at most the bound of the loop. -/
theorem waitStatementEnds : Obligations.WaitStatementEnds := by
  intro s hinv hr ht
  obtain ⟨t, hrun, hb, hread⟩ := waitLoop_ends hinv hr ht (by decide) fun _ => ticksLeft_le s.blk
  exact ⟨t, hrun, hb, hread, by rw [status_busy, hb]⟩

end Sys2Proof.Machine
end

section
/-! PROOFS of the statements about the micro-operations (spec/40_micro_ops.md): one tick of the entry at `UPC`, kind by
kind; the tick on which each command completes, as one lemma read off the last entry of its list; and two ticks that
differ in the level of the line alone. -/

namespace Sys2Proof.Machine

/-! ### Ticks of a busy and of an idle block -/

/-- Settles O4. -/
theorem stepRunsCommandInProgress : Obligations.StepRunsCommandInProgress := fun _ _ hn hr hb hd =>
  step_running hn (running_iff.mpr ⟨hr, hb⟩) hd

theorem running_of_idle {s : State} (hb : s.blk.busy = false) : s.running = false := by
  simp [State.running, hb]

theorem step_idle_scripted {s : State} {dq : Level} {ok : Bool} {rest : List Input}
    (hin : s.inputs = .tick dq ok :: rest) (hr : s.running = false) :
    step s = .next { s with inputs := rest, now := s.now + 1 } := by
  rw [step_idle (nextIsTick_of_tick hin) hr]
  simp [State.idleTick, State.endTick, State.inputsAfterTick, hin]

/-- Settles O9: an idle block runs no command. -/
theorem idleTickChangesNothing : Obligations.IdleTickChangesNothing := by
  refine ⟨fun s dq ok rest hb hin => step_idle_scripted hin (running_of_idle hb), fun s hb hin => ?free⟩
  case free =>
    rw [step_idle (by simp [State.nextIsTick, hin]) (running_of_idle hb)]
    simp [State.idleTick, State.endTick, State.inputsAfterTick, hin]

/-! ### One tick of each kind of micro-operation -/

/-- One tick of a command: the entry at `UPC` sets the pins, and then the command advances, aborts or stays. -/
theorem exec_three_ways {i : Instr} {s : State} {e : Entry} (he : (expand i)[s.blk.upc]? = some e) :
    exec i s = .next (s.endTick (
      if e.op.endsOnTick s.blk.cnt s.dqIn s.gpioClkOk then advanced i (e.op.setPins s.dqIn s.gpioClkOk s.blk)
      else if e.op.failsOnTick s.blk.cnt s.dqIn s.gpioClkOk then
        (e.op.setPins s.dqIn s.gpioClkOk s.blk).abort e.op.abortCode
      else (e.op.setPins s.dqIn s.gpioClkOk s.blk).stay)) := by
  rw [exec_entry he, tick_eq]

/-- Settles O10: `DRV` never aborts. -/
theorem driveTick : Obligations.DriveTick := by
  intro i s e l n he hop
  rw [exec_three_ways he, hop]
  simp only [MicroOp.endsOnTick, MicroOp.failsOnTick, MicroOp.ticks, beq_iff_eq]
  rfl

/-- Settles O11: `RLS` never aborts. -/
theorem releaseTick : Obligations.ReleaseTick := by
  intro i s e n he hop
  rw [exec_three_ways he, hop]
  simp only [MicroOp.endsOnTick, MicroOp.failsOnTick, MicroOp.ticks, beq_iff_eq]
  rfl

/-- Settles O12: the sampled word is `SHR` with bit `j` set to the line. -/
theorem sampleTick : Obligations.SampleTick := by
  intro i s e n j he hop
  refine ⟨setBit s.blk.shr j s.dqIn.bit, fun k _ => ?bits, ?tick⟩
  case bits => rw [getLsbD_setBit, bit_eq_decide]
  case tick =>
    rw [exec_three_ways he, hop]
    simp only [MicroOp.endsOnTick, MicroOp.failsOnTick, MicroOp.ticks, beq_iff_eq, MicroOp.setPins]
    by_cases hn : s.blk.cnt + 1 = n
    · simp only [if_pos hn]; rfl
    · simp only [if_neg hn]; rfl

/-- Settles O13: the two waits are one rule with the levels exchanged, `Block.tickWait`. -/
theorem waitTick : Obligations.WaitTick := by
  intro i s e want m c he hop
  have hwait : e.op = waitOp want m c := by
    obtain ⟨rfl, hop⟩ | ⟨rfl, hop⟩ := hop
    · exact hop
    · exact hop
  rw [exec_entry he, hwait, waitOp_tick, Block.tickWait, advance_eq_advanced]
  rfl

/-- Settles O14: `CFG` ends or aborts on its one tick, as the clock-ready input says. -/
theorem configureTick : Obligations.ConfigureTick := by
  intro i s e he hop
  rw [exec_three_ways he, hop]
  cases hok : s.gpioClkOk with
  | false =>
    simp [MicroOp.endsOnTick, MicroOp.failsOnTick, MicroOp.setPins, MicroOp.abortCode, Block.abort, State.endTick]
  | true => simp [MicroOp.endsOnTick, MicroOp.setPins, State.endTick]

/-! ### The tick on which a command completes -/

/-- On the tick that ends the last entry of its list a command completes (40_micro_ops.md R90 and R91). -/
theorem exec_completes {i : Instr} {s : State} {e : Entry} {k : Nat} (hu : s.blk.upc = k)
    (he : (expand i)[k]? = some e) (hl : k + 1 = (expand i).length)
    (hend : e.op.endsOnTick s.blk.cnt s.dqIn s.gpioClkOk = true) :
    exec i s = .next (s.endTick (finished i (e.op.setPins s.dqIn s.gpioClkOk s.blk))) := by
  subst hu
  rw [exec_three_ways he, if_pos hend, advanced, setPins_upc, if_pos hl]

/-- The last entry of a written byte drives high for the recovery time of its bit 7 (40_micro_ops.md R81). -/
theorem writeByte_last_entry (v : Byte) :
    (expand (.writeByte v))[15]? = some ⟨.drv .high (if v.getLsbD 7 then 58 else 2), .commandPhase⟩ := by
  have hlast : (wBit Config.timing (v.getLsbD 7))[1]? =
      some ⟨.drv .high (if v.getLsbD 7 then 58 else 2), .commandPhase⟩ := by
    cases v.getLsbD 7 <;> rfl
  simpa [expand, expandWith, wByte, byteBits, List.getElem?_append, wBit_length] using hlast

/-- Settles O15: the last entry of each list is a `DRV` high. -/
theorem drivingCommandsComplete : Obligations.DrivingCommandsComplete := by
  refine fun s => ⟨fun hu hc => ?reset, fun v hu hc => ?writeByte, fun hu hc => ?skipRom,
    fun hu hc => ?startConversion⟩
  case reset => exact exec_completes (e := ⟨.drv .high 15, .reset⟩) hu rfl rfl (by rw [hc]; rfl)
  case writeByte =>
    refine exec_completes hu (writeByte_last_entry v) (expand_writeByte_length v).symm ?_
    rw [hc]
    cases v.getLsbD 7 <;> rfl
  case skipRom => exact exec_completes (e := ⟨.drv .high 58, .commandPhase⟩) hu rfl rfl (by rw [hc]; rfl)
  case startConversion => exact exec_completes (e := ⟨.drv .high 2, .commandPhase⟩) hu rfl rfl (by rw [hc]; rfl)

/-- Settles O16: `WAITH` ends on a high line, `CFG` with the clock ready. -/
theorem configAndPresenceCommandsComplete : Obligations.ConfigAndPresenceCommandsComplete := by
  have hwait {s : State} (h : s.dqIn = .high) :
      (MicroOp.waitH 240 .presencePulseInvalid).endsOnTick s.blk.cnt s.dqIn s.gpioClkOk = true := beq_iff_eq.mpr h
  refine fun s => ⟨fun hu hdq => ?checkPresence, fun hu hdq => ?init, fun hu hok => ?configure⟩
  case checkPresence => exact exec_completes (e := ⟨_, .presenceWindowHigh⟩) hu rfl rfl (hwait hdq)
  case init => exact exec_completes (e := ⟨_, .presenceWindowHigh⟩) hu rfl rfl (hwait hdq)
  case configure =>
    rw [exec_completes (e := ⟨.cfg, .config⟩) hu rfl rfl hok]
    simp [finished, MicroOp.setPins, hok]

/-- Settles O17: the last entry of each list is `RLS(45)`, which keeps `SHR`. -/
theorem readingCommandsComplete : Obligations.ReadingCommandsComplete := by
  have hlast {s : State} (h : s.blk.cnt = 44) :
      (MicroOp.rls 45).endsOnTick s.blk.cnt s.dqIn s.gpioClkOk = true := by rw [h]; rfl
  refine fun s => ⟨fun hu hc => ?readBit, fun hu hc => ?readByte, fun hu hc => ?readTemperature⟩
  case readBit => exact exec_completes (e := ⟨_, .dataPhase⟩) hu rfl rfl (hlast hc)
  case readByte =>
    rw [exec_completes (e := ⟨_, .dataPhase⟩) hu rfl rfl (hlast hc), finished,
      BitVec.setWidth_eq_extractLsb' (by decide)]
    rfl
  case readTemperature =>
    exact exec_completes (e := ⟨_, .dataPhase⟩) hu rfl expand_readTemperature_length.symm (hlast hc)

/-! ### Two ticks that differ in the level of the line -/

/-- `b'` is `b` but for `SHR` and the two result registers. -/
def SameButSamples (b b' : Block) : Prop :=
  b' = { b with shr := b'.shr, data := b'.data, raw := b'.raw }

/-- What is in `SHR` when an entry ends goes nowhere but into the result registers (40_micro_ops.md R91). -/
theorem advanced_sameButSamples (i : Instr) (b : Block) (v w : Half) :
    SameButSamples (advanced i { b with shr := v }) (advanced i { b with shr := w }) := by
  unfold SameButSamples advanced
  dsimp only
  split
  · cases i <;> rfl
  · rfl

/-- But for the two waits, the line of a tick changes at most `SHR` and the result registers (40_micro_ops.md R95). -/
theorem tick_sameButSamples (i : Instr) {u : MicroOp} (hl : ∀ m c, u ≠ .waitL m c) (hh : ∀ m c, u ≠ .waitH m c)
    (dq dq' : Level) (ok : Bool) (b : Block) :
    SameButSamples (u.tick (expand i).length (resultOf i) dq ok b)
      (u.tick (expand i).length (resultOf i) dq' ok b) := by
  cases hread : u.readsLine b.cnt with
  | false => rw [tick_dq_congr hread dq dq']; rfl
  | true =>
    cases u with
    | smp n j =>
      simp only [tick_eq, MicroOp.endsOnTick, MicroOp.ticks, show (b.cnt + 1 == n) = true from hread, if_true]
      exact advanced_sameButSamples i { b with oe := .input } _ _
    | waitL m c => exact absurd rfl (hl m c)
    | waitH m c => exact absurd rfl (hh m c)
    | drv l n => simp [MicroOp.readsLine] at hread
    | rls n => simp [MicroOp.readsLine] at hread
    | cfg => simp [MicroOp.readsLine] at hread

/-- A scripted tick where an entry is in progress: one tick of it, or nothing while `rst_n` is low. -/
theorem step_entry_scripted {s : State} {dq : Level} {ok : Bool} {rest : List Input} {i : Instr} {e : Entry}
    (hin : s.inputs = .tick dq ok :: rest) (hb : s.blk.busy = true) (hd : decode s.blk.cmd = .ok i)
    (he : (expand i)[s.blk.upc]? = some e) :
    step s = .next { s with
      inputs := rest
      now := s.now + 1
      blk := if s.rstN = .high then e.op.tick (expand i).length (resultOf i) dq ok s.blk else s.blk } := by
  by_cases hr : s.rstN = .high
  · obtain ⟨hlt, -⟩ := List.getElem?_eq_some_iff.mp he
    rw [step_scripted (e := (dq, ok)) hr hd (fun _ => hlt) hin, blkTick_entry hb he, if_pos hr]
  · rw [step_idle_scripted hin (by simp [State.running, hr]), if_neg hr]

/-- Settles O40: the two steps run one entry of one list at two levels of the line. -/
theorem waveformIndependentOfSamples : Obligations.WaveformIndependentOfSamples := by
  intro s t t' dq dq' ok rest e hin he hl hh h h'
  obtain ⟨hb, i, hd, hi⟩ := entry_eq_some.mp he
  rw [step_entry_scripted hin hb hd hi] at h
  rw [step_entry_scripted (s := { s with inputs := .tick dq' ok :: rest }) rfl hb hd hi] at h'
  cases h
  cases h'
  have hblk := tick_sameButSamples i hl hh dq dq' ok s.blk
  by_cases hr : s.rstN = .high
  · simpa [hr, SameButSamples] using hblk
  · simp [hr]

end Sys2Proof.Machine
end

section
/-! PROOFS of the statements about the bus primitives (spec/41_bus_primitives.md): the frame of one tick of each
command, said once for all commands by `exec_frame`, and the run of each whole primitive, put together from the
stretches of its list by `Accepted.commandTakes`. -/

namespace Sys2Proof.Machine

/-! ### What one tick of a command leaves as it was -/

/-- Only the reading commands hold a `SMP` (40_micro_ops.md R81): its tag is that of a read slot. -/
theorem sampling_entry {i : Instr} {e : Entry} {n : Nat} {j : Fin 16} (he : e ∈ expand i) (hop : e.op = .smp n j) :
    i = .readBit ∨ i = .readByte ∨ i = .readTemperature := by
  have htagged : ∀ e ∈ expand i, e.phase = .dataPhase → i = .readBit ∨ i = .readByte ∨ i = .readTemperature := by
    cases i with
    | writeByte v =>
      intro e he hphase
      obtain ⟨l, n, rfl, -⟩ := wByte_entry he
      cases hphase
    | _ => decide
  exact htagged e he (by simpa [Entry.tagFits, hop] using entry_tagFits he)

/-- A tick either leaves the flags and the result registers, or ends the command. -/
theorem tick_keeps_or_ends (i : Instr) (u : MicroOp) (dq : Level) (ok : Bool) (b : Block) :
    let t := u.tick (expand i).length (resultOf i) dq ok b
    t.busy = b.busy ∧ t.done = b.done ∧ t.err = b.err ∧ t.data = b.data ∧ t.raw = b.raw ∨
      t.busy = false ∧ t.done = true := by
  obtain ⟨-, h⟩ | ⟨-, h⟩ | ⟨-, -, h⟩ := tick_three_ways i u dq ok b <;> rw [h]
  · unfold advanced
    split <;> simp
  · simp
  · simp

/-- A tick that changes `RAW` is one of `READ_TEMPERATURE`. -/
theorem tick_raw_changes {i : Instr} {u : MicroOp} {dq : Level} {ok : Bool} {b : Block}
    (h : (u.tick (expand i).length (resultOf i) dq ok b).raw ≠ b.raw) : i = .readTemperature := by
  obtain ⟨-, hr⟩ | ⟨-, -, ht⟩ := tick_results i u dq ok b
  · exact absurd hr h
  · rw [ht] at h
    exact finished_raw_changes (u.setPins dq ok b) (by simpa using h)

/-- What one tick of the command `i` leaves of the block: per element, the commands of which no tick writes it ("Writes"
and "Errors" of spec/41_bus_primitives.md and spec/42_sensor_sequences.md). -/
structure TickFrame (i : Instr) (b t : Block) : Prop where
  cmd : t.cmd = b.cmd
  ovr : t.ovr = b.ovr
  pinConfig : i ≠ .configure → i ≠ .init → t.pu = b.pu ∧ t.clken = b.clken
  pinConfigSticky : (b.pu = true → t.pu = true) ∧ (b.clken = true → t.clken = true)
  err : i ≠ .configure → ¬ checksPresence i → t.err = b.err
  shr : i ≠ .readBit → i ≠ .readByte → i ≠ .readTemperature → t.shr = b.shr
  data : i ≠ .readBit → i ≠ .readByte → t.data = b.data
  raw : i ≠ .readTemperature → t.raw = b.raw
  ends : t.busy = b.busy ∧ t.done = b.done ∧ t.err = b.err ∧ t.data = b.data ∧ t.raw = b.raw ∨
    t.busy = false ∧ t.done = true

theorem tick_frame {i : Instr} {e : Entry} (he : e ∈ expand i) (dq : Level) (ok : Bool) (b : Block) :
    TickFrame i b (e.op.tick (expand i).length (resultOf i) dq ok b) where
  cmd := tick_keeps_cmd ..
  ovr := tick_keeps_ovr ..
  pinConfig hc hi := by
    have hop : e.op ≠ .cfg := fun h => ((aborting_entry he).2.2 h).elim hc hi
    simp [hop]
  pinConfigSticky := by
    rw [tick_pu, tick_clken]
    exact ⟨fun h => by simp [h], fun h => by simp [h]⟩
  err hc hp := by
    obtain h | ⟨-, hop, -⟩ | ⟨-, h, -⟩ := tick_err he dq ok b
    · exact h
    · obtain rfl | rfl := (aborting_entry he).2.2 hop
      · exact absurd rfl hc
      · exact absurd (by simp [checksPresence]) hp
    · exact absurd h hp
  shr h1 h2 h3 := by
    rw [tick_shr]
    by_contra hne
    obtain ⟨n, j, hop, -⟩ := setPins_shr_changes hne
    obtain h | h | h := sampling_entry he hop
    · exact h1 h
    · exact h2 h
    · exact h3 h
  data h1 h2 := by
    by_contra hne
    exact (tick_data_changes hne).1.elim h1 h2
  raw h := by
    by_contra hne
    exact h (tick_raw_changes hne)
  ends := tick_keeps_or_ends ..

/-- One tick of a command takes its event, counts the tick, and writes no more of the block than `TickFrame` says. -/
theorem exec_frame {i : Instr} {s t : State} (h : exec i s = .next t) :
    t = s.endTick t.blk ∧ TickFrame i s.blk t.blk := by
  obtain ⟨e, he, rfl⟩ := exec_next h
  exact ⟨rfl, tick_frame (mem_of_entry he) ..⟩

/-- Two blocks that differ in `DATA` alone read alike at every index but that of `DATA` (20_memory.md R41). -/
theorem regRead_of_ne_data (b : Block) (d : Byte) {a : RegIndex} (ha : a ≠ 2#3) :
    ({ b with data := d } : Block).regRead a = b.regRead a := by
  unfold Block.regRead
  split
  case h_3 h => exact absurd (BitVec.eq_of_toNat_eq h) ha
  all_goals rfl

/-- Two blocks that differ in `RAW` alone read alike at every index but those of `RAW` and `TEMP` (20_memory.md
R41). -/
theorem regRead_of_ne_raw (b : Block) (r : Half) {a : RegIndex} (ha : a ≠ 3#3) (ha' : a ≠ 4#3) :
    ({ b with raw := r } : Block).regRead a = b.regRead a := by
  unfold Block.regRead
  split
  case h_4 h => exact absurd (BitVec.eq_of_toNat_eq h) ha
  case h_5 h => exact absurd (BitVec.eq_of_toNat_eq h) ha'
  all_goals rfl

/-- Settles O19: neither command configures the pin, aborts, samples or has a result. -/
theorem frameOfDrivingCommands : Obligations.FrameOfDrivingCommands := by
  intro i s t hi h
  obtain ⟨ht, hf⟩ := exec_frame h
  obtain ⟨⟨hpu, hclken⟩, herr, hshr, hdata, hraw⟩ : (t.blk.pu = s.blk.pu ∧ t.blk.clken = s.blk.clken) ∧
      t.blk.err = s.blk.err ∧ t.blk.shr = s.blk.shr ∧ t.blk.data = s.blk.data ∧ t.blk.raw = s.blk.raw := by
    rcases hi with rfl | ⟨v, rfl⟩ <;>
      exact ⟨hf.pinConfig nofun nofun, hf.err nofun (by simp [checksPresence]), hf.shr nofun nofun nofun,
        hf.data nofun nofun, hf.raw nofun⟩
  refine ⟨?state, ?flags, fun a ha => regRead_congr hf.cmd hdata hraw ha⟩
  case state =>
    dsimp only
    rw [← hf.cmd, ← hf.ovr, ← hpu, ← hclken, ← herr, ← hshr, ← hdata, ← hraw]
    exact ht
  case flags => exact hf.ends.imp_left fun ⟨hbusy, hdone, _⟩ => ⟨hbusy, hdone⟩

/-- Settles O20: none of the three configures the pin, samples or has a result. -/
theorem frameOfPresenceCommands : Obligations.FrameOfPresenceCommands := by
  intro i s t hi h
  obtain ⟨ht, hf⟩ := exec_frame h
  obtain ⟨⟨hpu, hclken⟩, hshr, hdata, hraw⟩ : (t.blk.pu = s.blk.pu ∧ t.blk.clken = s.blk.clken) ∧
      t.blk.shr = s.blk.shr ∧ t.blk.data = s.blk.data ∧ t.blk.raw = s.blk.raw := by
    rcases hi with rfl | rfl | rfl <;>
      exact ⟨hf.pinConfig nofun nofun, hf.shr nofun nofun nofun, hf.data nofun nofun, hf.raw nofun⟩
  refine ⟨?state, ?flags, fun a ha => regRead_congr hf.cmd hdata hraw ha⟩
  case state =>
    dsimp only
    rw [← hf.cmd, ← hf.ovr, ← hpu, ← hclken, ← hshr, ← hdata, ← hraw]
    exact ht
  case flags => exact hf.ends.imp_left fun ⟨hbusy, hdone, herr, _⟩ => ⟨hbusy, hdone, herr⟩

/-- Settles O21: neither command samples or has a result, and no tick clears `PU` or `CLKEN`. -/
theorem frameOfConfigCommands : Obligations.FrameOfConfigCommands := by
  intro i s t hi h
  obtain ⟨ht, hf⟩ := exec_frame h
  obtain ⟨hshr, hdata, hraw⟩ : t.blk.shr = s.blk.shr ∧ t.blk.data = s.blk.data ∧ t.blk.raw = s.blk.raw := by
    rcases hi with rfl | rfl <;> exact ⟨hf.shr nofun nofun nofun, hf.data nofun nofun, hf.raw nofun⟩
  refine ⟨?state, ?flags, fun a ha => regRead_congr hf.cmd hdata hraw ha, hf.pinConfigSticky⟩
  case state =>
    dsimp only
    rw [← hf.cmd, ← hf.ovr, ← hshr, ← hdata, ← hraw]
    exact ht
  case flags => exact hf.ends.imp_left fun ⟨hbusy, hdone, herr, _⟩ => ⟨hbusy, hdone, herr⟩

/-- Settles O22: the result register of the other kind is not written, and none before the end. -/
theorem frameOfReadingCommands : Obligations.FrameOfReadingCommands := by
  refine ⟨fun i s t hi h => ?readData, fun s t h => ?readTemperature⟩
  case readData =>
    obtain ⟨ht, hf⟩ := exec_frame h
    obtain ⟨⟨hpu, hclken⟩, herr, hraw⟩ : (t.blk.pu = s.blk.pu ∧ t.blk.clken = s.blk.clken) ∧
        t.blk.err = s.blk.err ∧ t.blk.raw = s.blk.raw := by
      rcases hi with rfl | rfl <;>
        exact ⟨hf.pinConfig nofun nofun, hf.err nofun (by simp [checksPresence]), hf.raw nofun⟩
    refine ⟨?state, ?flags, fun a ha ha' => ?reads⟩
    case state =>
      dsimp only
      rw [← hf.cmd, ← hf.ovr, ← hpu, ← hclken, ← herr, ← hraw]
      exact ht
    case flags => exact hf.ends.imp_left fun ⟨hbusy, hdone, _, hdata, _⟩ => ⟨hbusy, hdone, hdata⟩
    case reads =>
      exact (regRead_congr (b := { s.blk with data := t.blk.data }) hf.cmd rfl hraw ha).trans
        (regRead_of_ne_data s.blk _ ha')
  case readTemperature =>
    obtain ⟨ht, hf⟩ := exec_frame h
    obtain ⟨hpu, hclken⟩ := hf.pinConfig nofun nofun
    have hdata := hf.data nofun nofun
    refine ⟨?state, ?flags, fun a ha ha' ha'' => ?reads⟩
    case state =>
      dsimp only
      rw [← hf.cmd, ← hf.ovr, ← hpu, ← hclken, ← hdata]
      exact ht
    case flags => exact hf.ends.imp_left fun ⟨hbusy, hdone, herr, _, hraw⟩ => ⟨hbusy, hdone, herr, hraw⟩
    case reads =>
      exact (regRead_congr (b := { s.blk with raw := t.blk.raw }) hf.cmd hdata rfl ha).trans
        (regRead_of_ne_raw s.blk _ ha' ha'')

/-! ### Whole commands -/

/-- A stretch over scripted ticks that brings an accepted command to its end is what the command takes. -/
theorem Accepted.commandTakes {i : Instr} {s : State} {env : List (Level × Bool)} {rest : List Input} {b : Block}
    {w : List Drive} {n : Nat} (h : Accepted i s) (hin : s.inputs = tickInputs env ++ rest) (hn : env.length = n)
    (hs : Stretch i env s.blk b w) (hb : b.busy = false) :
    waveform n s = w ∧ CommandTakes n s { s with inputs := rest, now := s.now + n, blk := b } := by
  obtain ⟨hr, -, hd, hu, -⟩ := h
  rw [← hn]
  exact hs.commandTakes hr hd (hu ▸ expand_pos i) hin hb

theorem Accepted.position {i : Instr} {s : State} (h : Accepted i s) :
    s.blk.upc = 0 ∧ s.blk.busy = true ∧ s.blk.cnt = 0 ∧ s.blk.shr = 0#16 := by
  obtain ⟨-, hb, -, hu, hc, hs, -⟩ := h
  exact ⟨hu, hb, hc, hs⟩

/-- Settles O48: the one tick of `CFG` completes or aborts as the clock-ready input says. -/
theorem configureCommandRun : Obligations.ConfigureCommandRun := by
  refine ⟨decode_encode .configure, rfl, fun s dq ok rest hacc _ hin => ?_⟩
  obtain ⟨hu, hb, hc, -⟩ := hacc.position
  have he : (expand .configure)[s.blk.upc]? = some ⟨.cfg, .config⟩ := by rw [hu]; rfl
  have hin : s.inputs = tickInputs [(dq, ok)] ++ rest := hin
  refine ⟨?ready, ?notReady⟩
  case ready =>
    rintro rfl
    have hs := stretch_cfg (x := (dq, true)) he hb rfl
    rw [advanced_eq_atEntry, hu] at hs
    exact hacc.commandTakes hin rfl hs rfl
  case notReady =>
    rintro rfl
    exact (hacc.commandTakes hin rfl (stretch_one hb (blkTick_entry hb he)) rfl).2

/-- Settles O42: the list is one reset pulse. -/
theorem resetCommandRun : Obligations.ResetCommandRun := by
  refine ⟨decode_encode .reset, rfl, fun s env rest hacc _ hin hlen => ?_⟩
  obtain ⟨hu, hb, hc, -⟩ := hacc.position
  exact hacc.commandTakes hin hlen (stretch_resetPulse (hasAt_self .reset) hu hb hc hlen) rfl

/-- Settles O43: the list is one presence check, with an outcome for each of the three lines. -/
theorem checkPresenceCommandRun : Obligations.CheckPresenceCommandRun := by
  refine ⟨decode_encode .checkPresence, rfl, fun s env rest k m hacc _ hin hk hm => ?_⟩
  obtain ⟨hu, hb, hc, -⟩ := hacc.position
  have hat : HasAt .checkPresence 0 (presence Config.timing) := hasAt_self .checkPresence
  simp only [wave_one]
  refine ⟨fun henv => ?met, fun henv => ?absent, fun henv => ?stuck⟩
  case met =>
    exact hacc.commandTakes hin (by rw [length_of_line henv, pulseLine_length])
      (stretch_presence_met hat hu hb hc hk hm henv) rfl
  case absent =>
    exact hacc.commandTakes hin (by rw [length_of_line henv, absentLine_length])
      (stretch_presence_absent hat hu hb hc henv) rfl
  case stuck =>
    exact hacc.commandTakes hin (by rw [length_of_line henv, stuckLine_length])
      (stretch_presence_stuck hat hu hb hc hk henv) rfl

theorem wByte_ops (v : Byte) : (wByte Config.timing v).map Entry.op = (byteBits v).flatMap (fun bit =>
    if bit then [.drv .low 10, .drv .high 58] else [.drv .low 70, .drv .high 2]) := by
  rw [wByte, List.map_flatMap]
  congr
  funext bit
  cases bit <;> rfl

/-- Settles O44: the list is one written byte. -/
theorem writeByteCommandRun : Obligations.WriteByteCommandRun := by
  refine fun v s env rest n => ⟨decode_encode (.writeByte v), wByte_ops v, fun hacc _ hin hn hlen => ?_⟩
  obtain ⟨hu, hb, hc, -⟩ := hacc.position
  have hones := ones_le v
  have hs := stretch_wByte (hasAt_self (.writeByte v)) hu hb hc (hlen.trans hn)
  rw [atEntry_end _ (expand_writeByte_length v).symm] at hs
  obtain ⟨hw, ht⟩ := hacc.commandTakes hin hlen hs rfl
  exact ⟨hw, by omega, by omega, ht⟩

/-- Settles O45: the list is one read slot, whose sample is the only bit of `SHR` and so `DATA`. -/
theorem readBitCommandRun : Obligations.ReadBitCommandRun := by
  refine ⟨decode_encode .readBit, rfl, fun s env rest dq ok hacc _ hin hlen h14 => ?_⟩
  obtain ⟨hu, hb, hc, hshr⟩ := hacc.position
  obtain ⟨x, hx, hs⟩ := stretch_rBit (hasAt_self .readBit) hu hb hc hlen
  obtain rfl : x = (dq, ok) := Option.some.inj (hx.symm.trans h14)
  have hsample : setBit s.blk.shr 0 dq.bit = if dq = .high then 0x0001#16 else 0x0000#16 := by
    rw [hshr]
    cases dq <;> rfl
  have hdata : (if dq = .high then 0x01#8 else 0x00#8) =
      if (if dq = .high then 0x0001#16 else 0x0000#16).getLsbD 0 then 1#8 else 0#8 := by
    cases dq <;> rfl
  rw [hsample] at hs
  rw [hdata]
  exact hacc.commandTakes hin hlen hs rfl

/-- The bits that `READ_BYTE` samples. -/
def lowBits : List (Fin 16) := [0, 1, 2, 3, 4, 5, 6, 7]

/-- Slot `j` of `READ_BYTE` samples bit `j`. -/
theorem lowBits_getElem? {j : Nat} (hj : j < 8) : lowBits[j]? = some ⟨j, by omega⟩ := by
  decide +revert

/-- The eight samples of `READ_BYTE` as a byte. -/
theorem sampleAll_lowBits (env : List (Level × Bool)) :
    sampleAll lowBits env 0#16 = 0#8 ++ (sampleAll lowBits env 0#16).setWidth 8 := by
  refine BitVec.eq_of_getLsbD_eq fun j _ => ?_
  rw [BitVec.getLsbD_append]
  by_cases hj : j < 8
  · simp [hj]
  · rw [if_neg hj, BitVec.getLsbD_zero, sampleAll_other (by simp [lowBits]; omega), BitVec.getLsbD_zero]

/-- Settles O46: the list is eight read slots, and what they sample is all there is in `SHR`. -/
theorem readByteCommandRun : Obligations.ReadByteCommandRun := by
  refine ⟨decode_encode .readByte, rfl, fun s env rest hacc _ hin hlen => ?_⟩
  obtain ⟨hu, hb, hc, hshr⟩ := hacc.position
  have hs := stretch_rBits (js := lowBits) (by decide) (hasAt_self .readByte) hu hb hc hlen
  rw [hshr] at hs
  obtain ⟨hw, ht⟩ := hacc.commandTakes hin hlen hs rfl
  refine ⟨hw, (sampleAll lowBits env 0#16).setWidth 8, fun j hj => ?samples, ?takes⟩
  case samples =>
    refine level_of_sampledBit (by omega) ?_
    rw [← sampleAll_at (by decide) (lowBits_getElem? hj) env 0#16]
    simp [hj]
  case takes =>
    rw [← sampleAll_lowBits]
    exact ht

/-! ### The round trip of a byte -/

/-- A number is the sum of its bits, each at its place (41_bus_primitives.md R106). -/
theorem sum_testBit_shiftLeft (x n : Nat) :
    ((List.range n).map fun j => (x.testBit j).toNat <<< j).sum = x % 2 ^ n := by
  induction n with
  | zero => simp [Nat.mod_one]
  | succ n ih =>
    rw [List.range_succ, List.map_append, List.sum_append, ih, List.map_singleton, List.sum_singleton,
      Nat.shiftLeft_eq, Nat.toNat_testBit, Nat.mul_comm, ← Nat.mod_pow_succ]

theorem byteBits_eq_map_range (v : Byte) : byteBits v = (List.range 8).map v.getLsbD := rfl

theorem byteBits_getElem? (v : Byte) {j : Nat} (hj : j < 8) : (byteBits v)[j]? = some (v.getLsbD j) := by
  simp [byteBits_eq_map_range, hj]

theorem slotWave_length (bit : Bool) : (slotWave bit).length = if bit then 68 else 72 := by
  cases bit <;> rfl

theorem wave_pair_fst {d d' : Drive} {n m x : Nat} (h : x < n) : (wave [(d, n), (d', m)])[x]? = some d := by
  simp [wave, List.getElem?_append, h]

theorem wave_pair_snd {d d' : Drive} {n m x : Nat} (h : n ≤ x) (h' : x < n + m) :
    (wave [(d, n), (d', m)])[x]? = some d' := by
  simp [wave, List.getElem?_append, Nat.not_lt.mpr h, Nat.sub_lt_left_of_lt_add h h']

/-- From tick 10 to tick 59 of a write slot the pin is at the level of the bit (30_encoding.md R68 and R69). -/
theorem slotWave_window (bit : Bool) {x : Nat} (h : 10 ≤ x) (h' : x ≤ 59) :
    (slotWave bit)[x]? = some (if bit then Drive.high else .low) := by
  cases bit with
  | false => exact wave_pair_fst (by omega)
  | true => exact wave_pair_snd h (by omega)

/-- A byte is determined by the levels its bits stand for. -/
theorem byte_eq_of_levels {v w : Byte}
    (h : ∀ j, j < 8 → (if v.getLsbD j then Level.high else .low) = if w.getLsbD j then Level.high else .low) :
    v = w := by
  have hlevel : ∀ a b : Bool, (if a then Level.high else .low) = (if b then Level.high else .low) → a = b := by decide
  exact BitVec.eq_of_getLsbD_eq fun j hj => hlevel _ _ (h j hj)

/-- Settles O53: the slots of the byte written are the waves of its bits, and `READ_BYTE` reads the byte that its eight
samples determine. -/
theorem byteRoundTrip : Obligations.ByteRoundTrip := by
  refine ⟨fun v => ?sum, fun v s s' env env' rest rest' hacc hovr hin hlen hacc' hovr' hin' hlen' hsamples =>
    ⟨⟨(byteBits v).map slotWave, rfl, ?written, fun j hj => ?length, fun j x hj h h' => ?window⟩, ?read⟩⟩
  case sum => exact (sum_testBit_shiftLeft v.toNat 8).trans (Nat.mod_eq_of_lt v.isLt)
  case written =>
    obtain ⟨-, -, hrun⟩ := writeByteCommandRun v s env rest env.length
    exact (hrun hacc hovr hin hlen rfl).1
  case length => simp [byteBits_getElem? v hj, slotWave_length]
  case window => simp [byteBits_getElem? v hj, slotWave_window _ h h']
  case read =>
    obtain ⟨-, -, hrun⟩ := readByteCommandRun
    obtain ⟨-, w, hw, hstep, hidle, -⟩ := hrun s' env' rest' hacc' hovr' hin' hlen'
    refine ⟨_, hstep, hidle, byte_eq_of_levels fun j hj => ?_⟩
    exact Option.some.inj ((hw j hj).symm.trans (hsamples j hj))

end Sys2Proof.Machine
end

section
/-! PROOFS of the statements about the sensor sequences (spec/42_sensor_sequences.md): each composite command is put
together from the stretches of its parts, up to the presence check that fails or to the end of the list, and `SKIP_ROM`
is compared with its three primitives run by run. -/

namespace Sys2Proof.Machine

/-! ### A presence check that fails right after the first reset pulse -/

/-- No device answers the first reset pulse of a command (42_sensor_sequences.md R124). -/
theorem Accepted.noDevice {i : Instr} {s : State} {env1 env2 : List (Level × Bool)} {rest : List Input}
    (h : Accepted i s) (hat : HasAt i 0 (resetPulse Config.timing ++ presence Config.timing))
    (hl : env1.length = 765) (hin : s.inputs = tickInputs (env1 ++ env2) ++ rest)
    (he : env2.map Prod.fst = absentLine) :
    waveform 865 s = wave [(.low, 750), (.high, 15), (.released, 100)] ∧
    CommandTakes 865 s { s with
      inputs := rest
      now := s.now + 865
      blk := ({ s.blk with oe := .input, out := .high } : Block).abort .noDevicePresent } := by
  obtain ⟨hu, hb, hc, -⟩ := h.position
  exact h.commandTakes hin (by simp [hl, length_of_line he]) (stretch_resetPresence_absent hat hu hb hc hl he) rfl

/-- The pulse that answers the first reset pulse of a command is too long (42_sensor_sequences.md R124). -/
theorem Accepted.pulseInvalid {i : Instr} {s : State} {env1 env2 : List (Level × Bool)} {rest : List Input} {k n : Nat}
    (h : Accepted i s) (hat : HasAt i 0 (resetPulse Config.timing ++ presence Config.timing))
    (hl : env1.length = 765) (hin : s.inputs = tickInputs (env1 ++ env2) ++ rest) (hk : k ≤ 99)
    (he : env2.map Prod.fst = stuckLine k) (hn : n = 1006 + k) :
    waveform n s = wave [(.low, 750), (.high, 15), (.released, k + 241)] ∧
    CommandTakes n s { s with
      inputs := rest
      now := s.now + n
      blk := ({ s.blk with oe := .input, out := .high } : Block).abort .presencePulseInvalid } := by
  obtain ⟨hu, hb, hc, -⟩ := h.position
  exact h.commandTakes hin (by simp [hl, length_of_line he]; omega)
    (stretch_resetPresence_stuck hat hu hb hc hl hk he) rfl

/-! ### `INIT` -/

/-- The list of `INIT` after its `CFG` (42_sensor_sequences.md R123). -/
theorem hasAt_init : HasAt .init 1 (resetPulse Config.timing ++ presence Config.timing) :=
  (hasAt_self .init).tail

/-- Settles O47: `CFG` completes or aborts on the first tick, and the presence check decides the rest. -/
theorem initCommandRun : Obligations.InitCommandRun := by
  refine ⟨decode_encode .init, rfl, ?clockReady, ?clockNotReady⟩
  case clockReady =>
    intro s env1 env2 rest dq k m hacc _ hin hl hhead hk hm
    obtain ⟨hu, hb, hc, -⟩ := hacc.position
    obtain ⟨pulse, rfl⟩ := List.head?_eq_some_iff.mp hhead
    have hpulse : pulse.length = 765 := by simpa using hl
    have hcfg := stretch_cfg (i := .init) (x := (dq, true)) (by rw [hu]; rfl) hb rfl
    rw [advanced_eq_atEntry, hu, atEntry_lt _ hasAt_init.lt] at hcfg
    refine ⟨fun he => ?met, fun he => ?absent, fun he => ?stuck⟩
    case met =>
      exact hacc.commandTakes hin (by simp [hpulse, length_of_line he]; omega)
        (hcfg.append (stretch_resetPresence_met hasAt_init rfl hb rfl hpulse hk hm he)) rfl
    case absent =>
      exact (hacc.commandTakes hin (by simp [hpulse, length_of_line he])
        (hcfg.append (stretch_resetPresence_absent hasAt_init rfl hb rfl hpulse he)) rfl).2
    case stuck =>
      exact (hacc.commandTakes hin (by simp [hpulse, length_of_line he]; omega)
        (hcfg.append (stretch_resetPresence_stuck hasAt_init rfl hb rfl hpulse hk he)) rfl).2
  case clockNotReady =>
    intro s dq rest hacc _ hin
    obtain ⟨hu, hb, -⟩ := hacc.position
    have he : (expand .init)[s.blk.upc]? = some ⟨.cfg, .config⟩ := by rw [hu]; rfl
    exact (hacc.commandTakes (env := [(dq, false)]) hin rfl (stretch_one hb (blkTick_entry hb he)) rfl).2

/-! ### `SKIP_ROM` and `START_CONVERSION` -/

/-- The waveform of `SKIP_ROM` as runs: the slots of `0xCC` are two of 0, two of 1, two of 0 and two of 1. -/
theorem skipRom_wave (z : Nat) : wave [(.low, 750), (.high, 15), (.released, z)] ++ byteWave 0xCC#8 =
    wave [(.low, 750), (.high, 15), (.released, z), (.low, 70), (.high, 2), (.low, 70), (.high, 2), (.low, 10),
      (.high, 58), (.low, 10), (.high, 58), (.low, 70), (.high, 2), (.low, 70), (.high, 2), (.low, 10), (.high, 58),
      (.low, 10), (.high, 58)] := by
  have hbits : byteBits 0xCC#8 = [false, false, true, true, false, false, true, true] := rfl
  simp [byteWave, hbits, slotWave, wave_append]

/-- Settles O49: the list is a reset pulse, a presence check and a written byte. -/
theorem skipRomCommandRun : Obligations.SkipRomCommandRun := by
  refine ⟨decode_encode .skipRom, rfl, fun s env1 env2 env3 rest k m hacc _ hl hk hm => ?_⟩
  obtain ⟨hu, hb, hc, -⟩ := hacc.position
  have hat : HasAt .skipRom 0 (skipRomSeq Config.timing) := hasAt_self .skipRom
  rw [skipRomSeq_eq] at hat
  refine ⟨fun hin he hl3 => ?met, fun hin he => ?absent, fun hin he => ?stuck⟩
  case met =>
    rw [← skipRom_wave]
    exact hacc.commandTakes hin (by simp [hl, hl3, length_of_line he]; omega)
      (stretch_skipRom hat hu hb hc hl hk hm he hl3 (by decide)) rfl
  case absent => exact hacc.noDevice hat.left hl hin he
  case stuck => exact hacc.pulseInvalid hat.left hl hin hk he (by omega)

/-- Settles O50: the list is that of `SKIP_ROM` and a written byte. -/
theorem startConversionCommandRun : Obligations.StartConversionCommandRun := by
  refine ⟨decode_encode .startConversion, rfl, fun s env1 env2 env3 rest k m hacc _ hl hk hm => ?_⟩
  obtain ⟨hu, hb, hc, -⟩ := hacc.position
  have hat : HasAt .startConversion 0 (skipRomSeq Config.timing ++ wByte Config.timing 0x44#8) :=
    hasAt_self .startConversion
  refine ⟨fun hin he hl3 => ?met, fun hin he => ?absent, fun hin he => ?stuck⟩
  case met =>
    exact hacc.commandTakes hin (by simp [hl, hl3, length_of_line he]; omega)
      (stretch_skipByte hat hu hb hc hl hk hm he hl3 (by decide)) rfl
  case absent => exact hacc.noDevice hat.left.left hl hin he
  case stuck => exact hacc.pulseInvalid hat.left.left hl hin hk he (by omega)

/-! ### `READ_TEMPERATURE` -/

/-- The second part of the list (42_sensor_sequences.md R122). -/
theorem hasAt_scratchpadRequest :
    HasAt .readTemperature 36 (skipRomSeq Config.timing ++ wByte Config.timing 0xBE#8) :=
  hasAt_readTemperature.right.left

/-- The bits that `READ_TEMPERATURE` samples. -/
def sampleBits : List (Fin 16) := [0, 1, 2, 3, 4, 5, 6, 7, 8, 9, 10, 11, 12, 13, 14, 15]

/-- Read slot `j` samples bit `j`. -/
theorem sampleBits_getElem? {j : Nat} (hj : j < 16) : sampleBits[j]? = some ⟨j, hj⟩ := by
  decide +revert

/-- The read slots of the list (42_sensor_sequences.md R122). -/
theorem hasAt_readSlots : HasAt .readTemperature 72 (sampleBits.flatMap (rBit Config.timing)) :=
  hasAt_readTemperature.right.right

/-- The first part of the list, where the presence check succeeds: the conversion is started. -/
theorem stretch_conversionStart {env1 env2 env3 : List (Level × Bool)} {b : Block} {k m : Nat} (hu : b.upc = 0)
    (hb : b.busy = true) (hc : b.cnt = 0) (hl : env1.length = 765) (hk : k ≤ 99) (hm : m ≤ 239)
    (he : env2.map Prod.fst = pulseLine k m) (hl3 : env3.length = 1128) :
    Stretch .readTemperature (env1 ++ env2 ++ env3) b { b with oe := .output, out := .high, upc := 36, cnt := 0 }
      (wave [(.low, 750), (.high, 15), (.released, k + m + 2)] ++ byteWave 0xCC#8 ++ byteWave 0x44#8) :=
  (stretch_skipByte hasAt_readTemperature.left hu hb hc hl hk hm he hl3 (by decide)).congr
    (atEntry_lt _ (by decide)) rfl

/-- The ticks between the two presence checks are those of the two bytes and of the second reset pulse. -/
theorem split_between_checks {env : List (Level × Bool)} (h : env.length = 1893) :
    ∃ bytes pulse, env = bytes ++ pulse ∧ bytes.length = 1128 ∧ pulse.length = 765 :=
  ⟨env.take 1128, env.drop 1128, (List.take_append_drop ..).symm, by simp [h], by simp [h]⟩

/-- Settles O51: both parts and the sixteen read slots; what the slots sample is all there is in `SHR`. -/
theorem readTemperatureCommandRun : Obligations.ReadTemperatureCommandRun := by
  refine ⟨decode_encode .readTemperature, rfl, ?_⟩
  intro s env1 env2 env3 env4 env5 env6 rest k m k' m' hacc _ hin hl1 he2 hl3 he4 hl5 hl6 hk hm hk' hm'
  obtain ⟨hu, hb, hc, hshr⟩ := hacc.position
  obtain ⟨bytes, pulse, rfl, hbytes, hpulse⟩ := split_between_checks hl3
  have hstart := stretch_conversionStart hu hb hc hl1 hk hm he2 hbytes
  have hrequest := stretch_skipByte
    (b := { s.blk with oe := .output, out := .high, upc := 36, cnt := 0 }) hasAt_scratchpadRequest rfl hb rfl hpulse hk'
    hm' he4 hl5 (by decide)
  rw [atEntry_lt _ (by decide)] at hrequest
  have hread := stretch_rBits (js := sampleBits)
    (b := { s.blk with oe := .output, out := .high, upc := 72, cnt := 0 }) (by decide) hasAt_readSlots rfl hb rfl hl6
  have hall := (hstart.append hrequest).append hread
  simp only [hshr] at hall
  obtain ⟨hw, ht⟩ := hacc.commandTakes (n := 4730 + (k + m + 2) + (k' + m' + 2)) (by simpa using hin)
    (by simp [hl1, length_of_line he2, hbytes, hpulse, length_of_line he4, hl5, hl6]; omega) hall rfl
  simp only [List.append_assoc] at hw ⊢
  refine ⟨hw, sampleAll sampleBits env6 0#16, fun j hj => ?samples, ht⟩
  case samples =>
    refine level_of_sampledBit (by omega) ?_
    rw [← sampleAll_at (by decide) (sampleBits_getElem? hj) env6 0#16]

/-- Settles O52: each presence check follows its reset pulse and ends the command before the first sample. -/
theorem readTemperatureFails : Obligations.ReadTemperatureFails := by
  intro s env1 env2 env3 env4 rest k m k' hacc _ hl hk hm hk'
  obtain ⟨hu, hb, hc, -⟩ := hacc.position
  have hfirst := hasAt_readTemperature.left.left.left
  have hsecond := hasAt_scratchpadRequest.left.left
  refine ⟨fun hin he => ?firstAbsent, fun hin he => ?firstStuck, fun hin he2 hl3 he4 => ?secondAbsent,
    fun hin he2 hl3 he4 => ?secondStuck⟩
  case firstAbsent => exact (hacc.noDevice hfirst hl hin he).2
  case firstStuck => exact (hacc.pulseInvalid hfirst hl hin hk he rfl).2
  all_goals
    obtain ⟨bytes, pulse, rfl, hbytes, hpulse⟩ := split_between_checks hl3
    have hstart := stretch_conversionStart hu hb hc hl hk hm he2 hbytes
  case secondAbsent =>
    exact (hacc.commandTakes (by simpa using hin)
      (by simp [hl, length_of_line he2, hbytes, hpulse, length_of_line he4]; omega)
      (hstart.append (stretch_resetPresence_absent hsecond rfl hb rfl hpulse he4)) rfl).2
  case secondStuck =>
    exact (hacc.commandTakes (by simpa using hin)
      (by simp [hl, length_of_line he2, hbytes, hpulse, length_of_line he4]; omega)
      (hstart.append (stretch_resetPresence_stuck hsecond rfl hb rfl hpulse hk' he4)) rfl).2

/-! ### Commands written back to back -/

/-- `n` steps lead from `s` to `t`, with the pin as `w` on the ticks among them. -/
structure RunsTo (n : Nat) (s t : State) (w : List Drive) : Prop where
  steps : stepMany n s = .next t
  wave : waveform n s = w

theorem stepMany_of_step {n : Nat} {s t : State} (h : step s = .next t) : stepMany (n + 1) s = stepMany n t := by
  rw [stepMany, h]

theorem waveform_of_step {n : Nat} {s t : State} (h : step s = .next t) :
    waveform (n + 1) s = (if s.nextIsTick then [t.blk.drive] else []) ++ waveform n t := by
  unfold waveform
  rw [record, h]
  cases s.nextIsTick <;> rfl

theorem step_of_stepMany {n : Nat} {s t : State} (h : stepMany (n + 1) s = .next t) :
    ∃ u, step s = .next u ∧ stepMany n u = .next t := by
  unfold stepMany at h
  split at h
  · rename_i u hu
    exact ⟨u, hu, h⟩
  · cases h
  · cases h

theorem RunsTo.trans {n m : Nat} {s t u : State} {w w' : List Drive} (h : RunsTo n s t w) (h' : RunsTo m t u w') :
    RunsTo (n + m) s u (w ++ w') := by
  obtain ⟨hs, rfl⟩ := h
  induction n generalizing s with
  | zero =>
    cases hs
    rwa [Nat.zero_add]
  | succ n ih =>
    obtain ⟨v, hv, hrest⟩ := step_of_stepMany hs
    obtain ⟨hsteps, hwave⟩ := ih hrest
    rw [Nat.succ_add]
    exact ⟨by rw [stepMany_of_step hv, hsteps],
      by rw [waveform_of_step hv, waveform_of_step hv, hwave, List.append_assoc]⟩

/-- The state once the word of the command `i` has been accepted, with `l` as the events left (20_memory.md R44). -/
def State.accepting (i : Instr) (l : List Input) (s : State) : State :=
  { s with inputs := l, blk := s.blk.accept (encode i) }

theorem accepted_accepting (i : Instr) (l : List Input) {s : State} (hr : s.rstN = .high) :
    Accepted i (s.accepting i l) :=
  ⟨hr, rfl, decode_encode i, rfl, rfl, rfl, rfl, rfl⟩

theorem step_command {i : Instr} {l : List Input} {s : State} (hr : s.rstN = .high) (hb : s.blk.busy = false)
    (hin : s.inputs = .regWrite 0#3 (encode i) :: l) : step s = .next (s.accepting i l) := by
  rw [step_regWrite_high hin hr, regWrite_accept hb (legal_iff_decode.mpr ⟨i, decode_encode i⟩)]
  rfl

/-- A command from the write of its word to its end: the write takes a step and no tick. -/
theorem RunsTo.command {i : Instr} {l : List Input} {n : Nat} {s t : State} {w : List Drive} (hr : s.rstN = .high)
    (hb : s.blk.busy = false) (hin : s.inputs = .regWrite 0#3 (encode i) :: l)
    (h : waveform n (s.accepting i l) = w ∧ CommandTakes n (s.accepting i l) t) : RunsTo (n + 1) s t w := by
  have hstep := step_command hr hb hin
  obtain ⟨hw, hsteps, -⟩ := h
  refine ⟨by rw [stepMany_of_step hstep, hsteps], ?_⟩
  rw [waveform_of_step hstep, hw]
  simp [State.nextIsTick, hin]

/-- The block once the command `i` has been accepted and has completed with the pin latches at `oe` and `out`, where the
command has no result register. -/
def Block.completed (i : Instr) (oe : PinMode) (out : Level) (b : Block) : Block :=
  { b.accept (encode i) with oe := oe, out := out, busy := false, done := true }

theorem reset_runs {s : State} {env : List (Level × Bool)} {l : List Input} (hr : s.rstN = .high)
    (hb : s.blk.busy = false) (hovr : s.blk.ovr = false) (hl : env.length = 765)
    (hin : s.inputs = .regWrite 0#3 (encode .reset) :: (tickInputs env ++ l)) :
    RunsTo 766 s { s with inputs := l, now := s.now + 765, blk := s.blk.completed .reset .output .high }
      (wave [(.low, 750), (.high, 15)]) := by
  obtain ⟨-, -, run⟩ := resetCommandRun
  exact .command hr hb hin (run _ env l (accepted_accepting .reset _ hr) hovr rfl hl)

theorem checkPresence_runs {s : State} {env : List (Level × Bool)} {l : List Input} {k m : Nat} (hr : s.rstN = .high)
    (hb : s.blk.busy = false) (hovr : s.blk.ovr = false) (hk : k ≤ 99) (hm : m ≤ 239)
    (he : env.map Prod.fst = pulseLine k m)
    (hin : s.inputs = .regWrite 0#3 (encode .checkPresence) :: (tickInputs env ++ l)) :
    RunsTo (k + m + 2 + 1) s
      { s with inputs := l, now := s.now + (k + m + 2), blk := s.blk.completed .checkPresence .input s.blk.out }
      (wave [(.released, k + m + 2)]) := by
  obtain ⟨-, -, run⟩ := checkPresenceCommandRun
  exact .command hr hb hin ((run _ env l k m (accepted_accepting .checkPresence _ hr) hovr rfl hk hm).1 he)

theorem writeByte_runs {v : Byte} {s : State} {env : List (Level × Bool)} {l : List Input} {n : Nat}
    (hr : s.rstN = .high) (hb : s.blk.busy = false) (hovr : s.blk.ovr = false)
    (hn : n = 68 * ones v + 72 * (8 - ones v)) (hl : env.length = n)
    (hin : s.inputs = .regWrite 0#3 (encode (.writeByte v)) :: (tickInputs env ++ l)) :
    RunsTo (n + 1) s { s with inputs := l, now := s.now + n, blk := s.blk.completed (.writeByte v) .output .high }
      (byteWave v) := by
  obtain ⟨-, -, run⟩ := writeByteCommandRun v (s.accepting (.writeByte v) (tickInputs env ++ l)) env l n
  obtain ⟨hw, -, -, ht⟩ := run (accepted_accepting (.writeByte v) _ hr) hovr rfl hn hl
  exact .command hr hb hin ⟨hw, ht⟩

theorem skipRom_runs {s : State} {env1 env2 env3 : List (Level × Bool)} {l : List Input} {k m : Nat}
    (hr : s.rstN = .high) (hb : s.blk.busy = false) (hovr : s.blk.ovr = false) (hl : env1.length = 765) (hk : k ≤ 99)
    (hm : m ≤ 239) (he : env2.map Prod.fst = pulseLine k m) (hl3 : env3.length = 560)
    (hin : s.inputs = .regWrite 0#3 (encode .skipRom) :: (tickInputs (env1 ++ env2 ++ env3) ++ l)) :
    RunsTo (1325 + (k + m + 2) + 1) s
      { s with inputs := l, now := s.now + (1325 + (k + m + 2)), blk := s.blk.completed .skipRom .output .high }
      (wave [(.low, 750), (.high, 15), (.released, k + m + 2)] ++ byteWave 0xCC#8) := by
  obtain ⟨-, -, run⟩ := skipRomCommandRun
  rw [skipRom_wave]
  exact .command hr hb hin
    ((run _ env1 env2 env3 l k m (accepted_accepting .skipRom _ hr) hovr hl hk hm).1 rfl he hl3)

/-- Settles O54: the runs of the three primitives, one after the other, against the run of `SKIP_ROM`; every accept
clears what the command before it left in the flags. -/
theorem skipRomEqualsItsPrimitives : Obligations.SkipRomEqualsItsPrimitives := by
  intro s env1 env2 env3 rest k m n hr hb hovr hl he hl3 hk hm hn sA sB
  have hinB : sB.inputs = .regWrite 0#3 (encode .reset) :: (tickInputs env1 ++
      .regWrite 0#3 (encode .checkPresence) :: (tickInputs env2 ++
      .regWrite 0#3 (encode (.writeByte 0xCC#8)) :: (tickInputs env3 ++ rest))) := by
    simp only [sB, List.append_assoc, List.cons_append]
    rfl
  have hA := skipRom_runs (s := sA) hr hb hovr hl hk hm he hl3 rfl
  have hB := ((reset_runs (s := sB) hr hb hovr hl hinB).trans (checkPresence_runs hr rfl hovr hk hm he rfl)).trans
    (writeByte_runs hr rfl hovr (by decide) hl3 rfl)
  have hsteps : 766 + (k + m + 2 + 1) + (560 + 1) = n + 3 := by omega
  have hnow : s.now + 765 + (k + m + 2) + 560 = s.now + n := by omega
  rw [← hn] at hA
  rw [hsteps] at hB
  refine ⟨?waveform, _, _, hA.steps, hB.steps, rfl, rfl, rfl, ?block⟩
  case waveform => rw [hA.wave, hB.wave, wave_append]; rfl
  case block => simp only [sB, hnow]; rfl

end Sys2Proof.Machine
end

section
/-! PROOFS of the statements about the temperature decoder (spec/43_temperature_decoder.md): the fields of a binary32
word packed from its parts, the value of the decoded word as a rational, and from these the corner cases, the negation
law and the order. -/

namespace Sys2Proof.Machine

/-! ### The fields and the value of a packed binary32 word -/

/-- The binary32 word with the given sign, exponent field and fraction field (30_encoding.md R75). -/
def floatWord (negative : Bool) (expo frac : Nat) : Word :=
  BitVec.ofBool negative ++ BitVec.ofNat 8 expo ++ BitVec.ofNat 23 frac

theorem floatExponent_floatWord {s : Bool} {expo frac : Nat} (he : expo < 2 ^ 8) :
    floatExponent (floatWord s expo frac) = expo := by
  rw [floatExponent, floatWord, BitVec.extractLsb'_append_eq_of_le (by decide),
    BitVec.extractLsb'_append_eq_right, BitVec.toNat_ofNat, Nat.mod_eq_of_lt he]

theorem floatFraction_floatWord {s : Bool} {expo frac : Nat} (hf : frac < 2 ^ 23) :
    floatFraction (floatWord s expo frac) = frac := by
  rw [floatFraction, floatWord, BitVec.extractLsb'_append_eq_right, BitVec.toNat_ofNat, Nat.mod_eq_of_lt hf]

theorem msb_floatWord (s : Bool) (expo frac : Nat) : (floatWord s expo frac).msb = s := by
  calc (floatWord s expo frac).msb = (BitVec.ofBool s ++ BitVec.ofNat 8 expo).msb := BitVec.msb_append
    _ = (BitVec.ofBool s).msb := BitVec.msb_append
    _ = s := BitVec.msb_ofBool s

/-- Flipping the top bit of a word flips its sign and keeps the two other fields. -/
theorem floatWord_xor_signBit (s : Bool) (expo frac : Nat) :
    floatWord s expo frac ^^^ 0x80000000#32 = floatWord (!s) expo frac := by
  have hbit : 0x80000000#32 = (BitVec.ofBool true ++ 0#8) ++ 0#23 := by decide
  have hsign : BitVec.ofBool s ^^^ BitVec.ofBool true = BitVec.ofBool !s := by cases s <;> rfl
  rw [floatWord, hbit, BitVec.xor_append, BitVec.xor_append, hsign, BitVec.xor_zero, BitVec.xor_zero, floatWord]

/-- The value of a word whose exponent field is neither 0 nor 255 (30_encoding.md R75). -/
theorem floatValue_floatWord {s : Bool} {expo frac : Nat} (h1 : 1 ≤ expo) (h254 : expo ≤ 254) (hf : frac < 2 ^ 23) :
    floatValue (floatWord s expo frac) =
      some ((if s then -1 else 1) * (2 : ℚ) ^ ((expo : Int) - 127) * (1 + frac / 2 ^ 23)) := by
  have hexpo : floatExponent (floatWord s expo frac) = expo := floatExponent_floatWord (by omega)
  have hne : floatWord s expo frac ≠ 0#32 := by
    intro h
    rw [h, show floatExponent 0#32 = 0 from rfl] at hexpo
    omega
  rw [floatValue, if_neg hne, hexpo, if_pos ⟨h1, h254⟩, msb_floatWord, floatFraction_floatWord hf]

/-! ### The word of a sample -/

theorem toInt_ne_zero {raw : Half} (h : raw ≠ 0#16) : raw.toInt ≠ 0 := by
  rwa [← BitVec.toInt_zero, BitVec.toInt_ne]

theorem rawMagnitude_ne_zero {raw : Half} (h : raw ≠ 0#16) : rawMagnitude raw ≠ 0 :=
  Int.natAbs_ne_zero.mpr (toInt_ne_zero h)

theorem rawMagnitude_le (raw : Half) : rawMagnitude raw ≤ 2 ^ 15 := by
  have hlo := raw.le_toInt
  have hhi := raw.toInt_lt
  unfold rawMagnitude
  omega

/-- The magnitude of a sample other than 0 has its top set bit at a position `e` from 0 to 15
(43_temperature_decoder.md R137). -/
theorem exists_topBit {raw : Half} (h : raw ≠ 0#16) :
    ∃ e ≤ 15, 2 ^ e ≤ rawMagnitude raw ∧ rawMagnitude raw < 2 ^ (e + 1) := by
  have hlow := Nat.log2_self_le (rawMagnitude_ne_zero h)
  refine ⟨_, ?_, hlow, Nat.lt_log2_self⟩
  exact (Nat.pow_le_pow_iff_right (by decide)).mp (hlow.trans (rawMagnitude_le raw))

/-- The word of a sample other than 0, by its fields (43_temperature_decoder.md R137). -/
theorem decode32_eq_floatWord {raw : Half} {e : Nat} (h : raw ≠ 0#16) (hlow : 2 ^ e ≤ rawMagnitude raw)
    (hhigh : rawMagnitude raw < 2 ^ (e + 1)) :
    decode32 raw =
      floatWord (decide (raw.toInt < 0)) (e + 123) ((rawMagnitude raw - 2 ^ e) * 2 ^ (23 - e)) := by
  have he : (rawMagnitude raw).log2 = e := (Nat.log2_eq_iff (rawMagnitude_ne_zero h)).mpr ⟨hlow, hhigh⟩
  simp only [decode32, if_neg (toInt_ne_zero h), he, Nat.shiftLeft_eq, floatWord, Nat.reduceSubDiff]

/-- The fraction of a magnitude with top bit `e` fits its 23 bits: no bit is lost (43_temperature_decoder.md R139). -/
theorem fraction_lt {m e : Nat} (he : e ≤ 15) (hhigh : m < 2 ^ (e + 1)) : (m - 2 ^ e) * 2 ^ (23 - e) < 2 ^ 23 := by
  have hrest : m - 2 ^ e < 2 ^ e := by
    rw [pow_succ] at hhigh
    have := Nat.two_pow_pos e
    omega
  calc (m - 2 ^ e) * 2 ^ (23 - e) < 2 ^ e * 2 ^ (23 - e) := Nat.mul_lt_mul_of_pos_right hrest (Nat.two_pow_pos _)
    _ = 2 ^ 23 := by rw [← pow_add, Nat.add_sub_cancel' (by omega)]

/-- The arithmetic of R137: `2^(E - 127) * (1 + F / 2^23) = 2^(e - 4) * (m / 2^e) = m / 16`. -/
theorem significand_scaled {m e : Nat} (he : e ≤ 15) (hlow : 2 ^ e ≤ m) :
    (2 : ℚ) ^ (((e + 123 : Nat) : Int) - 127) * (1 + ((m - 2 ^ e) * 2 ^ (23 - e) : Nat) / 2 ^ 23) = m / 16 := by
  have hexpo : ((e + 123 : Nat) : Int) - 127 = e - 4 := by omega
  have hscale : (2 : ℚ) ^ (((e + 123 : Nat) : Int) - 127) = 2 ^ e / 16 := by
    rw [hexpo, zpow_sub₀ two_ne_zero, zpow_natCast]
    norm_num
  have hfrac : (((m - 2 ^ e) * 2 ^ (23 - e) : Nat) : ℚ) / 2 ^ 23 = (m - 2 ^ e) / 2 ^ e := by
    rw [Nat.cast_mul, Nat.cast_sub hlow, Nat.cast_pow, Nat.cast_pow, Nat.cast_ofNat,
      pow_sub₀ _ two_ne_zero (by omega : e ≤ 23)]
    field_simp
  rw [hscale, hfrac]
  field_simp
  ring

/-- The sign bit put before the magnitude gives the signed sample back (43_temperature_decoder.md R142). -/
theorem sign_mul_rawMagnitude (raw : Half) :
    (if decide (raw.toInt < 0) then -1 else 1) * (rawMagnitude raw : ℚ) = raw.toInt := by
  rw [rawMagnitude, Nat.cast_natAbs]
  by_cases h : raw.toInt < 0
  · simp [h, abs_of_neg h]
  · simp [h, abs_of_nonneg (not_lt.mp h)]

/-- The word of every sample has exactly the value of its temperature (43_temperature_decoder.md R139). -/
theorem floatValue_decode32 (raw : Half) : floatValue (decode32 raw) = some ((raw.toInt : ℚ) / 16) := by
  by_cases h : raw = 0#16
  · subst h
    simp [decode32, floatValue]
  · obtain ⟨e, he, hlow, hhigh⟩ := exists_topBit h
    rw [decode32_eq_floatWord h hlow hhigh, floatValue_floatWord (by omega) (by omega) (fraction_lt he hhigh),
      mul_assoc, significand_scaled he hlow, ← mul_div_assoc, sign_mul_rawMagnitude]

/-- No sample decodes to a subnormal, an infinity or a NaN (43_temperature_decoder.md R139). -/
theorem floatExponent_decode32 {raw : Half} (h : raw ≠ 0#16) :
    123 ≤ floatExponent (decode32 raw) ∧ floatExponent (decode32 raw) ≤ 138 := by
  obtain ⟨e, he, hlow, hhigh⟩ := exists_topBit h
  rw [decode32_eq_floatWord h hlow hhigh, floatExponent_floatWord (by omega)]
  omega

/-- -0.0 has no value under R75, and every decoded word has one (43_temperature_decoder.md R140). -/
theorem decode32_ne_negZero (raw : Half) : decode32 raw ≠ 0x80000000#32 := by
  intro h
  have hvalue := floatValue_decode32 raw
  rw [h] at hvalue
  exact absurd hvalue (by simp [floatValue, floatExponent])

/-- Different samples have different values, so they cannot share a word. -/
theorem decode32_injective {a b : Half} (h : decode32 a = decode32 b) : a = b := by
  have hvalue : some ((a.toInt : ℚ) / 16) = some ((b.toInt : ℚ) / 16) := by
    rw [← floatValue_decode32, ← floatValue_decode32, h]
  have hint : (a.toInt : ℚ) = b.toInt := by simpa using hvalue
  exact BitVec.eq_of_toInt_eq (by exact_mod_cast hint)

/-- A sample and its negation have the same magnitude and opposite signs; only 0 and `0x8000` are their own negation
(95_test_vectors.md section 2.5). -/
theorem decode32_neg {raw : Half} (h0 : raw ≠ 0x0000#16) (hmin : raw ≠ 0x8000#16) :
    decode32 (-raw) = decode32 raw ^^^ 0x80000000#32 := by
  have hint : (-raw).toInt = -raw.toInt := BitVec.toInt_neg_of_ne_intMin hmin
  have hmag : rawMagnitude (-raw) = rawMagnitude raw := by rw [rawMagnitude, hint, Int.natAbs_neg, rawMagnitude]
  have hsign : decide ((-raw).toInt < 0) = !decide (raw.toInt < 0) := by
    have := toInt_ne_zero h0
    rw [hint, ← decide_not, decide_eq_decide]
    omega
  obtain ⟨e, -, hlow, hhigh⟩ := exists_topBit h0
  rw [decode32_eq_floatWord h0 hlow hhigh, floatWord_xor_signBit,
    decode32_eq_floatWord (neg_ne_zero.mpr h0) (hmag ▸ hlow) (hmag ▸ hhigh), hmag, hsign]

/-! ### The statements -/

/-- Settles O56, from the word's fields and the exact value of the word they pack. -/
theorem decodedWordAndValueAreExact : Obligations.DecodedWordAndValueAreExact := by
  refine ⟨rfl, fun raw e h hlow hhigh => decode32_eq_floatWord h hlow hhigh, fun raw => ?_⟩
  have hint := raw.toInt_eq_msb_cond
  have hmsb : raw.msb = raw.getLsbD 15 := raw.msb_eq_getLsbD_last
  refine ⟨floatValue_decode32 raw, ?nonnegative, ?negative, floatExponent_decode32, decode32_ne_negZero raw⟩
  case nonnegative =>
    intro h15
    rw [hint, hmsb, h15]
    rfl
  case negative =>
    intro h15
    rw [hint, hmsb, h15]
    simp

/-- Settles O58: negation by the fields, injectivity and order by the exact value. -/
theorem decoderNegationAndOrder : Obligations.DecoderNegationAndOrder := by
  refine ⟨fun _ => decode32_neg, fun _ _ => decode32_injective, fun a b hab => ?_⟩
  refine ⟨_, _, floatValue_decode32 a, floatValue_decode32 b, ?_⟩
  have hlt : (a.toInt : ℚ) < b.toInt := by exact_mod_cast hab
  exact div_lt_div_of_pos_right hlt (by norm_num)

/-- Settles O57: the words by evaluation, the two values by the exact value of every sample's word. -/
theorem decoderCornerCases : Obligations.DecoderCornerCases := by
  have htop : (0x7FFF#16 : Half).toInt = 32767 := by decide
  have hmin : (0x8000#16 : Half).toInt = -32768 := by decide
  refine ⟨by decide, by decide, by decide, by decide, by decide, by decide, htop, by decide, hmin, by decide,
    by decide, by decide, ?_, ?_⟩
  · rw [floatValue_decode32, htop]
    norm_num
  · rw [floatValue_decode32, hmin]
    norm_num

end Sys2Proof.Machine
end

section
/-! PROOFS of the statements about errors (spec/60_exceptions.md R150 to R152): the ticks that change `ERR` are the aborts
of `CFG`, `WAITL` and `WAITH`, said once by `exec_aborts` with what each leaves; and no step of the invariant stops. -/

namespace Sys2Proof.Machine

/-! ### Aborts -/

/-- The three aborts: where each can happen, with which inputs (60_exceptions.md R150), and the block it leaves
(R152). -/
inductive Aborts (i : Instr) (s t : State) : Prop
  | clockNotReady (command : i = .configure ∨ i = .init) (clock : s.gpioClkOk = false)
      (blk : t.blk = ({ s.blk with clken := true } : Block).abort .configurationError)
  | noDevice (command : checksPresence i) (line : s.dqIn = .high) (cnt : s.blk.cnt = 99)
      (blk : t.blk = ({ s.blk with oe := .input } : Block).abort .noDevicePresent)
  | pulseInvalid (command : checksPresence i) (line : s.dqIn = .low) (cnt : s.blk.cnt = 239)
      (blk : t.blk = ({ s.blk with oe := .input } : Block).abort .presencePulseInvalid)

/-- A tick fails only in one of the three micro-operations that can abort, with the ceilings and codes of
`aborting_entry`. -/
theorem aborts_of_failsOnTick {i : Instr} {e : Entry} {s t : State} (he : e ∈ expand i)
    (hf : e.op.failsOnTick s.blk.cnt s.dqIn s.gpioClkOk = true)
    (ht : t.blk = (e.op.setPins s.dqIn s.gpioClkOk s.blk).abort e.op.abortCode) : Aborts i s t := by
  obtain ⟨hlow, hhigh, hcfg⟩ := aborting_entry he
  cases hop : e.op with
  | drv l n => simp [hop, MicroOp.failsOnTick] at hf
  | rls n => simp [hop, MicroOp.failsOnTick] at hf
  | smp n j => simp [hop, MicroOp.failsOnTick] at hf
  | waitL m c =>
    obtain ⟨rfl, rfl, hi⟩ := hlow m c hop
    obtain ⟨hline, hcnt⟩ : s.dqIn = .high ∧ s.blk.cnt = 99 := by
      simpa [hop, MicroOp.failsOnTick, MicroOp.ticks] using hf
    exact .noDevice hi hline hcnt (by rw [ht, hop]; rfl)
  | waitH m c =>
    obtain ⟨rfl, rfl, hi⟩ := hhigh m c hop
    obtain ⟨hline, hcnt⟩ : s.dqIn = .low ∧ s.blk.cnt = 239 := by
      simpa [hop, MicroOp.failsOnTick, MicroOp.ticks] using hf
    exact .pulseInvalid hi hline hcnt (by rw [ht, hop]; rfl)
  | cfg =>
    have hclock : s.gpioClkOk = false := by simpa [hop, MicroOp.failsOnTick] using hf
    exact .clockNotReady (hcfg hop) hclock (by rw [ht, hop]; simp [MicroOp.setPins, MicroOp.abortCode, hclock])

/-- A tick of a command that changes `ERR` is an abort. -/
theorem exec_aborts {i : Instr} {s t : State} (h : exec i s = .next t) (herr : t.blk.err ≠ s.blk.err) :
    Aborts i s t := by
  obtain ⟨e, he, rfl⟩ := exec_next h
  obtain ⟨-, ht⟩ | ⟨hf, ht⟩ | ⟨-, -, ht⟩ := tick_three_ways i e.op s.dqIn s.gpioClkOk s.blk
  · simp [ht] at herr
  · exact aborts_of_failsOnTick (mem_of_entry he) hf ht
  · simp [ht] at herr

/-- A command that aborts is none of those made of `DRV`, `SMP` and `RLS` alone. -/
theorem Aborts.command_ne {i : Instr} {s t : State} (h : Aborts i s t) :
    i ≠ .reset ∧ (∀ v, i ≠ .writeByte v) ∧ i ≠ .readBit ∧ i ≠ .readByte := by
  cases h with
  | clockNotReady command => rcases command with rfl | rfl <;> simp
  | noDevice command => rcases command with rfl | rfl | rfl | rfl | rfl <;> simp
  | pulseInvalid command => rcases command with rfl | rfl | rfl | rfl | rfl <;> simp

/-- Settles O23: the block that each of the three aborts leaves. -/
theorem abortEndsCommandAndWritesNoResult : Obligations.AbortEndsCommandAndWritesNoResult := by
  intro i s t h herr
  refine ⟨_, rfl, ?_⟩
  cases exec_aborts h herr with
  | clockNotReady _ _ blk => simp [blk, Block.abort]
  | noDevice _ _ _ blk => simp [blk, Block.abort]
  | pulseInvalid _ _ _ blk => simp [blk, Block.abort]

/-- Settles O24: the command and the inputs that each of the three aborts asks for. -/
theorem errorCodesByCommand : Obligations.ErrorCodesByCommand := by
  refine ⟨fun i s t h herr => ?_, rfl, rfl, rfl, rfl, rfl⟩
  have habort := exec_aborts h herr
  have hne := habort.command_ne
  cases habort with
  | clockNotReady command clock blk => simpa [blk, command, clock] using hne
  | noDevice command line cnt blk => simpa [blk, line, cnt] using ⟨command, hne⟩
  | pulseInvalid command line cnt blk => simpa [blk, line, cnt] using ⟨command, hne⟩

/-! ### No step stops -/

/-- Under the invariant a tick of a busy block finds an entry to run. -/
theorem stepTick_next {s : State} (h : Inv s) : ∃ t, stepTick s = .next t := by
  unfold stepTick
  split
  · rename_i hr
    obtain ⟨i, e, hd, he, -⟩ := positionOk_iff.mp (h.busyPosition (running_iff.mp hr).2)
    rw [State.fetch, hd]
    exact ⟨_, exec_entry he⟩
  · exact ⟨_, rfl⟩

/-- Settles O27: a host access and a level of `rst_n` always have a next state, and a tick has one under the
invariant. -/
theorem noStepStopsUnderInvariant : Obligations.NoStepStopsUnderInvariant := by
  intro s h
  unfold step
  split
  · exact ⟨_, rfl⟩
  · exact ⟨_, rfl⟩
  · exact ⟨_, rfl⟩
  · exact stepTick_next h
  · exact stepTick_next h

end Sys2Proof.Machine
end

section
/-! PROOFS of the statements about hardware reset and the bound on a command (spec/70_reset_and_hazards.md R175, R177
and R190): while `rst_n` is low no event changes the block, and each tick of a command uses up at least one of the ticks
it has left. -/

namespace Sys2Proof.Machine

/-! ### Hardware reset -/

/-- While `rst_n` is low no step leaves the reset values, and only `rst_n` high ends the reset. -/
theorem step_held {s t : State} (hinv : Inv s) (hr : s.rstN = .low) (h : step s = .next t) :
    t.blk = Block.reset ∧ (t.rstN = .low ∨ ∃ rest, s.inputs = .rstN .high :: rest) := by
  have hblk := hinv.resetHeld hr
  rcases step_cases h with ⟨a, rest, -, rfl⟩ | ⟨a, v, rest, -, rfl⟩ | ⟨l, rest, hin, rfl⟩ | ⟨-, -, rfl⟩ |
    ⟨-, hrun, -⟩
  · exact ⟨hblk, .inl hr⟩
  · simp [hr, hblk]
  · cases l with
    | low => exact ⟨rfl, .inl rfl⟩
    | high => exact ⟨hblk, .inr ⟨rest, hin⟩⟩
  · exact ⟨hblk, .inl hr⟩
  · simp [State.running, hr] at hrun

/-- Settles O59: the values and views by evaluation, and then the events one by one. -/
theorem hardwareReset : Obligations.HardwareReset := by
  refine ⟨rfl, by decide, rfl, by decide, ?low, ?held, ?high, ?write⟩
  case low => exact fun s rest hin => step_rstN hin
  case held =>
    intro s t hinv hr h
    obtain ⟨hblk, hrst⟩ := step_held hinv hr h
    refine ⟨hblk, hrst, fun a rest hin => ?_⟩
    rw [step_regRead hin] at h
    cases h
    rw [State.hostRead_rdata, hinv.resetHeld hr]
  case high =>
    intro s rest hinv hr hin
    rw [step_rstN hin, ← hinv.resetHeld hr]
    rfl
  case write =>
    intro s a v rest hblk hr hin
    rw [step_regWrite_high hin hr, hblk]

/-! ### The bound on a command -/

theorem commandTakes_zero {s : State} (h : s.blk.busy = false) : CommandTakes 0 s s :=
  ⟨rfl, h, by simp⟩

/-- A command whose next step leads to `u` takes one step more than it takes from `u`. -/
theorem CommandTakes.of_step {n : Nat} {s u t : State} (hb : s.blk.busy = true) (h : step s = .next u)
    (hu : CommandTakes n u t) : CommandTakes (n + 1) s t := by
  obtain ⟨hrun, hidle, hbusy⟩ := hu
  refine ⟨by rw [stepMany_of_step h, hrun], hidle, fun k hk => ?_⟩
  cases k with
  | zero => exact ⟨s, rfl, hb⟩
  | succ k =>
    rw [stepMany_of_step h]
    exact hbusy k (by omega)

/-- The tick that ends a command sets `DONE`. -/
theorem step_done_of_ends {s t : State} (hn : s.nextIsTick = true) (hr : s.rstN = .high) (hb : s.blk.busy = true)
    (h : step s = .next t) (ht : t.blk.busy = false) : t.blk.done = true := by
  obtain ⟨i, e, -, -, hblk⟩ := step_busy_tick hn hr hb h
  rw [hblk] at ht ⊢
  obtain ⟨hbusy, -⟩ | ⟨-, hdone⟩ := tick_flags i e.op s.dqIn s.gpioClkOk s.blk hb
  · simp [hbusy] at ht
  · exact hdone

/-- A command in progress ends within the ticks it has left. -/
theorem commandTakes_le_ticksLeft {left : Nat} {s : State} (hinv : Inv s) (hr : s.rstN = .high)
    (hb : s.blk.busy = true) (ht : onlyTicks s.inputs = true) (hleft : s.blk.ticksLeft ≤ left) :
    ∃ n t, n ≤ left ∧ CommandTakes n s t ∧ t.blk.done = true := by
  induction left generalizing s with
  | zero =>
    have hpos := ticksLeft_pos (hinv.busyPosition hb)
    omega
  | succ left ih =>
    obtain ⟨u, hstep, hr', ht', hbusy⟩ := step_onlyTicks hinv hr ht
    cases hu : u.blk.busy with
    | false =>
      have hdone := step_done_of_ends (nextIsTick_of_onlyTicks ht) hr hb hstep hu
      exact ⟨1, u, by omega, (commandTakes_zero hu).of_step hb hstep, hdone⟩
    | true =>
      obtain ⟨-, hlt⟩ := hbusy hu
      obtain ⟨n, t, hn, htakes, hdone⟩ :=
        ih (everyStepKeepsInvariant _ _ hinv hstep) hr' hu ht' (by omega)
      exact ⟨n + 1, t, by omega, htakes.of_step hb hstep, hdone⟩

/-- Settles O29: no command has more than 5410 ticks left, the sum of the ceilings of the longest list. -/
theorem commandEndsWithinBound : Obligations.CommandEndsWithinBound :=
  fun s hinv hr hb ht => commandTakes_le_ticksLeft hinv hr hb ht (ticksLeft_le s.blk)

end Sys2Proof.Machine
end
